-- ==== Sys2Proof/Word.lean ====
section
/-! DEFINITION. The words of the block: the 32-bit host register (spec rule R6, R80) and the
numbers of its 32 synthesis slots (rule R2). -/

namespace Sys2Proof

/-- A host register or a command word: 32 bits (rules R6, R80). -/
abbrev Word := BitVec 32

/-- An unsigned 8-bit value: a ramp target, an increment code, a phase time or level (rule R6). -/
abbrev Byte := BitVec 8

/-- A slot number 0..31, the SLOT field of a command word (rules R2, R101). -/
abbrev SlotIx := BitVec 5

/-- A word address of the host register space (rules R31, R80). -/
abbrev HostAddr := BitVec 12

end Sys2Proof
end

