-- ==== Sys2Proof/Syntax.lean ====
section
/-! DEFINITION. The commands of the block: one constructor per row of spec/opcode_table.json
(rule R103). A command's fields are the fields of its command word that it reads (rule R101): the
slot number, the 2-bit UNIT and, for RSTART, the operands A (target) and B (increment code). -/

namespace Sys2Proof

/-- The 18 commands of rule R103. -/
inductive Instr where
  /-- NOP (rule R270). -/
  | nop
  /-- RSTART slot, unit, target, code (rule R133). -/
  | rstart (slot : SlotIx) (unit : BitVec 2) (target : Byte) (code : Byte)
  /-- RNEXT slot, unit (rule R134). -/
  | rnext (slot : SlotIx) (unit : BitVec 2)
  /-- RCHKI slot, unit (rule R140). -/
  | rchki (slot : SlotIx) (unit : BitVec 2)
  /-- RRESET slot, unit (rule R141). -/
  | rreset (slot : SlotIx) (unit : BitVec 2)
  /-- WINIT slot (rule R160). -/
  | winit (slot : SlotIx)
  /-- WGEN slot (rule R162). -/
  | wgen (slot : SlotIx)
  /-- WDEACT slot (rule R174). -/
  | wdeact (slot : SlotIx)
  /-- PAIROUT slot (rule R200). -/
  | pairout (slot : SlotIx)
  /-- ESTART slot, unit (rule R228). -/
  | estart (slot : SlotIx) (unit : BitVec 2)
  /-- EDECAY slot, unit (rule R240). -/
  | edecay (slot : SlotIx) (unit : BitVec 2)
  /-- EABORT slot (rule R243). -/
  | eabort (slot : SlotIx)
  /-- EINTR slot, unit (rule R235). -/
  | eintr (slot : SlotIx) (unit : BitVec 2)
  /-- PSTART slot (rule R271). -/
  | pstart (slot : SlotIx)
  /-- PSTOP slot (rule R272). -/
  | pstop (slot : SlotIx)
  /-- PDECAY slot (rule R273). -/
  | pdecay (slot : SlotIx)
  /-- PABORT slot (rule R274). -/
  | pabort (slot : SlotIx)
  /-- TICK (rule R285). -/
  | tick
deriving DecidableEq, Repr

end Sys2Proof
end

