-- ==== Sys2Proof/WellFormed.lean ====
section
/-! DEFINITION. Which commands are well formed: a command that reads UNIT has UNIT 0, 1 or 2
(rule R101, "3 is illegal"; rule R105). Every other field has no illegal value: all 32 slot numbers,
all targets and all increment codes are commands (rules R101, R102). -/

namespace Sys2Proof

/-- A UNIT field that names a ramp or controller. -/
def unitOk (unit : BitVec 2) : Bool := unit != 3#2

/-- The command is one the block executes (rule R105). -/
def Instr.wf : Instr → Bool
  | .nop => true
  | .rstart _ unit _ _ => unitOk unit
  | .rnext _ unit => unitOk unit
  | .rchki _ unit => unitOk unit
  | .rreset _ unit => unitOk unit
  | .winit _ => true
  | .wgen _ => true
  | .wdeact _ => true
  | .pairout _ => true
  | .estart _ unit => unitOk unit
  | .edecay _ unit => unitOk unit
  | .eabort _ => true
  | .eintr _ unit => unitOk unit
  | .pstart _ => true
  | .pstop _ => true
  | .pdecay _ => true
  | .pabort _ => true
  | .tick => true

end Sys2Proof
end

