-- ==== Sys2Proof/Decode.lean ====
section
/-! DEFINITION. The command decoder of rule R105 and the encoder of rule R101. Decoding is total on
32-bit words: it gives a command or the error code that the block logs. -/

namespace Sys2Proof

/-- The errors of rule R311, in the order of their codes. -/
inductive ErrCode where
  /-- 0x01: a reserved opcode. -/
  | reservedOpcode
  /-- 0x02: a reserved field of the command word is not 0. -/
  | reservedField
  /-- 0x03: UNIT = 3 in a command that reads UNIT. -/
  | illegalUnit
  /-- 0x04: a PCM wave that does not fit (WINIT, PSTART). -/
  | pcmRange
  /-- 0x05: PSTART of an active slot; a warning, the start proceeds. -/
  | staleState
  /-- 0x06: a host write to a read-only register or a reserved address. -/
  | badRegisterWrite
deriving DecidableEq, Repr

/-- The code byte of an error (rule R311). -/
def ErrCode.toByte : ErrCode → Byte
  | .reservedOpcode => 0x01#8
  | .reservedField => 0x02#8
  | .illegalUnit => 0x03#8
  | .pcmRange => 0x04#8
  | .staleState => 0x05#8
  | .badRegisterWrite => 0x06#8

/-- The OPC field, bits 31:24 (rule R101). -/
def opcField (w : Word) : Byte := w.extractLsb' 24 8
/-- The SLOT field, bits 23:19. -/
def slotField (w : Word) : SlotIx := w.extractLsb' 19 5
/-- The UNIT field, bits 18:17. -/
def unitField (w : Word) : BitVec 2 := w.extractLsb' 17 2
/-- The operand A, bits 15:8. -/
def aField (w : Word) : Byte := w.extractLsb' 8 8
/-- The operand B, bits 7:0. -/
def bField (w : Word) : Byte := w.extractLsb' 0 8

/-- Which fields of bits 23:0 a command reads, the "fields" column of rule R103. -/
inductive Fields where
  /-- none. -/
  | none
  /-- SLOT. -/
  | slot
  /-- SLOT UNIT. -/
  | slotUnit
  /-- SLOT UNIT A B. -/
  | slotUnitAB
deriving DecidableEq, Repr

/-- The mask of a command that reads these fields: OPC and every reserved bit (rules R103, R104). -/
def Fields.mask : Fields → Word
  | .none => 0xFFFFFFFF#32
  | .slot => 0xFF07FFFF#32
  | .slotUnit => 0xFF01FFFF#32
  | .slotUnitAB => 0xFF010000#32

/-- The command reads UNIT. -/
def Fields.readsUnit : Fields → Bool
  | .none => false
  | .slot => false
  | .slotUnit => true
  | .slotUnitAB => true

/-- A row of rule R103: the fields the opcode reads, and the command they make. -/
structure OpRow where
  fields : Fields
  build  : SlotIx → BitVec 2 → Byte → Byte → Instr

/-- The opcode map of rule R103; `none` for the reserved opcodes of rule R106. -/
def opRow (opc : Byte) : Option OpRow :=
  match opc.toNat with
  | 0x00 => some ⟨.none, fun _ _ _ _ => .nop⟩
  | 0x01 => some ⟨.slotUnitAB, fun s u a b => .rstart s u a b⟩
  | 0x02 => some ⟨.slotUnit, fun s u _ _ => .rnext s u⟩
  | 0x03 => some ⟨.slotUnit, fun s u _ _ => .rchki s u⟩
  | 0x04 => some ⟨.slotUnit, fun s u _ _ => .rreset s u⟩
  | 0x10 => some ⟨.slot, fun s _ _ _ => .winit s⟩
  | 0x11 => some ⟨.slot, fun s _ _ _ => .wgen s⟩
  | 0x12 => some ⟨.slot, fun s _ _ _ => .wdeact s⟩
  | 0x18 => some ⟨.slot, fun s _ _ _ => .pairout s⟩
  | 0x20 => some ⟨.slotUnit, fun s u _ _ => .estart s u⟩
  | 0x21 => some ⟨.slotUnit, fun s u _ _ => .edecay s u⟩
  | 0x22 => some ⟨.slot, fun s _ _ _ => .eabort s⟩
  | 0x23 => some ⟨.slotUnit, fun s u _ _ => .eintr s u⟩
  | 0x30 => some ⟨.slot, fun s _ _ _ => .pstart s⟩
  | 0x31 => some ⟨.slot, fun s _ _ _ => .pstop s⟩
  | 0x32 => some ⟨.slot, fun s _ _ _ => .pdecay s⟩
  | 0x33 => some ⟨.slot, fun s _ _ _ => .pabort s⟩
  | 0x40 => some ⟨.none, fun _ _ _ _ => .tick⟩
  | _ => Option.none

/-- Rule R105: the opcode, then the reserved fields, then the unit; the first check that fails gives
the error. The match value of a row is its opcode in bits 31:24 and 0 elsewhere (rule R103). -/
def decode (w : Word) : Except ErrCode Instr :=
  match opRow (opcField w) with
  | Option.none => .error .reservedOpcode
  | some row =>
    if w &&& row.fields.mask ≠ opcField w ++ 0#24 then .error .reservedField
    else if row.fields.readsUnit && !unitOk (unitField w) then .error .illegalUnit
    else .ok (row.build (slotField w) (unitField w) (aField w) (bField w))

/-- `enc(OPC, SLOT, UNIT, A, B)` of rule R101; bit 16 is the reserved bit. -/
def enc (opc : Byte) (slot : SlotIx) (unit : BitVec 2) (a b : Byte) : Word :=
  opc ++ slot ++ unit ++ 0#1 ++ a ++ b

/-- The command word of a command (rules R101, R103, R108). -/
def encode : Instr → Word
  | .nop => enc 0x00#8 0#5 0#2 0#8 0#8
  | .rstart s u a b => enc 0x01#8 s u a b
  | .rnext s u => enc 0x02#8 s u 0#8 0#8
  | .rchki s u => enc 0x03#8 s u 0#8 0#8
  | .rreset s u => enc 0x04#8 s u 0#8 0#8
  | .winit s => enc 0x10#8 s 0#2 0#8 0#8
  | .wgen s => enc 0x11#8 s 0#2 0#8 0#8
  | .wdeact s => enc 0x12#8 s 0#2 0#8 0#8
  | .pairout s => enc 0x18#8 s 0#2 0#8 0#8
  | .estart s u => enc 0x20#8 s u 0#8 0#8
  | .edecay s u => enc 0x21#8 s u 0#8 0#8
  | .eabort s => enc 0x22#8 s 0#2 0#8 0#8
  | .eintr s u => enc 0x23#8 s u 0#8 0#8
  | .pstart s => enc 0x30#8 s 0#2 0#8 0#8
  | .pstop s => enc 0x31#8 s 0#2 0#8 0#8
  | .pdecay s => enc 0x32#8 s 0#2 0#8 0#8
  | .pabort s => enc 0x33#8 s 0#2 0#8 0#8
  | .tick => enc 0x40#8 0#5 0#2 0#8 0#8

/-- A command word from the opcode table's numbering of its bits: the low `nbits` bits of `w`, every
bit above them 0. A command is one 32-bit word, bit 0 its least significant (rules R9, R100). -/
def tableWord (nbits w : Nat) : Word := BitVec.ofNat 32 (w % 2 ^ nbits)

/-- What the decoder reads from a word of the opcode table. -/
def decodeTableWord (nbits w : Nat) : Option Instr :=
  match decode (tableWord nbits w) with
  | .ok i => some i
  | .error _ => Option.none

end Sys2Proof
end

