-- ==== Sys2Proof/Config.lean ====
section
/-! DEFINITION. The implementation parameters of the block. The spec gives no value for any of
them ("OPEN parameters", rule R8): the type SYNTH_STATE is given by the constant `Config.synthStates`,
every other one is a field of `Params`, and the machine's own set is the constant `Config.hardware`;
neither constant has a body. The types the parameters range over come first. -/

namespace Sys2Proof

/-- An envelope controller, and equally the ramp it owns (rules R40, R101): TVA owns the amplitude
ramp (unit 0), TVP the pitch ramp (unit 1), TVF the cutoff ramp (unit 2). -/
inductive Ctl where
  | tva
  | tvp
  | tvf
deriving DecidableEq, Repr

/-- An envelope phase, named by its code 0..6 (rule R220). For TVA and TVF the codes 0..4 are
ATTACK, PHASE2, PHASE3, PHASE4 and SUSTAIN; for TVP they are PH0, PH1, PH2, VIB3 and VIB4.
Code 7 is never written (rule R220, I6) and has no constructor. -/
inductive Phase where
  | p0
  | p1
  | p2
  | p3
  | p4
  | release
  | dead
deriving DecidableEq, Repr

/-- A log-domain sample: a 16-bit log value and a sign, `true` = negative (rule R11). -/
structure LogSample where
  logValue : BitVec 16
  sign     : Bool
deriving DecidableEq, Repr

/-- SILENCE, the LogSample whose register encoding is 0x0FFFF (rule R11). -/
def LogSample.silence : LogSample := { logValue := 0xFFFF#16, sign := false }

/-- A controller's latched parameters LP[c] = (LT0..LT4, LTKF, LL0..LL3, LX0..LX4) (rule R44). -/
structure LatchedParams where
  lt0  : Byte
  lt1  : Byte
  lt2  : Byte
  lt3  : Byte
  lt4  : Byte
  ltkf : Byte
  ll0  : Byte
  ll1  : Byte
  ll2  : Byte
  ll3  : Byte
  lx0  : Word
  lx1  : Word
  lx2  : Word
  lx3  : Word
  lx4  : Word
deriving DecidableEq, Repr

/-- The inputs a slot's OPEN functions see (rules R38, R351): KEY and VEL of NOTE, the three fields
of CTRL_IN and BEND of BEND_IN. SUSTAIN_OK is not among them: rule R351 has it read at the entry to
SUSTAIN and nowhere else (DEDUCED, assumption log 3). -/
structure Inputs where
  key        : BitVec 7
  vel        : BitVec 7
  volume     : BitVec 7
  expression : BitVec 7
  modulation : BitVec 7
  bend       : BitVec 14
deriving DecidableEq, Repr

/-- The segments of the synthetic wave, in the order of rule R170: the five that it lists, its second
"rising" being `risingBack` (DEDUCED, assumption log 4). -/
inductive Segment where
  | rising
  | flatHigh
  | falling
  | flatLow
  | risingBack
deriving DecidableEq, Repr

/-- The segment that follows in the cyclic order (rule R170). -/
def Segment.next : Segment → Segment
  | .rising => .flatHigh
  | .flatHigh => .falling
  | .falling => .flatLow
  | .flatLow => .risingBack
  | .risingBack => .rising

/-- How many values SYNTH_STATE has, less one: a parameter with no body, like every OPEN one (rule R8). -/
opaque Config.synthStates : Nat

/-- SYNTH_STATE, an OPEN type (rule R8): any type that a finite machine can hold. Nothing is known of it
but that it has a value and finitely many; every such type is this one up to a renaming of its values
(DEDUCED, assumption log 4). -/
abbrev SynthState := Fin (Config.synthStates + 1)

/-- The OPEN parameters of rule R8, each under its name there and with the constraint the spec puts
on it. The default of each field only shows that the constraints can be met together, which is what
`opaque` asks for; no proof can see a default through `Config.hardware`. -/
structure Params where
  /-- RAMP_INC: positive, non-decreasing and not linear (rules R8, R132). -/
  rampInc : BitVec 7 → Nat := fun m => 2 ^ (m.toNat / 8)
  rampInc_pos : ∀ m, 0 < rampInc m := by intro m; exact Nat.two_pow_pos _
  rampInc_mono : ∀ m n : BitVec 7, m.toNat ≤ n.toNat → rampInc m ≤ rampInc n := by
    intro m n h; exact Nat.pow_le_pow_right (by decide) (Nat.div_le_div_right h)
  /-- "not linear": no straight line through the table (DEDUCED, assumption log 18). -/
  rampInc_not_linear : ¬∃ a b : Int, ∀ m : BitVec 7, (rampInc m : Int) = a * m.toNat + b := by
    rintro ⟨a, b, h⟩
    have h0 := h 0#7
    have h1 := h 1#7
    have h8 := h 8#7
    simp at h0 h1 h8
    omega
  /-- DESC_BONUS: positive. -/
  descBonus : Nat := 1
  descBonus_pos : 0 < descBonus := by decide
  /-- Rule R40: an increment is held in 32 bits, which requires this bound (DEDUCED, assumption
  log 11). -/
  inc_fits : rampInc 127#7 + descBonus < 2 ^ 32 := by decide
  /-- UNLOG: a signed 16-bit value (rule R164). -/
  unlog : LogSample → BitVec 16 := fun _ => 0#16
  unlog_neg : ∀ v, (unlog ⟨v, true⟩).toInt = -(unlog ⟨v, false⟩).toInt := by intro v; decide
  unlog_silence : unlog LogSample.silence = 0#16 := by decide
  /-- PCM_ROM_WORDS: 1..2^24. -/
  pcmRomWords : Nat := 1
  pcmRomWords_pos : 1 ≤ pcmRomWords := by decide
  pcmRomWords_le : pcmRomWords ≤ 2 ^ 24 := by decide
  /-- PCM_ROM: the 16-bit word at each word address. The spec defines it below PCM_ROM_WORDS only
  (rule R83), and no reachable read leaves that range (rule R168; DESIGN CHOICE, assumption log 7). -/
  pcmRom : Nat → BitVec 16 := fun _ => 0#16
  /-- PCM_TO_LOG. -/
  pcmToLog : BitVec 16 → LogSample := fun _ => LogSample.silence
  /-- PCM_FRAC_BITS, F: 1..31. -/
  pcmFracBits : Nat := 1
  pcmFracBits_pos : 1 ≤ pcmFracBits := by decide
  pcmFracBits_le : pcmFracBits ≤ 31 := by decide
  /-- PCM_STEP. -/
  pcmStep : BitVec 16 → Word := fun _ => 0#32
  /-- PCM_MIX (w0, w1, fraction, amp, interp); the fraction is the low F bits of the position, so it
  is below 2^F (DESIGN CHOICE, assumption log 13). -/
  pcmMix : LogSample → LogSample → Nat → BitVec 26 → Bool → LogSample × LogSample :=
    fun _ _ _ _ _ => (LogSample.silence, LogSample.silence)
  pcmMix_plain : ∀ w0 w1 f a, (pcmMix w0 w1 f a false).2 = LogSample.silence := by
    intro w0 w1 f a; rfl
  /-- The current segment that a SYNTH_STATE holds (rule R170). -/
  synthSegment : SynthState → Segment := fun _ => .rising
  /-- The position within the current segment that a SYNTH_STATE holds (rule R170). -/
  synthPosition : SynthState → Nat := fun _ => 0
  /-- SYNTH_INIT (saw, pw, res). -/
  synthInit : Bool → Byte → Byte → SynthState := fun _ _ _ => 0
  /-- SYNTH_STEP (state, amp, pitch, cutoff). -/
  synthStep : SynthState → BitVec 26 → BitVec 16 → BitVec 26 → SynthState × LogSample × LogSample :=
    fun st _ _ _ => (st, LogSample.silence, LogSample.silence)
  /-- How many segments a SYNTH_STEP (state, amp, pitch, cutoff) goes on by. The spec bounds it by
  nothing: a segment may be shorter than a sample (DEDUCED, assumption log 4). -/
  synthPassed : SynthState → BitVec 26 → BitVec 16 → BitVec 26 → Nat := fun _ _ _ _ => 0
  /-- The segments follow in their cyclic order (rule R170). -/
  synthStep_segment : ∀ st a pitch c, synthSegment (synthStep st a pitch c).1 =
    Segment.next^[synthPassed st a pitch c] (synthSegment st) := by intro st a pitch c; rfl
  /-- Within a segment the position does not go back (rule R170; DEDUCED, assumption log 4). -/
  synthStep_position : ∀ st a pitch c, synthPassed st a pitch c = 0 →
    synthPosition st ≤ synthPosition (synthStep st a pitch c).1 := by
      intro st a pitch c _; exact Nat.le_refl _
  /-- RING_SHIFT: 0..27. -/
  ringShift : Nat := 0
  ringShift_le : ringShift ≤ 27 := by decide
  /-- PAN_SHIFT: 0..23. -/
  panShift : Nat := 0
  panShift_le : panShift ≤ 23 := by decide
  /-- TARGET_FN (controller, phase, latched parameters, level byte, inputs, base cutoff). The base cutoff
  is passed to every call (rules R224, R225, R227). -/
  targetFn : Ctl → Phase → LatchedParams → Byte → Inputs → Byte → Byte := fun _ _ _ _ _ _ => 0#8
  /-- Only TVF reads the base cutoff (rules R224, R236, R271; DEDUCED, assumption log 19). -/
  targetFn_cutoff : ∀ c ph lp level i b b', c ≠ .tvf → targetFn c ph lp level i b = targetFn c ph lp level i b' := by
    intros; rfl
  /-- TIME_TO_INC (time, distance): a 7-bit magnitude. -/
  timeToInc : Byte → Byte → BitVec 7 := fun _ _ => 0#7
  /-- KEYFOLLOW_CORR (key-follow setting, key): an unsigned 8-bit time correction (DEDUCED,
  assumption log 12). -/
  keyfollowCorr : Byte → BitVec 7 → Byte := fun _ _ => 0#8
  /-- BASE_CUTOFF_FN (latched TVF parameters, inputs). -/
  baseCutoffFn : LatchedParams → Inputs → Byte := fun _ _ => 0#8
  /-- PITCH_MAP (pitch ramp value, latched TVP parameters, inputs). -/
  pitchMap : BitVec 26 → LatchedParams → Inputs → BitVec 16 := fun _ _ _ => 0#16
  /-- RELEASE_ZERO_CODE: not 0x00. -/
  releaseZeroCode : Byte := 1#8
  releaseZeroCode_ne : releaseZeroCode ≠ 0#8 := by decide
  /-- ABORT_CODE: descending, bit 7 = 1. -/
  abortCode : Byte := 0x80#8
  abortCode_desc : abortCode.msb = true := by decide
deriving Inhabited

/-- The parameters of the hardware itself: fixed before reset and never changed (rule R345), and
unknown. Nothing constrains them but the constraints of `Params` (rules R8, R13; assumption log 6). -/
opaque Config.hardware : Params

end Sys2Proof
end

