-- ==== Sys2Proof/Machine/State.lean ====
section
/-! DEFINITION. The state of the block (rules R30-R48) as plain data, and its value after reset
(rule R341). Registers that only show other state (RAMP_STAT, ENV_STAT, SLOT_STAT, ACTIVE_MASK, ID)
have no field of their own: Machine/Bus.lean builds them when they are read. -/

namespace Sys2Proof.Machine

/-- One value for each of the three controllers, or for each of the three ramps, of a slot. -/
structure Trio (α : Type) where
  tva : α
  tvp : α
  tvf : α
deriving DecidableEq, Repr

/-- RSTATE, where a ramp is in its life (rule R40): codes 0 IDLE, 1 MOVING, 2 COUNTING, 3 DONE. -/
inductive RampState where
  | idle
  | moving
  | counting
  | done
deriving DecidableEq, Repr

/-- A ramp (rules R40, R130). -/
structure Ramp where
  /-- CUR, 0..0x3FC0000. -/
  cur    : BitVec 26
  /-- TGT, the target byte. -/
  tgt    : Byte
  /-- INC, the increment per sample. -/
  inc    : Word
  /-- DESC, descending. -/
  desc   : Bool
  /-- CNT, the interrupt countdown. -/
  cnt    : Byte
  /-- IRQ, the deferred "target reached" flag. -/
  irq    : Bool
  /-- RSTATE. -/
  rstate : RampState
deriving DecidableEq, Repr

/-- ROLE (rule R42): codes 0 INDEPENDENT, 1 RING_MASTER, 2 RING_SLAVE; 3 is never written. -/
inductive Role where
  | independent
  | ringMaster
  | ringSlave
deriving DecidableEq, Repr

/-- MIXTYPE (rule R35): 0 independent mix, 1 ring-modulate-and-mix, 2 ring-modulate-only,
3 split stereo. -/
inductive MixType where
  | independent
  | ringAndMix
  | ringOnly
  | splitStereo
deriving DecidableEq, Repr

/-- The eight parameter registers of one controller (rule R39). -/
structure EnvRegs where
  /-- ENV_T: T0..T3. -/
  t  : Word
  /-- ENV_T4: T4, TKF. -/
  t4 : Word
  /-- ENV_L: L0..L3. -/
  l  : Word
  /-- ENV_X0. -/
  x0 : Word
  /-- ENV_X1. -/
  x1 : Word
  /-- ENV_X2. -/
  x2 : Word
  /-- ENV_X3. -/
  x3 : Word
  /-- ENV_X4. -/
  x4 : Word
deriving DecidableEq, Repr

/-- The host-written parameter registers of a slot (rules R33-R39), each a whole register. -/
structure SlotRegs where
  wgCfg   : Word
  pcmBase : Word
  pcmLen  : Word
  pairCfg : Word
  pan     : Word
  note    : Word
  ctrlIn  : Word
  bendIn  : Word
  env     : Trio EnvRegs
deriving DecidableEq, Repr

/-- A wave generator: WG_ACTIVE and L_MODE (rule R42), the output latches (rule R43) and the hidden
wave latches (rule R44). -/
structure Wave where
  /-- WG_ACTIVE. -/
  active   : Bool
  /-- L_MODE: `true` = PCM. -/
  pcm      : Bool
  /-- L_SAW. -/
  saw      : Bool
  /-- L_LOOP. -/
  loop     : Bool
  /-- L_INTERP. -/
  interp   : Bool
  /-- L_PW. -/
  pw       : Byte
  /-- L_RES. -/
  res      : Byte
  /-- L_BASE. -/
  base     : BitVec 24
  /-- L_LEN. -/
  len      : BitVec 24
  /-- WG_POS. -/
  pos      : Word
  /-- SYNTH. -/
  synth    : SynthState
  /-- WG_OUT1. -/
  out1     : LogSample
  /-- WG_OUT2. -/
  out2     : LogSample
  /-- PITCH_OUT. -/
  pitchOut : BitVec 16
deriving DecidableEq, Repr

/-- A synthesis slot (rule R2). -/
structure Slot where
  /-- The parameter registers. -/
  regs       : SlotRegs
  /-- The amplitude (TVA), pitch (TVP) and cutoff (TVF) ramps. -/
  ramp       : Trio Ramp
  /-- TVA_PH, TVP_PH, TVF_PH (rule R41). -/
  phase      : Trio Phase
  /-- LP[0..2] (rule R44). -/
  lp         : Trio LatchedParams
  /-- BASE_CUTOFF (rule R41). -/
  baseCutoff : Byte
  /-- The wave generator. -/
  wave       : Wave
  /-- ACTIVE (rule R42). -/
  active     : Bool
  /-- ROLE (rule R42). -/
  role       : Role
  /-- L_MIX (rule R42). -/
  mix        : MixType
  /-- PAIR_OUT, signed 16-bit (rule R43). -/
  pairOut    : BitVec 16
deriving DecidableEq, Repr

/-- One access of the host to the register space (rules R5, R80): a read or a write of a whole
32-bit register. -/
inductive HostAccess where
  | read (addr : HostAddr)
  | write (addr : HostAddr) (data : Word)
deriving DecidableEq, Repr

/-- The state of the block, and of its host bus. -/
structure State where
  /-- The 32 slots. -/
  slots     : Vector Slot 32
  /-- RESULT (rule R45). -/
  result    : Word
  /-- ERR bit 0 (rule R46). -/
  err       : Bool
  /-- ERR.CODE (rule R46). -/
  errCode   : Byte
  /-- IRQ_PEND (rule R47). -/
  irqPend   : Word
  /-- IRQ_EN (rule R47). -/
  irqEn     : Word
  /-- OUT_L, signed (rule R48). -/
  outL      : Word
  /-- OUT_R, signed (rule R48). -/
  outR      : Word
  /-- SAMPLE_CNT (rule R48). -/
  sampleCnt : Word
  /-- The host's accesses that the block has not yet performed, oldest first (rule R89; the model's
  own field, DESIGN CHOICE, assumption log 1). -/
  host      : List HostAccess
  /-- The data of the host's last read (the model's own field, DESIGN CHOICE, assumption log 2). -/
  readData  : Word
deriving DecidableEq, Repr

/-- Why a step can stop with a fault: never. "No command can hang, fault the block or leave it in an
undefined state" (rule R13; also rule R310), so the type has no constructor. -/
inductive Fault where
deriving DecidableEq, Repr

/-- Why a step can be refused. -/
inductive Refusal where
  /-- The instruction of this mnemonic has no meaning in the model. Raised by `exec` alone, in an
  arm that is not modelled; every arm is, so nothing raises it. Safe. -/
  | notModelled (mnemonic : String)
deriving DecidableEq, Repr

/-- The parameter registers of a controller after reset (rules R39, R341). -/
def EnvRegs.reset : EnvRegs :=
  { t := 0, t4 := 0, l := 0, x0 := 0, x1 := 0, x2 := 0, x3 := 0, x4 := 0 }

/-- A ramp after reset (rules R40, R341). -/
def Ramp.reset : Ramp :=
  { cur := 0, tgt := 0, inc := 0, desc := false, cnt := 0, irq := false, rstate := .idle }

/-- A controller's latched parameters after reset (rules R44, R341). -/
def LatchedParams.reset : LatchedParams :=
  { lt0 := 0, lt1 := 0, lt2 := 0, lt3 := 0, lt4 := 0, ltkf := 0
    ll0 := 0, ll1 := 0, ll2 := 0, ll3 := 0
    lx0 := 0, lx1 := 0, lx2 := 0, lx3 := 0, lx4 := 0 }

/-- The parameter registers of a slot after reset (rule R341). -/
def SlotRegs.reset : SlotRegs :=
  { wgCfg := 0, pcmBase := 0, pcmLen := 0, pairCfg := 0, pan := 0, note := 0, ctrlIn := 0, bendIn := 0
    env := ⟨EnvRegs.reset, EnvRegs.reset, EnvRegs.reset⟩ }

/-- A wave generator after reset: every latch 0, the output latches the LogSample (0, positive), and
SYNTH = SYNTH_INIT(0, 0, 0) (rules R43, R44, R341). -/
def Wave.reset (p : Params) : Wave :=
  { active := false, pcm := false, saw := false, loop := false, interp := false
    pw := 0, res := 0, base := 0, len := 0, pos := 0
    synth := p.synthInit false 0 0
    out1 := ⟨0, false⟩, out2 := ⟨0, false⟩, pitchOut := 0 }

/-- A slot after reset (rule R341). -/
def Slot.reset (p : Params) : Slot :=
  { regs := SlotRegs.reset
    ramp := ⟨Ramp.reset, Ramp.reset, Ramp.reset⟩
    phase := ⟨.p0, .p0, .p0⟩
    lp := ⟨LatchedParams.reset, LatchedParams.reset, LatchedParams.reset⟩
    baseCutoff := 0
    wave := Wave.reset p
    active := false, role := .independent, mix := .independent, pairOut := 0 }

/-- The block after reset under the parameters `p`: every register at the value of rule R341, and no
host access waiting (the model's own fields: DESIGN CHOICE, assumption log 8). -/
def State.resetWith (p : Params) : State :=
  { slots := Vector.replicate 32 (Slot.reset p)
    result := 0, err := false, errCode := 0, irqPend := 0, irqEn := 0
    outL := 0, outR := 0, sampleCnt := 0, host := [], readData := 0 }

/-- The block right after reset (rules R340, R341). -/
def State.reset : State := State.resetWith Config.hardware

end Sys2Proof.Machine
end

