-- ==== Sys2Proof/Machine/Operands.lean ====
section
/-! DEFINITION. Operand forms and arithmetic primitives: the signed helpers of rule R9, the UNIT
operand, the fields of the parameter registers (rules R33-R39) and what a slot's number says about
its pair (rules R2, R271). -/

namespace Sys2Proof.Machine

/-! ### Arithmetic of rule R9 -/

/-- `wrap16`: the signed 16-bit value congruent to `x` modulo 2^16. -/
def wrap16 (x : Int) : BitVec 16 := BitVec.ofInt 16 x

/-- `t14`: the low 14 bits of a 16-bit value as a signed 14-bit number. -/
def t14 (x : BitVec 16) : Int := (x.extractLsb' 0 14).toInt

/-- `asr(x, n)` = floor(x / 2^n). -/
def asr (x : Int) (n : Nat) : Int := x / (2 ^ n : Nat)

/-! ### Controllers and the UNIT operand -/

/-- The member of a trio that belongs to controller (or ramp) `c`. -/
def Trio.get {α : Type} (x : Trio α) : Ctl → α
  | .tva => x.tva
  | .tvp => x.tvp
  | .tvf => x.tvf

/-- The trio with the member of `c` replaced. -/
def Trio.set {α : Type} (x : Trio α) (c : Ctl) (v : α) : Trio α :=
  match c with
  | .tva => { x with tva := v }
  | .tvp => { x with tvp := v }
  | .tvf => { x with tvf := v }

/-- The ramp or controller that a UNIT field names (rule R101); `none` for the illegal unit 3. -/
def ctlOfUnit (unit : BitVec 2) : Option Ctl :=
  match unit.toNat with
  | 0 => some .tva
  | 1 => some .tvp
  | 2 => some .tvf
  | _ => none

/-! ### Slot numbers -/

/-- Slot s is the even slot of its pair. -/
def slotEven (s : SlotIx) : Bool := s.getLsbD 0 == false

/-- The even slot of the pair of s: `s AND 0x1E` (rule R271). -/
def evenSlot (s : SlotIx) : SlotIx := s &&& 0x1E#5

/-! ### Fields of the parameter registers -/

/-- WG_CFG.MODE: `true` = PCM (rule R33). -/
def cfgMode (r : SlotRegs) : Bool := r.wgCfg.getLsbD 0
/-- WG_CFG.SAW. -/
def cfgSaw (r : SlotRegs) : Bool := r.wgCfg.getLsbD 1
/-- WG_CFG.LOOP. -/
def cfgLoop (r : SlotRegs) : Bool := r.wgCfg.getLsbD 2
/-- WG_CFG.INTERP. -/
def cfgInterp (r : SlotRegs) : Bool := r.wgCfg.getLsbD 3
/-- WG_CFG.PW. -/
def cfgPw (r : SlotRegs) : Byte := r.wgCfg.extractLsb' 8 8
/-- WG_CFG.RES. -/
def cfgRes (r : SlotRegs) : Byte := r.wgCfg.extractLsb' 16 8
/-- PCM_BASE.BASE (rule R34). -/
def pcmBaseField (r : SlotRegs) : BitVec 24 := r.pcmBase.extractLsb' 0 24
/-- PCM_LEN.LEN (rule R34). -/
def pcmLenField (r : SlotRegs) : BitVec 24 := r.pcmLen.extractLsb' 0 24

/-- The MIXTYPE of a 2-bit code (rule R35). -/
def mixOfCode (c : BitVec 2) : MixType :=
  match c.toNat with
  | 0 => .independent
  | 1 => .ringAndMix
  | 2 => .ringOnly
  | _ => .splitStereo

/-- PAIR_CFG.MIXTYPE (rule R35). -/
def mixTypeField (r : SlotRegs) : MixType := mixOfCode (r.pairCfg.extractLsb' 0 2)

/-- PAN.PAN_L, unsigned (rule R36). -/
def panL (r : SlotRegs) : Byte := r.pan.extractLsb' 0 8
/-- PAN.PAN_R, unsigned (rule R36). -/
def panR (r : SlotRegs) : Byte := r.pan.extractLsb' 8 8

/-- NOTE.SUSTAIN_OK (rule R37). -/
def sustainOk (r : SlotRegs) : Bool := r.note.getLsbD 16

/-- The slot's live inputs as the OPEN functions see them (rules R37, R38). -/
def inputs (r : SlotRegs) : Inputs :=
  { key := r.note.extractLsb' 0 7
    vel := r.note.extractLsb' 8 7
    volume := r.ctrlIn.extractLsb' 0 7
    expression := r.ctrlIn.extractLsb' 8 7
    modulation := r.ctrlIn.extractLsb' 16 7
    bend := r.bendIn.extractLsb' 0 14 }

/-- The latched copy of a controller's parameter registers (rules R39, R44). -/
def latch (e : EnvRegs) : LatchedParams :=
  { lt0 := e.t.extractLsb' 0 8, lt1 := e.t.extractLsb' 8 8
    lt2 := e.t.extractLsb' 16 8, lt3 := e.t.extractLsb' 24 8
    lt4 := e.t4.extractLsb' 0 8, ltkf := e.t4.extractLsb' 8 8
    ll0 := e.l.extractLsb' 0 8, ll1 := e.l.extractLsb' 8 8
    ll2 := e.l.extractLsb' 16 8, ll3 := e.l.extractLsb' 24 8
    lx0 := e.x0, lx1 := e.x1, lx2 := e.x2, lx3 := e.x3, lx4 := e.x4 }

/-! ### Times and levels of the timed phases -/

/-- LTk, k = 0..3 (rule R44). -/
def timeOf (lp : LatchedParams) (k : Fin 4) : Byte :=
  match k.val with
  | 0 => lp.lt0
  | 1 => lp.lt1
  | 2 => lp.lt2
  | _ => lp.lt3

/-- LLk, k = 0..3 (rule R44). -/
def levelOf (lp : LatchedParams) (k : Fin 4) : Byte :=
  match k.val with
  | 0 => lp.ll0
  | 1 => lp.ll1
  | 2 => lp.ll2
  | _ => lp.ll3

end Sys2Proof.Machine
end

