-- ==== Sys2Proof/Machine/Flags.lean ====
section
/-! DEFINITION. Flags and status words: the codes of RSTATE, ROLE, MIXTYPE and the phases, the
read-only status registers built from them (rules R40-R43, R46), the view ACTIVE_MASK (rule R48) and
the host interrupt line (rules R47, R316). -/

namespace Sys2Proof.Machine

/-- The code of a ramp's RSTATE (rule R40). -/
def rstateCode : RampState → BitVec 2
  | .idle => 0#2
  | .moving => 1#2
  | .counting => 2#2
  | .done => 3#2

/-- The code of a phase (rule R220). -/
def phaseCode : Phase → BitVec 3
  | .p0 => 0#3
  | .p1 => 1#3
  | .p2 => 2#3
  | .p3 => 3#3
  | .p4 => 4#3
  | .release => 5#3
  | .dead => 6#3

/-- The code of a ROLE (rule R42). -/
def roleCode : Role → BitVec 2
  | .independent => 0#2
  | .ringMaster => 1#2
  | .ringSlave => 2#2

/-- The code of a MIXTYPE (rule R35). -/
def mixCode : MixType → BitVec 2
  | .independent => 0#2
  | .ringAndMix => 1#2
  | .ringOnly => 2#2
  | .splitStereo => 3#2

/-- RAMP_STAT (rule R40): RSTATE in bits 1:0, DESC bit 2, IRQ bit 3, CNT in bits 15:8. -/
def rampStat (r : Ramp) : Word :=
  0#16 ++ r.cnt ++ 0#4 ++ BitVec.ofBool r.irq ++ BitVec.ofBool r.desc ++ rstateCode r.rstate

/-- ENV_STAT (rule R41): TVA_PH in bits 2:0, TVP_PH in 6:4, TVF_PH in 10:8, BASE_CUTOFF in 23:16. -/
def envStat (x : Slot) : Word :=
  0#8 ++ x.baseCutoff ++ 0#5 ++ phaseCode x.phase.tvf ++ 0#1 ++ phaseCode x.phase.tvp ++ 0#1 ++
    phaseCode x.phase.tva

/-- SLOT_STAT (rule R42): ACTIVE bit 0, WG_ACTIVE bit 1, L_MODE bit 2, ROLE in 5:4, L_MIX in 7:6. -/
def slotStat (x : Slot) : Word :=
  0#24 ++ mixCode x.mix ++ roleCode x.role ++ 0#1 ++ BitVec.ofBool x.wave.pcm ++
    BitVec.ofBool x.wave.active ++ BitVec.ofBool x.active

/-- The register encoding of a LogSample, {sign, logValue} in bits 16:0 (rules R11, R43). -/
def logSampleWord (v : LogSample) : Word := 0#15 ++ BitVec.ofBool v.sign ++ v.logValue

/-- ERR (rule R46): ERR bit 0, CODE in bits 15:8. -/
def errWord (s : State) : Word := 0#16 ++ s.errCode ++ 0#7 ++ BitVec.ofBool s.err

/-- ACTIVE_MASK: bit s is the ACTIVE of slot s (rule R48). -/
def activeMask (s : State) : Word :=
  s.slots.toList.foldr (fun x m => (m <<< 1) ||| (if x.active then 1#32 else 0#32)) 0#32

/-- The host interrupt line: 1 exactly when (IRQ_PEND AND IRQ_EN) is not 0 (rules R47, R316). -/
def irqLine (s : State) : Bool := s.irqPend &&& s.irqEn != 0#32

/-- IRQ_PEND with bit s set (rule R280). -/
def setPending (pend : Word) (i : SlotIx) : Word := pend ||| (1#32 <<< i.toNat)

/-- A write-1-to-clear: every bit written as 1 is cleared, the others stay (rule R47). -/
def clearWritten (old written : Word) : Word := old &&& ~~~written

end Sys2Proof.Machine
end

