-- ==== Sys2Proof/Machine/Ops.lean ====
section
/-! DEFINITION. The operations the commands share: reading and writing a slot, the member of a trio,
and recording an error. Recording an error is this block's only exceptional outcome (rules R10,
R310): there is no trap entry, no saved state and no return. -/

namespace Sys2Proof.Machine

/-! ### Slots -/

/-- Slot i. -/
def State.slot (s : State) (i : SlotIx) : Slot := s.slots[i.toNat]'i.isLt

/-- The state with slot i replaced. -/
def State.setSlot (s : State) (i : SlotIx) (x : Slot) : State :=
  { s with slots := s.slots.set i.toNat x i.isLt }

/-- The state with slot i changed by f. -/
def State.modSlot (s : State) (i : SlotIx) (f : Slot → Slot) : State := s.setSlot i (f (s.slot i))

/-- The slot with the ramp of controller c changed by f. -/
def Slot.modRamp (x : Slot) (c : Ctl) (f : Ramp → Ramp) : Slot :=
  { x with ramp := x.ramp.set c (f (x.ramp.get c)) }

/-- The slot with the phase of controller c replaced. -/
def Slot.setPhase (x : Slot) (c : Ctl) (ph : Phase) : Slot := { x with phase := x.phase.set c ph }

/-! ### Recording an error (rule R312) -/

/-- `Record(code)`: ERR.CODE keeps the first code since ERR was last 0; ERR is set. -/
def State.record (s : State) (e : ErrCode) : State :=
  { s with err := true, errCode := if s.err then s.errCode else e.toByte }

/-- `LogError(code)`: the command ends here with no other effect. -/
def State.logError (s : State) (e : ErrCode) : State := s.record e

/-- `LogWarn(code)`: the command goes on from the recorded state. -/
def State.logWarn (s : State) (e : ErrCode) : State := s.record e

/-- A command that reads UNIT: its effect on the ramp or controller that UNIT names, or
LogError(0x03) for UNIT = 3 (rule R105). The decoder has already refused UNIT = 3; `exec` of such a
term does the same (DESIGN CHOICE, assumption log 10). -/
def withUnit (unit : BitVec 2) (s : State) (effect : Ctl → State) : State :=
  match ctlOfUnit unit with
  | some c => effect c
  | none => s.logError .illegalUnit

end Sys2Proof.Machine
end

