-- ==== Sys2Proof/Machine/Bus.lean ====
section
/-! DEFINITION. The host register space (rules R31-R50, R53): which register an address names, what
reading it returns, and what writing it does. Writing CMD executes a command; that is in Step.lean. -/

namespace Sys2Proof.Machine

/-- A parameter register of a slot, RW (rule R32). -/
inductive ParamReg where
  | wgCfg
  | pcmBase
  | pcmLen
  | pairCfg
  | pan
  | note
  | ctrlIn
  | bendIn
  /-- Register j of the group of controller c (rule R39). -/
  | env (c : Ctl) (j : Fin 8)
deriving DecidableEq, Repr

/-- A state register of a slot, RO (rule R32). -/
inductive StateReg where
  | pairOut
  | wgOut1
  | wgOut2
  | pitchOut
  | rampCur (c : Ctl)
  | rampTgt (c : Ctl)
  | rampInc (c : Ctl)
  | rampStat (c : Ctl)
  | envStat
  | slotStat
  | wgPos
deriving DecidableEq, Repr

/-- A global register (rule R45). -/
inductive GlobalReg where
  | cmd
  | result
  | err
  | irqPend
  | irqEn
  | outL
  | outR
  | sampleCnt
  | activeMask
  | id
deriving DecidableEq, Repr

/-- What an address of the host register space names (rule R31). -/
inductive RegName where
  | param (slot : SlotIx) (r : ParamReg)
  | state (slot : SlotIx) (r : StateReg)
  | global (r : GlobalReg)
  | reserved
deriving DecidableEq, Repr

/-- The register of a controller's group at offset o = 8c + j (rule R39). -/
def envReg (o : Nat) : ParamReg :=
  let j : Fin 8 := ⟨o % 8, Nat.mod_lt o (by decide)⟩
  match o / 8 with
  | 0 => .env .tva j
  | 1 => .env .tvp j
  | _ => .env .tvf j

/-- The register of a ramp at offset o = 4r + j (rule R40). -/
def rampReg (o : Nat) : StateReg :=
  let c : Ctl := match o / 4 with
    | 0 => .tva
    | 1 => .tvp
    | _ => .tvf
  match o % 4 with
  | 0 => .rampCur c
  | 1 => .rampTgt c
  | 2 => .rampInc c
  | _ => .rampStat c

/-- Register index i of slot block s (rule R32). -/
def slotReg (s : SlotIx) (i : Nat) : RegName :=
  match i with
  | 0x00 => .param s .wgCfg
  | 0x01 => .param s .pcmBase
  | 0x02 => .param s .pcmLen
  | 0x03 => .param s .pairCfg
  | 0x04 => .param s .pan
  | 0x05 => .param s .note
  | 0x06 => .param s .ctrlIn
  | 0x07 => .param s .bendIn
  | 0x2C => .state s .pairOut
  | 0x2D => .state s .wgOut1
  | 0x2E => .state s .wgOut2
  | 0x2F => .state s .pitchOut
  | 0x3C => .state s .envStat
  | 0x3D => .state s .slotStat
  | 0x3E => .state s .wgPos
  | i =>
    if 0x10 ≤ i ∧ i < 0x28 then .param s (envReg (i - 0x10))
    else if 0x30 ≤ i ∧ i < 0x3C then .state s (rampReg (i - 0x30))
    else .reserved

/-- Register index i of the global block (rule R45). -/
def globalReg (i : Nat) : RegName :=
  match i with
  | 0x00 => .global .cmd
  | 0x01 => .global .result
  | 0x02 => .global .err
  | 0x03 => .global .irqPend
  | 0x04 => .global .irqEn
  | 0x05 => .global .outL
  | 0x06 => .global .outR
  | 0x07 => .global .sampleCnt
  | 0x08 => .global .activeMask
  | 0x09 => .global .id
  | _ => .reserved

/-- The register an address names: block a[11:6], index a[5:0] (rule R31). -/
def regName (a : HostAddr) : RegName :=
  let block := a.toNat / 64
  let index := a.toNat % 64
  if block < 32 then slotReg (BitVec.ofNat 5 block) index
  else if block = 32 then globalReg index
  else .reserved

/-! ### Reading -/

/-- A register of a controller's group. -/
def readEnv (e : EnvRegs) (j : Fin 8) : Word :=
  match j.val with
  | 0 => e.t
  | 1 => e.t4
  | 2 => e.l
  | 3 => e.x0
  | 4 => e.x1
  | 5 => e.x2
  | 6 => e.x3
  | _ => e.x4

/-- A parameter register. -/
def readParam (r : SlotRegs) : ParamReg → Word
  | .wgCfg => r.wgCfg
  | .pcmBase => r.pcmBase
  | .pcmLen => r.pcmLen
  | .pairCfg => r.pairCfg
  | .pan => r.pan
  | .note => r.note
  | .ctrlIn => r.ctrlIn
  | .bendIn => r.bendIn
  | .env c j => readEnv (r.env.get c) j

/-- A state register (rules R40-R43). -/
def readState (x : Slot) : StateReg → Word
  | .pairOut => x.pairOut.signExtend 32
  | .wgOut1 => logSampleWord x.wave.out1
  | .wgOut2 => logSampleWord x.wave.out2
  | .pitchOut => x.wave.pitchOut.zeroExtend 32
  | .rampCur c => (x.ramp.get c).cur.zeroExtend 32
  | .rampTgt c => (x.ramp.get c).tgt.zeroExtend 32
  | .rampInc c => (x.ramp.get c).inc
  | .rampStat c => rampStat (x.ramp.get c)
  | .envStat => envStat x
  | .slotStat => slotStat x
  | .wgPos => x.wave.pos

/-- ID, the constant 0x4C413332 (rules R1, R48). -/
def idWord : Word := 0x4C413332#32

/-- A global register; CMD reads 0 (rule R45). -/
def readGlobal (s : State) : GlobalReg → Word
  | .cmd => 0#32
  | .result => s.result
  | .err => errWord s
  | .irqPend => s.irqPend
  | .irqEn => s.irqEn
  | .outL => s.outL
  | .outR => s.outR
  | .sampleCnt => s.sampleCnt
  | .activeMask => activeMask s
  | .id => idWord

/-- `Reg(a)`: what a host read of address a returns; a reserved address reads 0 (rules R50, R53). -/
def readReg (s : State) (a : HostAddr) : Word :=
  match regName a with
  | .param i r => readParam (s.slot i).regs r
  | .state i r => readState (s.slot i) r
  | .global r => readGlobal s r
  | .reserved => 0#32

/-! ### Writing -/

/-- The bits of a parameter register that are not reserved (rules R33-R39). -/
def paramMask : ParamReg → Word
  | .wgCfg => 0x00FFFF0F#32
  | .pcmBase => 0x00FFFFFF#32
  | .pcmLen => 0x00FFFFFF#32
  | .pairCfg => 0x00000003#32
  | .pan => 0x0000FFFF#32
  | .note => 0x00017F7F#32
  | .ctrlIn => 0x007F7F7F#32
  | .bendIn => 0x00003FFF#32
  | .env _ j => if j.val = 1 then 0x0000FFFF#32 else 0xFFFFFFFF#32

/-- A controller's group with register j replaced. -/
def writeEnv (e : EnvRegs) (j : Fin 8) (v : Word) : EnvRegs :=
  match j.val with
  | 0 => { e with t := v }
  | 1 => { e with t4 := v }
  | 2 => { e with l := v }
  | 3 => { e with x0 := v }
  | 4 => { e with x1 := v }
  | 5 => { e with x2 := v }
  | 6 => { e with x3 := v }
  | _ => { e with x4 := v }

/-- A slot's parameter registers with one of them replaced. -/
def putParam (r : SlotRegs) (n : ParamReg) (v : Word) : SlotRegs :=
  match n with
  | .wgCfg => { r with wgCfg := v }
  | .pcmBase => { r with pcmBase := v }
  | .pcmLen => { r with pcmLen := v }
  | .pairCfg => { r with pairCfg := v }
  | .pan => { r with pan := v }
  | .note => { r with note := v }
  | .ctrlIn => { r with ctrlIn := v }
  | .bendIn => { r with bendIn := v }
  | .env c j => { r with env := r.env.set c (writeEnv (r.env.get c) j v) }

/-- A host write of an RW register stores the value with its reserved bits 0 (rule R50). -/
def writeParam (r : SlotRegs) (n : ParamReg) (v : Word) : SlotRegs := putParam r n (v &&& paramMask n)

/-- A host write of a global register other than CMD: ERR and IRQ_PEND are write-1-to-clear, IRQ_EN
is replaced, the others are read-only (rules R45-R47, R50). -/
def writeGlobal (s : State) (r : GlobalReg) (v : Word) : State :=
  match r with
  | .cmd => s
  | .err => if v.getLsbD 0 then { s with err := false, errCode := 0#8 } else s
  | .irqPend => { s with irqPend := clearWritten s.irqPend v }
  | .irqEn => { s with irqEn := v }
  | .result => s.logError .badRegisterWrite
  | .outL => s.logError .badRegisterWrite
  | .outR => s.logError .badRegisterWrite
  | .sampleCnt => s.logError .badRegisterWrite
  | .activeMask => s.logError .badRegisterWrite
  | .id => s.logError .badRegisterWrite

/-- `Reg(a) <- v` for a register other than CMD (rules R50, R53, R86). -/
def writeReg (s : State) (a : HostAddr) (v : Word) : State :=
  match regName a with
  | .param i r => s.modSlot i fun x => { x with regs := writeParam x.regs r v }
  | .state _ _ => s.logError .badRegisterWrite
  | .global r => writeGlobal s r v
  | .reserved => s.logError .badRegisterWrite

end Sys2Proof.Machine
end

