-- ==== Sys2Proof/Machine/Ramp.lean ====
section
/-! DEFINITION. The Ramp Generator (spec/40_ramp.md): the increment code, starting a ramp, the ramp
step with its deferred interrupt, and the commands RSTART, RNEXT, RCHKI and RRESET. -/

namespace Sys2Proof.Machine

/-- The ramp scale, 0x40000 = 2^18 per target unit (rule R6). -/
def rampScale : Nat := 2 ^ 18

/-- MAX_CURRENT = 0xFF << 18 (rule R6). -/
def maxCurrent : Nat := 0xFF * rampScale

/-- INTERRUPT_DELAY, in samples (rule R6). -/
def interruptDelay : Byte := 7#8

/-- The large target TGT << 18 (rule R130). -/
def largeTarget (tgt : Byte) : Nat := tgt.toNat * rampScale

/-- The increment of a code (rule R131): 0 for the freeze code 0x00, else RAMP_INC of the magnitude
plus the bonus of a descending code. -/
def codeInc (p : Params) (code : Byte) : Nat :=
  if code = 0#8 then 0
  else p.rampInc (code.extractLsb' 0 7) + (if code.msb then p.descBonus else 0)

/-- The sign of a code: bit 7, descending (rule R131; 0x00 is not descending). -/
def codeDesc (code : Byte) : Bool := code.msb

/-- Starting a ramp toward a target with an increment code; the current value stays (rules R133,
R223). -/
def startRamp (p : Params) (r : Ramp) (tgt code : Byte) : Ramp :=
  { cur := r.cur
    tgt := tgt
    inc := BitVec.ofNat 32 (codeInc p code)
    desc := codeDesc code
    cnt := 0#8
    irq := false
    rstate := if code = 0#8 then .idle else .moving }

/-- The step that reaches the target: the value is exactly TGT << 18 and the countdown starts (rules
R135, R136). -/
def reachTarget (r : Ramp) : Ramp :=
  { r with cur := BitVec.ofNat 26 (largeTarget r.tgt), rstate := .counting, cnt := interruptDelay }

/-- A step of a moving ramp (rule R135). The test `MAX_CURRENT - CUR < INC` on integers is written
as `MAX_CURRENT < CUR + INC`. -/
def moveRamp (r : Ramp) : Ramp :=
  let cur := r.cur.toNat
  let inc := r.inc.toNat
  let target := largeTarget r.tgt
  if r.desc then
    if inc > cur ∨ cur - inc ≤ target then reachTarget r
    else { r with cur := BitVec.ofNat 26 (cur - inc) }
  else
    if maxCurrent < cur + inc ∨ cur + inc ≥ target then reachTarget r
    else { r with cur := BitVec.ofNat 26 (cur + inc) }

/-- A step of the interrupt countdown (rules R135, R137). -/
def countRamp (r : Ramp) : Ramp :=
  if r.cnt - 1#8 = 0#8 then { r with cnt := 0#8, irq := true, rstate := .done }
  else { r with cnt := r.cnt - 1#8 }

/-- The ramp step, once per sample (rule R135). -/
def rampStep (r : Ramp) : Ramp :=
  match r.rstate with
  | .idle => r
  | .done => r
  | .counting => countRamp r
  | .moving => moveRamp r

/-- Clearing the deferred flag (rules R140, R232). -/
def clearIrq (r : Ramp) : Ramp := { r with irq := false }

/-- A ramp after RRESET (rule R141). -/
def resetRamp : Ramp :=
  { cur := 0#26, tgt := 0#8, inc := 0#32, desc := false, cnt := 0#8, irq := false, rstate := .idle }

/-- RSTART on ramp c of slot i. -/
def doRstart (p : Params) (i : SlotIx) (c : Ctl) (tgt code : Byte) (s : State) : State :=
  s.modSlot i fun x => x.modRamp c fun r => startRamp p r tgt code

/-- RNEXT on ramp c of slot i: one step, and its value in RESULT (rule R134). -/
def doRnext (i : SlotIx) (c : Ctl) (s : State) : State :=
  let r := rampStep ((s.slot i).ramp.get c)
  { s.modSlot i (fun x => x.modRamp c fun _ => r) with result := r.cur.zeroExtend 32 }

/-- RCHKI on ramp c of slot i: the flag in RESULT, and cleared (rule R140). -/
def doRchki (i : SlotIx) (c : Ctl) (s : State) : State :=
  { s.modSlot i (fun x => x.modRamp c clearIrq) with
    result := (BitVec.ofBool ((s.slot i).ramp.get c).irq).zeroExtend 32 }

/-- RRESET on ramp c of slot i (rule R141). -/
def doRreset (i : SlotIx) (c : Ctl) (s : State) : State :=
  s.modSlot i fun x => x.modRamp c fun _ => resetRamp

/-- RSTART (rule R133). -/
def execRstart (slot : SlotIx) (unit : BitVec 2) (target code : Byte) (s : State) :
    Host.Outcome State Fault Refusal :=
  .next (withUnit unit s fun c => doRstart Config.hardware slot c target code s)

/-- RNEXT (rule R134). -/
def execRnext (slot : SlotIx) (unit : BitVec 2) (s : State) : Host.Outcome State Fault Refusal :=
  .next (withUnit unit s fun c => doRnext slot c s)

/-- RCHKI (rule R140). -/
def execRchki (slot : SlotIx) (unit : BitVec 2) (s : State) : Host.Outcome State Fault Refusal :=
  .next (withUnit unit s fun c => doRchki slot c s)

/-- RRESET (rule R141). -/
def execRreset (slot : SlotIx) (unit : BitVec 2) (s : State) : Host.Outcome State Fault Refusal :=
  .next (withUnit unit s fun c => doRreset slot c s)

end Sys2Proof.Machine
end

