-- ==== Sys2Proof/Machine/Envelope.lean ====
section
/-! DEFINITION. The envelope controllers TVA, TVP and TVF (spec/43_envelope.md): building a ramp code,
entering a phase, interrupt handling, the envelope step, and the commands ESTART, EDECAY, EABORT and
EINTR. Everything here acts on one slot. -/

namespace Sys2Proof.Machine

/-! ### Times, codes and ramps -/

/-- `Time(c, k)`: the latched time less the key-follow correction, floored at 0 (rule R221). -/
def phaseTime (p : Params) (x : Slot) (c : Ctl) (k : Fin 4) : Byte :=
  let lp := x.lp.get c
  BitVec.ofNat 8 ((timeOf lp k).toNat - (p.keyfollowCorr lp.ltkf (inputs x.regs).key).toNat)

/-- The distance of MakeCode: |tgt - (CUR >> 18)| (rule R222). -/
def targetDist (r : Ramp) (tgt : Byte) : Byte :=
  BitVec.ofNat 8 ((tgt.toNat : Int) - (r.cur.toNat / rampScale : Nat)).natAbs

/-- `MakeCode(s, c, tgt, t)`: descending exactly when the large target is below the value (rule
R222). -/
def makeCode (p : Params) (x : Slot) (c : Ctl) (tgt time : Byte) : Byte :=
  let r := x.ramp.get c
  BitVec.ofBool (decide (largeTarget tgt < r.cur.toNat)) ++ p.timeToInc time (targetDist r tgt)

/-- `StartRamp(s, c, tgt, code)` (rule R223). -/
def startCtlRamp (p : Params) (x : Slot) (c : Ctl) (tgt code : Byte) : Slot :=
  x.modRamp c fun r => startRamp p r tgt code

/-! ### Entering a phase -/

/-- The entry of a timed phase that uses time and level index j: the target from the live inputs,
the phase, and the ramp toward the target (rules R224, R225). BASE_CUTOFF goes to every controller's
call; only TVF's target depends on it (`Params.targetFn_cutoff`). -/
def enterTimed (p : Params) (x : Slot) (c : Ctl) (ph : Phase) (j : Fin 4) : Slot :=
  let lp := x.lp.get c
  let tgt := p.targetFn c ph lp (levelOf lp j) (inputs x.regs) x.baseCutoff
  let x := x.setPhase c ph
  startCtlRamp p x c tgt (makeCode p x c tgt (phaseTime p x c j))

/-- `StartRelease(s, c)` (rule R227): TVA and TVF release toward 0, TVP toward its own target, with the
raw release time; the code is never 0x00. -/
def startRelease (p : Params) (x : Slot) (c : Ctl) : Slot :=
  let lp := x.lp.get c
  let tgt := match c with
    | .tvp => p.targetFn .tvp .release lp 0#8 (inputs x.regs) x.baseCutoff
    | .tva => 0#8
    | .tvf => 0#8
  let code := if lp.lt4 = 0#8 then p.releaseZeroCode else makeCode p x c tgt lp.lt4
  let code := if code = 0#8 then p.releaseZeroCode else code
  startCtlRamp p (x.setPhase c .release) c tgt code

/-- `EnterSustain(s, c)`, TVA and TVF: hold with a frozen ramp, or release at once when the note
cannot sustain (rule R226). -/
def enterSustain (p : Params) (x : Slot) (c : Ctl) : Slot :=
  if sustainOk x.regs then startCtlRamp p (x.setPhase c .p4) c (x.ramp.get c).tgt 0#8
  else startRelease p x c

/-! ### Interrupt handling -/

/-- Interrupt handling of TVA and TVF (rule R229). -/
def handleAmpFilter (p : Params) (x : Slot) (c : Ctl) : Slot :=
  match x.phase.get c with
  | .p0 => enterTimed p x c .p1 1
  | .p1 => enterTimed p x c .p2 2
  | .p2 => enterTimed p x c .p3 3
  | .p3 => enterSustain p x c
  | .p4 => x
  | .release => x.setPhase c .dead
  | .dead => x

/-- Interrupt handling of TVP: VIB3 and VIB4 retrigger each other and share time and level 3 (rules
R225, R230). -/
def handlePitch (p : Params) (x : Slot) : Slot :=
  match x.phase.tvp with
  | .p0 => enterTimed p x .tvp .p1 1
  | .p1 => enterTimed p x .tvp .p2 2
  | .p2 => enterTimed p x .tvp .p3 3
  | .p3 => enterTimed p x .tvp .p4 3
  | .p4 => enterTimed p x .tvp .p3 3
  | .release => x.setPhase .tvp .dead
  | .dead => x

/-- `HandleInterrupt(s, c)` (rule R231). -/
def handleInterrupt (p : Params) (x : Slot) (c : Ctl) : Slot :=
  match c with
  | .tva => handleAmpFilter p x .tva
  | .tvp => handlePitch p x
  | .tvf => handleAmpFilter p x .tvf

/-- One envelope step: the ramp step, and the interrupt it raised consumed in the same sample (rule
R232). -/
def envStep (p : Params) (x : Slot) (c : Ctl) : Slot :=
  let x := x.modRamp c rampStep
  if (x.ramp.get c).irq then handleInterrupt p (x.modRamp c clearIrq) c else x

/-! ### Start, note-off and abort -/

/-- All four latched TVA levels are 0 (rules R228, R233). -/
def levelsZero (lp : LatchedParams) : Bool :=
  lp.ll0 == 0#8 && lp.ll1 == 0#8 && lp.ll2 == 0#8 && lp.ll3 == 0#8

/-- The ESTART latching: LP[c] from the register group and, for TVF, BASE_CUTOFF (rules R228,
R236). -/
def latchParams (p : Params) (x : Slot) (c : Ctl) : Slot :=
  let x := { x with lp := x.lp.set c (latch (x.regs.env.get c)) }
  match c with
  | .tvf => { x with baseCutoff := p.baseCutoffFn x.lp.tvf (inputs x.regs) }
  | .tva => x
  | .tvp => x

/-- ESTART of controller c (rule R228). -/
def startEnv (p : Params) (x : Slot) (c : Ctl) : Slot :=
  let x := latchParams p x c
  match c with
  | .tva => if levelsZero x.lp.tva then startRelease p x .tva else enterTimed p x .tva .p0 0
  | .tvp => enterTimed p x .tvp .p0 0
  | .tvf => enterTimed p x .tvf .p0 0

/-- EDECAY of controller c (rule R240). -/
def decayEnv (p : Params) (x : Slot) (c : Ctl) : Slot :=
  match x.phase.get c with
  | .release => x
  | .dead => x
  | .p0 => startRelease p x c
  | .p1 => startRelease p x c
  | .p2 => startRelease p x c
  | .p3 => startRelease p x c
  | .p4 => startRelease p x c

/-- EABORT: the amplitude envelope only, whatever its phase but DEAD (rule R243). -/
def abortEnv (p : Params) (x : Slot) : Slot :=
  if x.phase.tva = .dead then x
  else startCtlRamp p (x.setPhase .tva .release) .tva 0#8 p.abortCode

/-- ESTART (rule R228). -/
def execEstart (slot : SlotIx) (unit : BitVec 2) (s : State) : Host.Outcome State Fault Refusal :=
  .next (withUnit unit s fun c => s.modSlot slot fun x => startEnv Config.hardware x c)

/-- EDECAY (rule R240). -/
def execEdecay (slot : SlotIx) (unit : BitVec 2) (s : State) : Host.Outcome State Fault Refusal :=
  .next (withUnit unit s fun c => s.modSlot slot fun x => decayEnv Config.hardware x c)

/-- EABORT (rule R243). -/
def execEabort (slot : SlotIx) (s : State) : Host.Outcome State Fault Refusal :=
  .next (s.modSlot slot (abortEnv Config.hardware))

/-- EINTR: HandleInterrupt without a look at the ramp's flag (rule R235). -/
def execEintr (slot : SlotIx) (unit : BitVec 2) (s : State) : Host.Outcome State Fault Refusal :=
  .next (withUnit unit s fun c => s.modSlot slot fun x => handleInterrupt Config.hardware x c)

end Sys2Proof.Machine
end

