-- ==== Sys2Proof/Machine/Pair.lean ====
section
/-! DEFINITION. The Partial Pair (spec/42_pair.md): the mixer, the ring modulator and the command
PAIROUT. All values are signed 16-bit and all sums wrap (rules R205, R207). -/

namespace Sys2Proof.Machine

/-- Mix: the sum of the two unlogged samples of a wave generator; 0 when it is inactive (rule
R201). -/
def mixOut (p : Params) (w : Wave) : BitVec 16 :=
  if w.active then wrap16 ((p.unlog w.out1).toInt + (p.unlog w.out2).toInt) else 0#16

/-- RingMul (rule R204). -/
def ringMul (p : Params) (m sl : BitVec 16) : BitVec 16 := wrap16 (asr (t14 m * t14 sl) p.ringShift)

/-- SlaveSample of the slot next to a ring master (rule R203). -/
def slaveSample (p : Params) (t : Slot) : BitVec 16 :=
  if !t.active || t.role != .ringSlave then 0#16
  else if !t.wave.active then 0#16
  else if t.wave.pcm then p.unlog t.wave.out1
  else mixOut p t.wave

/-- PairOut of a slot x whose next slot is t (rule R202). -/
def pairOutOf (p : Params) (x t : Slot) : BitVec 16 :=
  let m := mixOut p x.wave
  match x.role with
  | .independent => m
  | .ringSlave => m
  | .ringMaster =>
    let ring := ringMul p m (slaveSample p t)
    match x.mix with
    | .ringAndMix => wrap16 (m.toInt + ring.toInt)
    | .ringOnly => ring
    | .independent => ring
    | .splitStereo => ring

/-- PairOut of slot i (rule R202). A ring master is an even slot; for the numbers no ring master has,
i + 1 wraps (DESIGN CHOICE, assumption log 9). -/
def pairOut (p : Params) (s : State) (i : SlotIx) : BitVec 16 :=
  pairOutOf p (s.slot i) (s.slot (i + 1#5))

/-- PAIROUT on slot i: the pair sample in PAIR_OUT and, sign-extended, in RESULT (rule R200). -/
def doPairout (p : Params) (i : SlotIx) (s : State) : State :=
  let v := pairOut p s i
  { s.modSlot i (fun x => { x with pairOut := v }) with result := v.signExtend 32 }

/-- PAIROUT (rule R200). -/
def execPairout (slot : SlotIx) (s : State) : Host.Outcome State Fault Refusal :=
  .next (doPairout Config.hardware slot s)

end Sys2Proof.Machine
end

