-- ==== Sys2Proof/Machine/Wave.lean ====
section
/-! DEFINITION. The Wave Generator (spec/41_wave.md): latching a wave, the PCM and synthetic sample
steps, and the commands WINIT, WGEN and WDEACT. -/

namespace Sys2Proof.Machine

/-- `PcmRangeOk(base, len)` (rule R161). -/
def pcmRangeOk (p : Params) (base len : BitVec 24) : Bool :=
  decide (1 ≤ len.toNat) && decide (base.toNat + len.toNat ≤ p.pcmRomWords) &&
    decide (len.toNat * 2 ^ p.pcmFracBits < 2 ^ 32)

/-- The slot asks for a PCM wave that does not fit: the check of WINIT and PSTART (rules R160,
R271). -/
def pcmRefused (p : Params) (x : Slot) : Bool :=
  cfgMode x.regs && !pcmRangeOk p (pcmBaseField x.regs) (pcmLenField x.regs)

/-- The WINIT latching of a wave whose range is good (rule R160). -/
def initWave (p : Params) (x : Slot) : Slot :=
  { x with
    wave := { x.wave with
      pcm := cfgMode x.regs
      saw := cfgSaw x.regs
      loop := cfgLoop x.regs
      interp := cfgInterp x.regs
      pw := cfgPw x.regs
      res := cfgRes x.regs
      base := pcmBaseField x.regs
      len := pcmLenField x.regs
      pos := 0#32
      synth := p.synthInit (cfgSaw x.regs) (cfgPw x.regs) (cfgRes x.regs)
      out1 := LogSample.silence
      out2 := LogSample.silence
      active := true } }

/-- `MemRead(addr, 2)`: a PCM ROM word (rule R83). -/
def memRead (p : Params) (addr : Nat) : BitVec 16 := p.pcmRom addr

/-- The sample at index i of the wave, as a LogSample (rules R167, R175). -/
def pcmSample (p : Params) (w : Wave) (i : Nat) : LogSample :=
  p.pcmToLog (memRead p (w.base.toNat + i))

/-- The neighbour of sample i: the next sample, the first one at the end of a looped wave, SILENCE at
the end of another (rule R167). -/
def pcmNeighbour (p : Params) (w : Wave) (i : Nat) : LogSample :=
  if i + 1 < w.len.toNat then pcmSample p w (i + 1)
  else if w.loop then pcmSample p w 0
  else LogSample.silence

/-- The PCM step: the sample at the position is output, then the position advances (rule R167). -/
def pcmStep (p : Params) (w : Wave) (amp : BitVec 26) (pitch : BitVec 16) : Wave :=
  let endPos := w.len.toNat * 2 ^ p.pcmFracBits
  let i := w.pos.toNat / 2 ^ p.pcmFracBits
  let f := w.pos.toNat % 2 ^ p.pcmFracBits
  let out := p.pcmMix (pcmSample p w i) (pcmNeighbour p w i) f amp w.interp
  let next := w.pos.toNat + (p.pcmStep pitch).toNat
  let w := { w with out1 := out.1, out2 := out.2 }
  if next < endPos then { w with pos := BitVec.ofNat 32 next }
  else if w.loop then { w with pos := BitVec.ofNat 32 (next % endPos) }
  else { w with pos := BitVec.ofNat 32 endPos, active := false }

/-- The synthetic step (rule R169). -/
def synthWaveStep (p : Params) (w : Wave) (amp : BitVec 26) (pitch : BitVec 16) (cutoff : BitVec 26) :
    Wave :=
  let r := p.synthStep w.synth amp pitch cutoff
  { w with synth := r.1, out1 := r.2.1, out2 := r.2.2 }

/-- WaveStep (rules R165, R166). -/
def waveStep (p : Params) (w : Wave) (amp : BitVec 26) (pitch : BitVec 16) (cutoff : BitVec 26) : Wave :=
  if !w.active then { w with out1 := LogSample.silence, out2 := LogSample.silence }
  else if w.pcm then pcmStep p w amp pitch
  else synthWaveStep p w amp pitch cutoff

/-- The pitch that WaveInputs computes (rule R163). -/
def wavePitch (p : Params) (x : Slot) : BitVec 16 :=
  p.pitchMap x.ramp.tvp.cur x.lp.tvp (inputs x.regs)

/-- WaveInputs, which writes PITCH_OUT whether or not the wave generator is active (DEDUCED, assumption
log 5), and then WaveStep (rules R162, R163, R165). -/
def generate (p : Params) (x : Slot) : Slot :=
  let pitch := wavePitch p x
  { x with
    wave := waveStep p { x.wave with pitchOut := pitch } x.ramp.tva.cur pitch x.ramp.tvf.cur }

/-- WDEACT on a slot (rule R174). -/
def deactivateWave (x : Slot) : Slot := { x with wave := { x.wave with active := false } }

/-- WINIT on slot i (rule R160). -/
def doWinit (p : Params) (i : SlotIx) (s : State) : State :=
  if pcmRefused p (s.slot i) then s.logError .pcmRange else s.modSlot i (initWave p)

/-- WINIT (rule R160). -/
def execWinit (slot : SlotIx) (s : State) : Host.Outcome State Fault Refusal :=
  .next (doWinit Config.hardware slot s)

/-- WGEN (rule R162). -/
def execWgen (slot : SlotIx) (s : State) : Host.Outcome State Fault Refusal :=
  .next (s.modSlot slot (generate Config.hardware))

/-- WDEACT (rule R174). -/
def execWdeact (slot : SlotIx) (s : State) : Host.Outcome State Fault Refusal :=
  .next (s.modSlot slot deactivateWave)

end Sys2Proof.Machine
end

