-- ==== Sys2Proof/Machine/Partial.lean ====
section
/-! DEFINITION. Partial slots and the sample tick (spec/44_partial.md): deactivation with its
coupling, one sample of a slot, and the commands NOP, PSTART, PSTOP, PDECAY, PABORT and TICK. -/

namespace Sys2Proof.Machine

/-! ### Deactivation -/

/-- Slot i leaves the active state: ACTIVE and WG_ACTIVE cleared, its IRQ_PEND bit set (rule R280). -/
def clearActive (s : State) (i : SlotIx) : State :=
  { s.modSlot i (fun x => { x with active := false, wave := { x.wave with active := false } }) with
    irqPend := setPending s.irqPend i }

/-- The slot that slot i's deactivation takes with it, if any (rules R280, R281): a ring master's
attached slave, or the master of a ring slave whose L_MIX is 2. -/
def coupledSlot (s : State) (i : SlotIx) : Option SlotIx :=
  match (s.slot i).role with
  | .independent => none
  | .ringMaster =>
    let t := i + 1#5
    if (s.slot t).active && (s.slot t).role == .ringSlave then some t else none
  | .ringSlave =>
    let m := i - 1#5
    if (s.slot i).mix == .ringOnly && (s.slot m).active && (s.slot m).role == .ringMaster then some m
    else none

/-- `Deactivate(i)` of rule R280 (DEDUCED, assumption log 16). Its recursion goes one slot deep: the partner it reaches has only
slot i as its own partner, and slot i is inactive by then. -/
def deactivate (s : State) (i : SlotIx) : State :=
  if !(s.slot i).active then s
  else
    let s := clearActive s i
    match coupledSlot s i with
    | none => s
    | some t => clearActive s t

/-- `Alive(s)`: the amplitude envelope is not DEAD and the wave generator is active (rule R282). -/
def alive (x : Slot) : Bool := x.phase.tva != .dead && x.wave.active

/-! ### One sample -/

/-- The envelopes in the order pitch, filter, amplitude, then the wave generator (rule R287). -/
def envSample (p : Params) (x : Slot) : Slot :=
  let x := envStep p x .tvp
  let x := envStep p x .tvf
  let x := envStep p x .tva
  generate p x

/-- The slot after slot i is an active ring slave (rule R286). -/
def hasActiveSlave (s : State) (i : SlotIx) : Bool :=
  (s.slot i).role == .ringMaster && (s.slot (i + 1#5)).active && (s.slot (i + 1#5)).role == .ringSlave

/-- The pan contribution of a pair sample v (rule R289). -/
def panned (p : Params) (v : BitVec 16) (pan : Byte) : Word :=
  BitVec.ofInt 32 (asr (v.toInt * pan.toNat) p.panShift)

/-- The output of slot i: its pair sample, kept in PAIR_OUT and added to the frame with its pan (rules
R286, R289). -/
def emitSample (p : Params) (s : State) (i : SlotIx) : State :=
  let v := pairOut p s i
  let regs := (s.slot i).regs
  { s.modSlot i (fun x => { x with pairOut := v }) with
    outL := s.outL + panned p v (panL regs)
    outR := s.outR + panned p v (panR regs) }

/-- The rest of a ring master's sample, whose attached slave is t = i + 1: the slave is advanced, or,
found dead, deactivated (rule R288). With L_MIX = 2 that takes the master too, which then emits
nothing; else the master emits its sample (rule R286). -/
def emitWithSlave (p : Params) (s : State) (i t : SlotIx) : State :=
  if alive (s.slot t) then emitSample p (s.modSlot t (envSample p)) i
  else
    let s := deactivate s t
    if (s.slot i).active then emitSample p s i else s

/-- `ProduceSample(i)` (rule R286). -/
def produceSample (p : Params) (s : State) (i : SlotIx) : State :=
  if !alive (s.slot i) then deactivate s i
  else
    let s := s.modSlot i (envSample p)
    if hasActiveSlave s i then emitWithSlave p s i (i + 1#5) else emitSample p s i

/-- `AttachedSlave(i)`: an odd ring slave next to an active ring master (rule R285). -/
def attachedSlave (s : State) (i : SlotIx) : Bool :=
  (s.slot i).role == .ringSlave && !slotEven i && (s.slot (i - 1#5)).active &&
    (s.slot (i - 1#5)).role == .ringMaster

/-- The TICK loop at slot i (rule R285). -/
def tickSlot (p : Params) (s : State) (i : SlotIx) : State :=
  if (s.slot i).active && !attachedSlave s i then produceSample p s i else s

/-- The slot numbers in ascending order. -/
def allSlots : List SlotIx := (List.range 32).map (BitVec.ofNat 5)

/-- The start of TICK: OUT_L and OUT_R are cleared (rule R285). -/
def clearFrame (s : State) : State := { s with outL := 0#32, outR := 0#32 }

/-- The loop of TICK over the slots (rule R285). Irreducible for proofs' sake only: it is used through
`passSlots_rel` and its kin, not by unrolling 32 passes. -/
@[irreducible] def passSlots (p : Params) (s : State) : State := allSlots.foldl (tickSlot p) s

/-- The end of TICK: SAMPLE_CNT counts the sample, modulo 2^32 (rules R48, R285). -/
def countSample (s : State) : State := { s with sampleCnt := s.sampleCnt + 1#32 }

/-- TICK (rule R285). -/
def tick (p : Params) (s : State) : State := countSample (passSlots p (clearFrame s))

/-! ### Starting a slot -/

/-- The ROLE that a structure gives slot i (rule R271). -/
def roleFor (mix : MixType) (i : SlotIx) : Role :=
  match mix with
  | .ringAndMix => if slotEven i then .ringMaster else .ringSlave
  | .ringOnly => if slotEven i then .ringMaster else .ringSlave
  | .independent => .independent
  | .splitStereo => .independent

/-- The part of PSTART that binds slot i's parameters and starts it: ramps reset, wave latched, role
taken, envelopes started, ACTIVE set (rule R271). `mix` is the even slot's MIXTYPE. -/
def startSlot (p : Params) (mix : MixType) (i : SlotIx) (x : Slot) : Slot :=
  let x := { x with ramp := ⟨resetRamp, resetRamp, resetRamp⟩ }
  let x := initWave p x
  let x := { x with mix := mix, role := roleFor mix i }
  let x := startEnv p x .tva
  let x := startEnv p x .tvp
  let x := startEnv p x .tvf
  { x with active := true }

/-- PSTART on slot i: the range check, then the stale-state recovery, then the start (rule R271). -/
def doPstart (p : Params) (i : SlotIx) (s : State) : State :=
  if pcmRefused p (s.slot i) then s.logError .pcmRange
  else
    let s := if (s.slot i).active then deactivate (s.logWarn .staleState) i else s
    let mix := mixTypeField (s.slot (evenSlot i)).regs
    s.modSlot i (startSlot p mix i)

/-- PDECAY on a slot (rule R273). -/
def decaySlot (p : Params) (x : Slot) : Slot :=
  if x.active then decayEnv p (decayEnv p (decayEnv p x .tva) .tvp) .tvf else x

/-- PABORT on a slot (rule R274). -/
def abortSlot (p : Params) (x : Slot) : Slot := if x.active then abortEnv p x else x

/-- NOP (rule R270). -/
def execNop (s : State) : Host.Outcome State Fault Refusal := .next s

/-- PSTART (rule R271). -/
def execPstart (slot : SlotIx) (s : State) : Host.Outcome State Fault Refusal :=
  .next (doPstart Config.hardware slot s)

/-- PSTOP (rule R272). -/
def execPstop (slot : SlotIx) (s : State) : Host.Outcome State Fault Refusal :=
  .next (deactivate s slot)

/-- PDECAY (rule R273). -/
def execPdecay (slot : SlotIx) (s : State) : Host.Outcome State Fault Refusal :=
  .next (s.modSlot slot (decaySlot Config.hardware))

/-- PABORT (rule R274). -/
def execPabort (slot : SlotIx) (s : State) : Host.Outcome State Fault Refusal :=
  .next (s.modSlot slot (abortSlot Config.hardware))

/-- TICK (rule R285). -/
def execTick (s : State) : Host.Outcome State Fault Refusal := .next (tick Config.hardware s)

end Sys2Proof.Machine
end

