-- ==== Sys2Proof/Machine/Dispatch.lean ====
section
/-! DEFINITION. The dispatch of a command to its meaning. -/

namespace Sys2Proof.Machine

/-- The effect of a command. -/
def exec (i : Instr) (s : State) : Host.Outcome State Fault Refusal :=
  match i with
  | .nop => Sys2Proof.Machine.execNop s
  | .rstart slot unit target code => Sys2Proof.Machine.execRstart slot unit target code s
  | .rnext slot unit => Sys2Proof.Machine.execRnext slot unit s
  | .rchki slot unit => Sys2Proof.Machine.execRchki slot unit s
  | .rreset slot unit => Sys2Proof.Machine.execRreset slot unit s
  | .winit slot => Sys2Proof.Machine.execWinit slot s
  | .wgen slot => Sys2Proof.Machine.execWgen slot s
  | .wdeact slot => Sys2Proof.Machine.execWdeact slot s
  | .pairout slot => Sys2Proof.Machine.execPairout slot s
  | .estart slot unit => Sys2Proof.Machine.execEstart slot unit s
  | .edecay slot unit => Sys2Proof.Machine.execEdecay slot unit s
  | .eabort slot => Sys2Proof.Machine.execEabort slot s
  | .eintr slot unit => Sys2Proof.Machine.execEintr slot unit s
  | .pstart slot => Sys2Proof.Machine.execPstart slot s
  | .pstop slot => Sys2Proof.Machine.execPstop slot s
  | .pdecay slot => Sys2Proof.Machine.execPdecay slot s
  | .pabort slot => Sys2Proof.Machine.execPabort slot s
  | .tick => Sys2Proof.Machine.execTick s

end Sys2Proof.Machine
end

