-- ==== Sys2Proof/Machine/Command.lean ====
section
/-! DEFINITION. One access of the host: a read, a register write, or a command written to CMD. -/

namespace Sys2Proof.Machine

/-- The address of CMD (rule R45). -/
def cmdAddr : HostAddr := 0x800#12

/-- A host write of w to CMD: the command decoded and executed, or the decoder's error logged (rule
R105). -/
def runCommand (w : Word) (s : State) : Host.Outcome State Fault Refusal :=
  match decode w with
  | .ok i => exec i s
  | .error e => .next (s.logError e)

/-- One host access, complete before the next begins (rules R85, R86, R89). -/
def access (a : HostAccess) (s : State) : Host.Outcome State Fault Refusal :=
  match a with
  | .read addr => .next { s with readData := readReg s addr }
  | .write addr v => if addr = cmdAddr then runCommand v s else .next (writeReg s addr v)

/-- The host's next access at the front of the queue: a write of a command word to CMD. -/
def pushCommand (s : State) (w : Word) : State := { s with host := .write cmdAddr w :: s.host }

end Sys2Proof.Machine
end

