-- ==== Sys2Proof/Machine/Step.lean ====
section
/-! DEFINITION. One step of the block: it performs the host's oldest waiting access, and waits when
there is none (rules R5, R89, R340). -/

namespace Sys2Proof.Machine

/-- One step. The block fetches nothing (rule R30): what it executes next is the host's next
access. -/
def step (s : State) : Host.Outcome State Fault Refusal :=
  match s.host with
  | [] => .next s
  | a :: rest => access a { s with host := rest }

/-- The state in which the host's next access writes to CMD the word whose low `nbits` bits are
those of `w`, the bits above them 0: how a command comes to run (assumption log 1). -/
def State.withFetchWord (s : State) (nbits w : Nat) : State := pushCommand s (tableWord nbits w)

end Sys2Proof.Machine
end

