-- ==== Sys2Proof/Safety.lean ====
section
/-! DEFINITION. What a safe state of the block is: the invariants the spec states of its registers
and flags. `State.Inv` holds at reset and every step keeps it (the statements say so). -/

namespace Sys2Proof.Machine

/-- A ramp in a state the rules reach (rules R130, R131, R136, R137): the value is at most
MAX_CURRENT; CNT is 0 unless COUNTING, and then 1..7; IRQ is 1 only in DONE; a ramp that has reached
its target holds exactly TGT << 18; a moving ramp moves; an idle ramp is frozen. -/
structure Ramp.Ok (r : Ramp) : Prop where
  cur_le : r.cur.toNat ≤ maxCurrent
  cnt_zero : r.rstate ≠ .counting → r.cnt = 0#8
  cnt_range : r.rstate = .counting → 1 ≤ r.cnt.toNat ∧ r.cnt.toNat ≤ interruptDelay.toNat
  irq_done : r.irq = true → r.rstate = .done
  at_target : r.rstate = .counting ∨ r.rstate = .done → r.cur.toNat = largeTarget r.tgt
  moving : r.rstate = .moving → 0 < r.inc.toNat
  idle : r.rstate = .idle → r.inc = 0#32 ∧ r.desc = false

/-- A wave generator in a state the rules reach (rules R161, R168): an active PCM wave lies in the PCM
ROM, its end position fits WG_POS, and its position is inside the wave. -/
structure Wave.Ok (p : Params) (w : Wave) : Prop where
  range : w.active = true → w.pcm = true → pcmRangeOk p w.base w.len = true
  inside : w.active = true → w.pcm = true → w.pos.toNat < w.len.toNat * 2 ^ p.pcmFracBits

/-- The role of slot i is one that PSTART gives (rules R202, R271): a ring master is an even slot and a
ring slave an odd one, with L_MIX 1 or 2; an independent slot has L_MIX 0 or 3. -/
def Slot.RoleOk (i : SlotIx) (x : Slot) : Prop := x.role = roleFor x.mix i

/-- Every reserved bit of the parameter registers is 0 (rule R50). -/
def SlotRegs.Ok (r : SlotRegs) : Prop := ∀ n, readParam r n &&& ~~~paramMask n = 0#32

/-- Slot i in a state the rules reach. -/
structure Slot.Ok (p : Params) (i : SlotIx) (x : Slot) : Prop where
  regs : x.regs.Ok
  ramps : ∀ c, (x.ramp.get c).Ok
  wave : x.wave.Ok p
  role : x.RoleOk i

/-- The most a frame sum can be: 32 contributions, each at most 2^23 (rule R289). -/
def frameBound : Int := 2 ^ 28

/-- A safe state of the block under the parameters `p`. -/
structure State.InvWith (p : Params) (s : State) : Prop where
  slots : ∀ i, (s.slot i).Ok p i
  noCode : s.err = false → s.errCode = 0#8
  code : s.err = true → 1 ≤ s.errCode.toNat ∧ s.errCode.toNat ≤ 6
  outL : -frameBound ≤ s.outL.toInt ∧ s.outL.toInt ≤ frameBound
  outR : -frameBound ≤ s.outR.toInt ∧ s.outR.toInt ≤ frameBound

/-- A safe state of the block. -/
def State.Inv (s : State) : Prop := s.InvWith Config.hardware

end Sys2Proof.Machine
end

