-- ==== Sys2Proof/Certificates/Slice0/Obligations.lean ====
section
/-! DEFINITION. The statements about the block. Each one's docstring says which rules of spec/ it
formalises. The namespace `Stated` holds the spec's own formulas, written out from the rules a second
time, so that a statement compares the machine with the rule and not with itself. -/

open Sys2Proof Sys2Proof.Machine

namespace Sys2Proof.Stated

/-- The hardware's parameters. -/
abbrev hw : Params := Config.hardware

/-- MAX_CURRENT (rule R6). -/
def maxCur : Nat := 0x3FC0000

/-- The large target TGT << 18 (rule R130). -/
def bigTarget (tgt : Byte) : Nat := tgt.toNat * 0x40000

/-- UNIT names controller c (rules R40, R101). -/
def unitNames (u : BitVec 2) (c : Ctl) : Prop :=
  (u = 0#2 ∧ c = .tva) ∨ (u = 1#2 ∧ c = .tvp) ∨ (u = 2#2 ∧ c = .tvf)

/-- The state with an error recorded, and nothing else changed (rules R46, R312). -/
def errored (s : State) (code : Byte) : State :=
  { s with err := true, errCode := if s.err then s.errCode else code }

/-- The codes of the errors (rule R311). -/
def codeOf : ErrCode → Byte
  | .reservedOpcode => 0x01#8
  | .reservedField => 0x02#8
  | .illegalUnit => 0x03#8
  | .pcmRange => 0x04#8
  | .staleState => 0x05#8
  | .badRegisterWrite => 0x06#8

/-- The codes of the phases (rule R220): ATTACK or PH0, PHASE2 or PH1, PHASE3 or PH2, PHASE4 or VIB3,
SUSTAIN or VIB4, RELEASE, DEAD. -/
def phaseNo : Phase → Nat
  | .p0 => 0
  | .p1 => 1
  | .p2 => 2
  | .p3 => 3
  | .p4 => 4
  | .release => 5
  | .dead => 6

/-- The increment of a code (rule R131). -/
def increment (p : Params) (code : Byte) : Nat :=
  if code = 0#8 then 0
  else p.rampInc (BitVec.ofNat 7 code.toNat) + (if code.getLsbD 7 then p.descBonus else 0)

/-- A ramp after the RSTART pseudocode (rule R133). -/
def started (p : Params) (r : Ramp) (tgt code : Byte) : Ramp :=
  { cur := r.cur, tgt := tgt, inc := BitVec.ofNat 32 (increment p code), desc := code.getLsbD 7
    cnt := 0#8, irq := false, rstate := if code = 0#8 then .idle else .moving }

/-- A ramp after the RRESET pseudocode (rule R141). -/
def zeroed : Ramp :=
  { cur := 0#26, tgt := 0#8, inc := 0#32, desc := false, cnt := 0#8, irq := false, rstate := .idle }

/-- A ramp after one step, on integers (rule R135). -/
def stepped (r : Ramp) : Ramp :=
  let cur : Int := r.cur.toNat
  let inc : Int := r.inc.toNat
  let big : Int := bigTarget r.tgt
  let reached : Ramp := { r with cur := BitVec.ofInt 26 big, rstate := .counting, cnt := 7#8 }
  match r.rstate with
  | .idle => r
  | .done => r
  | .counting =>
    if r.cnt.toNat = 1 then { r with cnt := 0#8, irq := true, rstate := .done }
    else { r with cnt := r.cnt - 1#8 }
  | .moving =>
    if r.desc then
      if inc > cur ∨ cur - inc ≤ big then reached else { r with cur := BitVec.ofInt 26 (cur - inc) }
    else
      if (maxCur : Int) - cur < inc ∨ cur + inc ≥ big then reached
      else { r with cur := BitVec.ofInt 26 (cur + inc) }

/-- The step at which a ramp of value c reaches the large target (rule R139). -/
def stepsToTarget (c big inc : Nat) (desc : Bool) : Nat :=
  if desc then (if big < c then (c - big + inc - 1) / inc else 1)
  else (if c < big then (big - c + inc - 1) / inc else 1)

/-- The inputs that the OPEN functions see (rules R37, R38, R351). -/
def seen (r : SlotRegs) : Inputs :=
  { key := BitVec.ofNat 7 r.note.toNat, vel := BitVec.ofNat 7 (r.note.toNat / 2 ^ 8)
    volume := BitVec.ofNat 7 r.ctrlIn.toNat, expression := BitVec.ofNat 7 (r.ctrlIn.toNat / 2 ^ 8)
    modulation := BitVec.ofNat 7 (r.ctrlIn.toNat / 2 ^ 16), bend := BitVec.ofNat 14 r.bendIn.toNat }

/-- Byte n of a register. -/
def byteOf (w : Word) (n : Nat) : Byte := BitVec.ofNat 8 (w.toNat / 2 ^ (8 * n))

/-- The latched copy of a register group (rules R39, R44). -/
def latched (e : EnvRegs) : LatchedParams :=
  { lt0 := byteOf e.t 0, lt1 := byteOf e.t 1, lt2 := byteOf e.t 2, lt3 := byteOf e.t 3
    lt4 := byteOf e.t4 0, ltkf := byteOf e.t4 1
    ll0 := byteOf e.l 0, ll1 := byteOf e.l 1, ll2 := byteOf e.l 2, ll3 := byteOf e.l 3
    lx0 := e.x0, lx1 := e.x1, lx2 := e.x2, lx3 := e.x3, lx4 := e.x4 }

/-- The code toward a target in a given time (rule R222). -/
def codeToward (p : Params) (r : Ramp) (tgt time : Byte) : Byte :=
  let dist := max tgt.toNat (r.cur.toNat / 2 ^ 18) - min tgt.toNat (r.cur.toNat / 2 ^ 18)
  BitVec.ofNat 8 ((if bigTarget tgt < r.cur.toNat then 128 else 0) +
    (p.timeToInc time (BitVec.ofNat 8 dist)).toNat)

/-- Controller c of a slot enters phase ph with a ramp toward tgt (rules R223-R227). -/
def enters (p : Params) (x : Slot) (c : Ctl) (ph : Phase) (tgt code : Byte) : Slot :=
  { x with phase := x.phase.set c ph, ramp := x.ramp.set c (started p (x.ramp.get c) tgt code) }

/-- The entry of a timed phase with raw time `time` and level `level` (rules R221, R224, R225). -/
def entersTimed (p : Params) (x : Slot) (c : Ctl) (ph : Phase) (time level : Byte) : Slot :=
  let lp := x.lp.get c
  let tgt := p.targetFn c ph lp level (seen x.regs) x.baseCutoff
  let t := BitVec.ofNat 8 (time.toNat - (p.keyfollowCorr lp.ltkf (seen x.regs).key).toNat)
  enters p x c ph tgt (codeToward p (x.ramp.get c) tgt t)

/-- StartRelease (rule R227). -/
def releases (p : Params) (x : Slot) (c : Ctl) : Slot :=
  let lp := x.lp.get c
  let tgt := if c = .tvp then p.targetFn .tvp .release lp 0#8 (seen x.regs) x.baseCutoff else 0#8
  let code := codeToward p (x.ramp.get c) tgt lp.lt4
  enters p x c .release tgt (if lp.lt4 = 0#8 ∨ code = 0#8 then p.releaseZeroCode else code)

/-- HandleInterrupt of TVA and TVF (rules R226, R229). -/
def ampFilterInterrupt (p : Params) (x : Slot) (c : Ctl) : Slot :=
  let lp := x.lp.get c
  match x.phase.get c with
  | .p0 => entersTimed p x c .p1 lp.lt1 lp.ll1
  | .p1 => entersTimed p x c .p2 lp.lt2 lp.ll2
  | .p2 => entersTimed p x c .p3 lp.lt3 lp.ll3
  | .p3 => if x.regs.note.getLsbD 16 then enters p x c .p4 (x.ramp.get c).tgt 0#8 else releases p x c
  | .p4 => x
  | .release => { x with phase := x.phase.set c .dead }
  | .dead => x

/-- HandleInterrupt of TVP (rules R225, R230). -/
def pitchInterrupt (p : Params) (x : Slot) : Slot :=
  let lp := x.lp.tvp
  match x.phase.tvp with
  | .p0 => entersTimed p x .tvp .p1 lp.lt1 lp.ll1
  | .p1 => entersTimed p x .tvp .p2 lp.lt2 lp.ll2
  | .p2 => entersTimed p x .tvp .p3 lp.lt3 lp.ll3
  | .p3 => entersTimed p x .tvp .p4 lp.lt3 lp.ll3
  | .p4 => entersTimed p x .tvp .p3 lp.lt3 lp.ll3
  | .release => { x with phase := x.phase.set .tvp .dead }
  | .dead => x

/-- HandleInterrupt (rule R231). -/
def interrupt (p : Params) (x : Slot) (c : Ctl) : Slot :=
  if c = .tvp then pitchInterrupt p x else ampFilterInterrupt p x c

/-- A slot after the ESTART pseudocode (rule R228). -/
def envStarted (p : Params) (x : Slot) (c : Ctl) : Slot :=
  let lp := latched (x.regs.env.get c)
  let y : Slot := { x with
    lp := x.lp.set c lp
    baseCutoff := if c = .tvf then p.baseCutoffFn lp (seen x.regs) else x.baseCutoff }
  if c = .tva ∧ lp.ll0 = 0#8 ∧ lp.ll1 = 0#8 ∧ lp.ll2 = 0#8 ∧ lp.ll3 = 0#8 then releases p y .tva
  else entersTimed p y c .p0 lp.lt0 lp.ll0

/-- A slot after the EDECAY pseudocode (rule R240). -/
def envDecayed (p : Params) (x : Slot) (c : Ctl) : Slot :=
  if x.phase.get c = .release ∨ x.phase.get c = .dead then x else releases p x c

/-- A slot after the EABORT pseudocode (rule R243). -/
def envAborted (p : Params) (x : Slot) : Slot :=
  if x.phase.tva = .dead then x else enters p x .tva .release 0#8 p.abortCode

/-- The slot's PCM wave is out of range (rules R160, R161). -/
def outOfRange (p : Params) (r : SlotRegs) : Prop :=
  let base := r.pcmBase.toNat % 2 ^ 24
  let len := r.pcmLen.toNat % 2 ^ 24
  r.wgCfg.getLsbD 0 = true ∧ ¬(1 ≤ len ∧ base + len ≤ p.pcmRomWords ∧ len * 2 ^ p.pcmFracBits < 2 ^ 32)

/-- A slot after the WINIT pseudocode (rule R160). -/
def waveStarted (p : Params) (x : Slot) : Slot :=
  let cfg := x.regs.wgCfg
  { x with wave := {
      active := true, pcm := cfg.getLsbD 0, saw := cfg.getLsbD 1, loop := cfg.getLsbD 2
      interp := cfg.getLsbD 3, pw := byteOf cfg 1, res := byteOf cfg 2
      base := BitVec.ofNat 24 x.regs.pcmBase.toNat, len := BitVec.ofNat 24 x.regs.pcmLen.toNat
      pos := 0#32, synth := p.synthInit (cfg.getLsbD 1) (byteOf cfg 1) (byteOf cfg 2)
      out1 := ⟨0xFFFF#16, false⟩, out2 := ⟨0xFFFF#16, false⟩, pitchOut := x.wave.pitchOut } }

/-- The PCM step (rule R167). -/
def pcmStepped (p : Params) (w : Wave) (amp : BitVec 26) (pitch : BitVec 16) : Wave :=
  let e := w.len.toNat * 2 ^ p.pcmFracBits
  let i := w.pos.toNat / 2 ^ p.pcmFracBits
  let w0 := p.pcmToLog (p.pcmRom (w.base.toNat + i))
  let w1 :=
    if i + 1 < w.len.toNat then p.pcmToLog (p.pcmRom (w.base.toNat + i + 1))
    else if w.loop then p.pcmToLog (p.pcmRom w.base.toNat)
    else ⟨0xFFFF#16, false⟩
  let out := p.pcmMix w0 w1 (w.pos.toNat % 2 ^ p.pcmFracBits) amp w.interp
  let next := w.pos.toNat + (p.pcmStep pitch).toNat
  { w with
    out1 := out.1
    out2 := out.2
    pos := BitVec.ofNat 32 (if next ≥ e then (if w.loop then next % e else e) else next)
    active := w.active && (decide (next < e) || w.loop) }

/-- WaveStep (rules R165, R166, R169). -/
def waveStepped (p : Params) (w : Wave) (amp : BitVec 26) (pitch : BitVec 16) (cutoff : BitVec 26) : Wave :=
  let r := p.synthStep w.synth amp pitch cutoff
  if w.active = false then { w with out1 := ⟨0xFFFF#16, false⟩, out2 := ⟨0xFFFF#16, false⟩ }
  else if w.pcm = true then pcmStepped p w amp pitch
  else { w with synth := r.1, out1 := r.2.1, out2 := r.2.2 }

/-- WaveInputs, which writes PITCH_OUT, and WaveStep on a slot (rules R162, R163). -/
def generated (p : Params) (x : Slot) : Slot :=
  let pitch := p.pitchMap x.ramp.tvp.cur x.lp.tvp (seen x.regs)
  { x with wave := waveStepped p { x.wave with pitchOut := pitch } x.ramp.tva.cur pitch x.ramp.tvf.cur }

/-- The low 14 bits as a signed number (rule R9). -/
def low14 (v : BitVec 16) : Int := (v.toInt + 8192) % 16384 - 8192

/-- Mix (rule R201). -/
def mixed (p : Params) (w : Wave) : BitVec 16 :=
  if w.active = false then 0#16 else BitVec.ofInt 16 ((p.unlog w.out1).toInt + (p.unlog w.out2).toInt)

/-- SlaveSample (rule R203). -/
def slaveOf (p : Params) (t : Slot) : BitVec 16 :=
  if t.active = false ∨ t.role ≠ .ringSlave then 0#16
  else if t.wave.active = false then 0#16
  else if t.wave.pcm = true then p.unlog t.wave.out1
  else mixed p t.wave

/-- RingMul (rule R204). -/
def ringOf (p : Params) (m sl : BitVec 16) : BitVec 16 :=
  BitVec.ofInt 16 ((low14 m * low14 sl) / 2 ^ p.ringShift)

/-- PairOut of slot x with the slot t after it (rule R202). -/
def paired (p : Params) (x t : Slot) : BitVec 16 :=
  if x.role ≠ .ringMaster then mixed p x.wave
  else
    let ring := ringOf p (mixed p x.wave) (slaveOf p t)
    if x.mix = .ringAndMix then BitVec.ofInt 16 ((mixed p x.wave).toInt + ring.toInt) else ring

/-- A slot that Deactivate leaves inactive (rule R280). -/
def silent (x : Slot) : Slot := { x with active := false, wave := { x.wave with active := false } }

/-- Slot i deactivated by itself: ACTIVE, WG_ACTIVE and its IRQ_PEND bit (rule R280). -/
def ended (s : State) (i : SlotIx) : State :=
  { s.modSlot i silent with irqPend := s.irqPend ||| BitVec.ofNat 32 (2 ^ i.toNat) }

/-- A slot after the PSTART pseudocode's binding and starting, under the structure mix (rule R271). -/
def partialStarted (p : Params) (mix : MixType) (i : SlotIx) (x : Slot) : Slot :=
  let y := waveStarted p { x with ramp := ⟨zeroed, zeroed, zeroed⟩ }
  let y : Slot := { y with
    mix := mix
    role := if mix = .ringAndMix ∨ mix = .ringOnly then (if i.toNat % 2 = 0 then .ringMaster else .ringSlave)
      else .independent }
  { envStarted p (envStarted p (envStarted p y .tva) .tvp) .tvf with active := true }

/-- MIXTYPE of the even slot of i's pair (rules R35, R271). -/
def pairMix (s : State) (i : SlotIx) : MixType :=
  match (s.slot (BitVec.ofNat 5 (i.toNat / 2 * 2))).regs.pairCfg.toNat % 4 with
  | 0 => .independent
  | 1 => .ringAndMix
  | 2 => .ringOnly
  | _ => .splitStereo

/-- Slot i is alive (rule R282). -/
def isAlive (x : Slot) : Prop := x.phase.tva ≠ .dead ∧ x.wave.active = true

/-- One envelope step (rule R232). -/
def envAdvanced (p : Params) (x : Slot) (c : Ctl) : Slot :=
  let r := stepped (x.ramp.get c)
  if r.irq = true then interrupt p { x with ramp := x.ramp.set c { r with irq := false } } c
  else { x with ramp := x.ramp.set c r }

/-- The envelopes, pitch first, and the wave generator (rule R287). -/
def sampled (p : Params) (x : Slot) : Slot :=
  generated p (envAdvanced p (envAdvanced p (envAdvanced p x .tvp) .tvf) .tva)

/-- AttachedSlave (rule R285). -/
def attached (s : State) (i : SlotIx) : Prop :=
  (s.slot i).role = .ringSlave ∧ i.toNat % 2 = 1 ∧ (s.slot (i - 1#5)).active = true ∧
    (s.slot (i - 1#5)).role = .ringMaster

/-- Slot i is a ring master with an active ring slave after it (rule R286). -/
def leads (s : State) (i : SlotIx) : Prop :=
  (s.slot i).role = .ringMaster ∧ (s.slot (i + 1#5)).active = true ∧ (s.slot (i + 1#5)).role = .ringSlave

/-- The active slot i stays active over a TICK (rules R281, R282, R286, R288): it is alive; if it is an
attached slave, its master is alive; if it leads a slave, the slave is alive or its L_MIX is not 2. -/
def staysActive (s : State) (i : SlotIx) : Prop :=
  isAlive (s.slot i) ∧ (attached s i → isAlive (s.slot (i - 1#5))) ∧
    (leads s i → isAlive (s.slot (i + 1#5)) ∨ (s.slot (i + 1#5)).mix ≠ .ringOnly)

/-- The pan contribution (rule R289). -/
def contribution (p : Params) (v : BitVec 16) (pan : Nat) : Int := (v.toInt * pan) / 2 ^ p.panShift

/-- The opcodes of rule R103 with their masks. -/
def opcodeMasks : List (Nat × Nat) :=
  [(0x00, 0xFFFFFFFF), (0x01, 0xFF010000), (0x02, 0xFF01FFFF), (0x03, 0xFF01FFFF), (0x04, 0xFF01FFFF),
    (0x10, 0xFF07FFFF), (0x11, 0xFF07FFFF), (0x12, 0xFF07FFFF), (0x18, 0xFF07FFFF)] ++
  [(0x20, 0xFF01FFFF), (0x21, 0xFF01FFFF), (0x22, 0xFF07FFFF), (0x23, 0xFF01FFFF), (0x30, 0xFF07FFFF),
    (0x31, 0xFF07FFFF), (0x32, 0xFF07FFFF), (0x33, 0xFF07FFFF), (0x40, 0xFFFFFFFF)]

/-- The opcodes whose commands read UNIT (rule R103). -/
def unitOpcodes : List Nat := [0x01, 0x02, 0x03, 0x04, 0x20, 0x21, 0x23]

/-- Block and index of a host address (rule R31). -/
def blockOf (a : HostAddr) : Nat := a.toNat / 64
/-- The register index of a host address (rule R31). -/
def indexOf (a : HostAddr) : Nat := a.toNat % 64

/-- The address of register index k of slot i (rule R31). -/
def slotAddr (i : SlotIx) (k : Nat) : HostAddr := BitVec.ofNat 12 (i.toNat * 64 + k)

/-- Register index k of a slot block is RW (rule R32). -/
def isParam (k : Nat) : Prop := k < 0x08 ∨ (0x10 ≤ k ∧ k < 0x28)

/-- The non-reserved bits of the RW register at index k (rules R33-R39). -/
def paramBits (k : Nat) : Word :=
  if k = 0x00 then 0x00FFFF0F#32
  else if k = 0x01 then 0x00FFFFFF#32
  else if k = 0x02 then 0x00FFFFFF#32
  else if k = 0x03 then 0x00000003#32
  else if k = 0x04 then 0x0000FFFF#32
  else if k = 0x05 then 0x00017F7F#32
  else if k = 0x06 then 0x007F7F7F#32
  else if k = 0x07 then 0x00003FFF#32
  else if k % 8 = 1 then 0x0000FFFF#32
  else 0xFFFFFFFF#32

end Sys2Proof.Stated

open Sys2Proof.Stated

/-! ### Encoding and decoding -/

/-- Rules R101-R103: every well-formed command, at every value of its fields, is read back from its
command word. -/
def Obligations.DecodeReadsBackEveryEncodedCommand : Prop :=
  ∀ i : Instr, i.wf = true → decode (encode i) = .ok i

/-- Rules R101-R105: a word that decodes is the word of its command, which is well formed: no two
words are one command. -/
def Obligations.DecodedWordIsItsCommandsWord : Prop :=
  ∀ (w : Word) (i : Instr), decode w = .ok i → i.wf = true ∧ encode i = w

/-- Rules R103, R105: the three checks of the decoder, in their order, on every word. -/
def Obligations.DecoderChecksOpcodeThenFieldsThenUnit : Prop :=
  ∀ w : Word,
    match opcodeMasks.lookup (w.toNat / 2 ^ 24) with
    | none => decode w = .error .reservedOpcode
    | some mask =>
      if w &&& BitVec.ofNat 32 mask ≠ BitVec.ofNat 32 (w.toNat / 2 ^ 24 * 2 ^ 24) then
        decode w = .error .reservedField
      else if w.toNat / 2 ^ 24 ∈ unitOpcodes ∧ w.toNat / 2 ^ 17 % 4 = 3 then
        decode w = .error .illegalUnit
      else ∃ i, decode w = .ok i ∧ encode i = w

/-- Every word of spec/95_test_vectors.md §2.1, E-1 to E-16. -/
def Obligations.SampleWordsDecodeAsTheSpecLists : Prop :=
  -- E-1 to E-6
  (decode 0x00000000#32 = .ok .nop ∧ decode 0x01000278#32 = .ok (.rstart 0 0 2 0x78) ∧
    decode 0x010000F8#32 = .ok (.rstart 0 0 0 0xF8) ∧ decode 0x01FCFF80#32 = .ok (.rstart 31 2 0xFF 0x80) ∧
    decode 0x022A0000#32 = .ok (.rnext 5 1) ∧ decode 0x043C0000#32 = .ok (.rreset 7 2)) ∧
  -- E-7, E-8
  (decode 0x10080000#32 = .ok (.winit 1) ∧ decode 0x11080000#32 = .ok (.wgen 1) ∧
    decode 0x12180000#32 = .ok (.wdeact 3) ∧ decode 0x18100000#32 = .ok (.pairout 2) ∧
    decode 0x20040000#32 = .ok (.estart 0 2) ∧ decode 0x214A0000#32 = .ok (.edecay 9 1) ∧
    decode 0x22000000#32 = .ok (.eabort 0) ∧ decode 0x23000000#32 = .ok (.eintr 0 0)) ∧
  -- E-9
  (decode 0x30000000#32 = .ok (.pstart 0) ∧ decode 0x30100000#32 = .ok (.pstart 2) ∧
    decode 0x30180000#32 = .ok (.pstart 3) ∧ decode 0x31180000#32 = .ok (.pstop 3) ∧
    decode 0x32000000#32 = .ok (.pdecay 0) ∧ decode 0x33F80000#32 = .ok (.pabort 31) ∧
    decode 0x40000000#32 = .ok .tick) ∧
  -- E-10 to E-16
  (decode 0x05000000#32 = .error .reservedOpcode ∧ decode 0x02060000#32 = .error .illegalUnit ∧
    decode 0x02000100#32 = .error .reservedField ∧ decode 0x22020000#32 = .error .reservedField ∧
    decode 0x40080000#32 = .error .reservedField ∧ decode 0x10010000#32 = .error .reservedField ∧
    decode 0x00000001#32 = .error .reservedField)

/-! ### The step and the host's accesses -/

/-- Rules R85, R89, R105: when the host's next access writes to CMD a word that decodes to the command
i, the step is the effect of i, on the state without that access (the queue of accesses is the model's
choice, assumption log 1). -/
def Obligations.StepRunsTheDecodedCommand : Prop :=
  ∀ (s : State) (rest : List HostAccess) (w : Word) (i : Instr), decode w = .ok i →
    s.host = .write 0x800#12 w :: rest → step s = exec i { s with host := rest }

/-- Rules R105, R311, R312: a word that does not decode records the code of its error, 0x01, 0x02 or 0x03,
in ERR and changes nothing else but the queue of accesses (the model's choice,
assumption log 1). -/
def Obligations.ErroneousCommandChangesOnlyErr : Prop :=
  ∀ (s : State) (rest : List HostAccess) (w : Word) (e : ErrCode),
    s.host = .write 0x800#12 w :: rest → decode w = .error e →
    step s = .next (errored { s with host := rest } (codeOf e)) ∧ e ∈ [.reservedOpcode, .reservedField, .illegalUnit]

/-- Rules R5, R89, R340, and the model's own choice of a queue of accesses (assumption log 1): with no
access waiting a step changes nothing. -/
def Obligations.StepWaitsForTheHost : Prop := ∀ s : State, s.host = [] → step s = .next s

/-- Rule R86: a host read changes no register of the block; its data is what the register holds (the
field that keeps it is the model's, assumption log 2). -/
def Obligations.HostReadHasNoSideEffect : Prop :=
  ∀ (s : State) (rest : List HostAccess) (a : HostAddr), s.host = .read a :: rest →
    ∃ t, step s = .next t ∧ t = { s with host := rest, readData := readReg s a } ∧
      ∀ b, readReg t b = readReg s b

/-- Rules R13, R310: no step faults or is refused; a step with no access waiting is the model's own
(assumption log 1). -/
def Obligations.EveryStepAnswersANextState : Prop := ∀ s : State, ∃ t, step s = .next t

/-- Rules R33-R39, R50, R92: a host write of an RW register stores the value with its reserved bits 0;
every other register reads as before, and the only thing changed is the parameter registers of that
slot: no latch takes the value (the queue of accesses is the model's choice, assumption log 1). -/
def Obligations.ParameterWriteReadsBackMasked : Prop :=
  ∀ (s : State) (rest : List HostAccess) (i : SlotIx) (k : Nat) (v : Word), isParam k →
    s.host = .write (slotAddr i k) v :: rest →
    ∃ r : SlotRegs, let t := { s with host := rest }.modSlot i fun x => { x with regs := r }
      step s = .next t ∧ readReg t (slotAddr i k) = v &&& paramBits k ∧
        ∀ b, b ≠ slotAddr i k → readReg t b = readReg s b

/-- Rules R50, R53: a write to a read-only register or a reserved address records error 0x06 and
changes nothing else; a read of a reserved address returns 0 (the queue of accesses is the model's
choice, assumption log 1). -/
def Obligations.ReadOnlyAndReservedAddressesRefuseWrites : Prop :=
  ∀ (s : State) (rest : List HostAccess) (a : HostAddr) (v : Word),
    (blockOf a < 32 ∧ ¬isParam (indexOf a) ∨
      blockOf a = 32 ∧ indexOf a ≠ 0 ∧ indexOf a ≠ 2 ∧ indexOf a ≠ 3 ∧ indexOf a ≠ 4 ∨ 33 ≤ blockOf a) →
    s.host = .write a v :: rest →
    step s = .next (errored { s with host := rest } 0x06#8) ∧
      ((33 ≤ blockOf a ∨ blockOf a = 32 ∧ 10 ≤ indexOf a ∨
          blockOf a < 32 ∧ (indexOf a < 0x10 ∨ 0x28 ≤ indexOf a ∧ indexOf a < 0x2C ∨ indexOf a = 0x3F)) →
        readReg s a = 0#32)

/-- Rules R46, R47: writing ERR and IRQ_PEND clears what is written as 1, writing IRQ_EN replaces it,
and nothing else changes (the queue of accesses is the model's choice, assumption log 1). -/
def Obligations.ErrIrqPendAndIrqEnWrites : Prop :=
  ∀ (s : State) (rest : List HostAccess) (v : Word),
    (s.host = .write 0x802#12 v :: rest → step s = .next { s with
      host := rest
      err := s.err && !v.getLsbD 0
      errCode := if v.getLsbD 0 then 0#8 else s.errCode }) ∧
    (s.host = .write 0x803#12 v :: rest →
      ∃ pend : Word, step s = .next { s with host := rest, irqPend := pend } ∧
        ∀ k, pend.getLsbD k = (s.irqPend.getLsbD k && !v.getLsbD k)) ∧
    (s.host = .write 0x804#12 v :: rest → step s = .next { s with host := rest, irqEn := v })

/-- Rules R47, R316: the interrupt line is 1 exactly when some enabled bit is pending. -/
def Obligations.InterruptLineIsPendingAndEnabled : Prop :=
  ∀ s : State, irqLine s = true ↔
    ∃ k : SlotIx, s.irqPend.getLsbD k.toNat = true ∧ s.irqEn.getLsbD k.toNat = true

/-- Rules R45, R46, R48: the global registers, ACTIVE_MASK a view of the ACTIVE bits and ID a
constant; CMD reads 0. -/
def Obligations.GlobalRegistersRead : Prop :=
  ∀ s : State, readReg s 0x800#12 = 0#32 ∧ readReg s 0x801#12 = s.result ∧
    (readReg s 0x802#12).toNat = s.errCode.toNat * 2 ^ 8 + s.err.toNat ∧
    readReg s 0x803#12 = s.irqPend ∧ readReg s 0x804#12 = s.irqEn ∧ readReg s 0x805#12 = s.outL ∧
    readReg s 0x806#12 = s.outR ∧ readReg s 0x807#12 = s.sampleCnt ∧
    (∀ k : SlotIx, (readReg s 0x808#12).getLsbD k.toNat = (s.slot k).active) ∧
    readReg s 0x809#12 = 0x4C413332#32

/-- Rules R40-R43, R220: the read-only registers of a slot, each at its index and with its fields in their
places. -/
def Obligations.SlotStateRegistersRead : Prop :=
  ∀ (s : State) (i : SlotIx),
    (∀ c : Ctl, let r := (s.slot i).ramp.get c
      let k := 0x30 + 4 * (match c with | .tva => 0 | .tvp => 1 | .tvf => 2)
      (readReg s (slotAddr i k)).toNat = r.cur.toNat ∧
      (readReg s (slotAddr i (k + 1))).toNat = r.tgt.toNat ∧
      readReg s (slotAddr i (k + 2)) = r.inc ∧
      (readReg s (slotAddr i (k + 3))).toNat =
        (match r.rstate with | .idle => 0 | .moving => 1 | .counting => 2 | .done => 3) +
          4 * r.desc.toNat + 8 * r.irq.toNat + 2 ^ 8 * r.cnt.toNat) ∧
    (readReg s (slotAddr i 0x3C)).toNat =
      phaseNo (s.slot i).phase.tva + 2 ^ 4 * phaseNo (s.slot i).phase.tvp +
        2 ^ 8 * phaseNo (s.slot i).phase.tvf + 2 ^ 16 * (s.slot i).baseCutoff.toNat ∧
    (readReg s (slotAddr i 0x3D)).toNat =
      (s.slot i).active.toNat + 2 * (s.slot i).wave.active.toNat + 4 * (s.slot i).wave.pcm.toNat +
        2 ^ 4 * (match (s.slot i).role with | .independent => 0 | .ringMaster => 1 | .ringSlave => 2) +
        2 ^ 6 * (match (s.slot i).mix with
          | .independent => 0 | .ringAndMix => 1 | .ringOnly => 2 | .splitStereo => 3) ∧
    readReg s (slotAddr i 0x3E) = (s.slot i).wave.pos ∧
    (readReg s (slotAddr i 0x2D)).toNat =
      (s.slot i).wave.out1.logValue.toNat + 2 ^ 16 * (s.slot i).wave.out1.sign.toNat ∧
    (readReg s (slotAddr i 0x2E)).toNat =
      (s.slot i).wave.out2.logValue.toNat + 2 ^ 16 * (s.slot i).wave.out2.sign.toNat ∧
    (readReg s (slotAddr i 0x2C)).toInt = (s.slot i).pairOut.toInt ∧
    (readReg s (slotAddr i 0x2F)).toNat = (s.slot i).wave.pitchOut.toNat

/-! ### Reset -/

/-- Rules R341, R343: after reset every register reads 0 but ID, the hidden latches are 0, SYNTH is
SYNTH_INIT(0, 0, 0) and the interrupt line is 0. -/
def Obligations.ResetLeavesEveryRegisterZeroButId : Prop :=
  (∀ a, readReg State.reset a = if a = 0x809#12 then 0x4C413332#32 else 0#32) ∧
  (∀ i, let x := State.reset.slot i
    x.wave.saw = false ∧ x.wave.loop = false ∧ x.wave.interp = false ∧ x.wave.pw = 0#8 ∧
    x.wave.res = 0#8 ∧ x.wave.base = 0#24 ∧ x.wave.len = 0#24 ∧
    x.wave.synth = hw.synthInit false 0#8 0#8 ∧ ∀ c, x.lp.get c = latched ⟨0, 0, 0, 0, 0, 0, 0, 0⟩) ∧
  irqLine State.reset = false

/-! ### Ramp commands -/

/-- Rules R131, R133: RSTART. -/
def Obligations.RstartStartsItsRampAndNothingElse : Prop :=
  ∀ (s : State) (i : SlotIx) (u : BitVec 2) (c : Ctl) (tgt code : Byte), unitNames u c →
    exec (.rstart i u tgt code) s = .next (s.modSlot i fun x =>
      { x with ramp := x.ramp.set c (started hw (x.ramp.get c) tgt code) })

/-- Rules R134, R135: RNEXT steps its ramp once and returns its value in RESULT. -/
def Obligations.RnextStepsItsRampAndReturnsItsValue : Prop :=
  ∀ (s : State) (i : SlotIx) (u : BitVec 2) (c : Ctl), unitNames u c →
    let r := stepped ((s.slot i).ramp.get c)
    ∃ v : Word, v.toNat = r.cur.toNat ∧ exec (.rnext i u) s =
      .next { s.modSlot i (fun x => { x with ramp := x.ramp.set c r }) with result := v }

/-- Rule R140: RCHKI returns the deferred flag in RESULT and clears it. -/
def Obligations.RchkiReturnsAndClearsTheFlag : Prop :=
  ∀ (s : State) (i : SlotIx) (u : BitVec 2) (c : Ctl), unitNames u c →
    exec (.rchki i u) s = .next { s.modSlot i (fun x =>
      { x with ramp := x.ramp.set c { x.ramp.get c with irq := false } }) with
      result := if ((s.slot i).ramp.get c).irq then 1#32 else 0#32 }

/-- Rule R141: RRESET. -/
def Obligations.RresetZeroesItsRamp : Prop :=
  ∀ (s : State) (i : SlotIx) (u : BitVec 2) (c : Ctl), unitNames u c →
    exec (.rreset i u) s = .next (s.modSlot i fun x => { x with ramp := x.ramp.set c zeroed })

/-- The model's choice for terms that the decoder never gives (assumption log 10): `exec` of a command
that reads UNIT, with UNIT = 3, records error 0x03 and does nothing else, as rules R105 and R311 say of
its word. -/
def Obligations.UnitThreeRecordsIllegalUnit : Prop :=
  ∀ (s : State) (i : SlotIx) (tgt code : Byte),
    exec (.rstart i 3 tgt code) s = .next (errored s 0x03#8) ∧
    exec (.rnext i 3) s = .next (errored s 0x03#8) ∧ exec (.rchki i 3) s = .next (errored s 0x03#8) ∧
    exec (.rreset i 3) s = .next (errored s 0x03#8) ∧ exec (.estart i 3) s = .next (errored s 0x03#8) ∧
    exec (.edecay i 3) s = .next (errored s 0x03#8) ∧ exec (.eintr i 3) s = .next (errored s 0x03#8)

/-- Rule R136: a step of a moving ramp goes toward its target without passing it, or sets the value to
exactly TGT << 18 and ends the movement; it never leaves 0..MAX_CURRENT. -/
def Obligations.MovingRampNeverPassesItsTarget : Prop :=
  ∀ r : Ramp, r.rstate = .moving → r.cur.toNat ≤ maxCur →
    let q := rampStep r
    q.cur.toNat ≤ maxCur ∧
    (q.cur.toNat = bigTarget r.tgt ∧ q.rstate = .counting ∧ q.cnt = 7#8 ∨
      q.rstate = .moving ∧
        (r.desc = true ∧ bigTarget r.tgt < q.cur.toNat ∧ q.cur.toNat + r.inc.toNat = r.cur.toNat ∨
         r.desc = false ∧ q.cur.toNat < bigTarget r.tgt ∧ q.cur.toNat = r.cur.toNat + r.inc.toNat))

/-- Rule R138: an idle ramp never moves and never raises its flag; code 0x00 and RRESET make a ramp
idle. -/
def Obligations.IdleRampIsFrozenForever : Prop :=
  (∀ (r : Ramp) (n : Nat), r.rstate = .idle → rampStep^[n] r = r) ∧
  (∀ (p : Params) (r : Ramp) (tgt : Byte), (startRamp p r tgt 0#8).rstate = .idle ∧
    (startRamp p r tgt 0#8).cur = r.cur ∧ (startRamp p r tgt 0#8).irq = false) ∧
  resetRamp.rstate = .idle

/-- Rules R137, R139, R142, R143, for every RAMP_INC: a ramp started with a non-zero code reaches
exactly TGT << 18 at step k of rule R139, which is at most MAX_CURRENT, holds it, and raises its flag
during step k + 7 and never earlier; a flag then cleared is not raised again. A ramp started with code
0x00 never raises it. -/
def Obligations.RampReachesItsTargetAndInterruptsExactlyOnce : Prop :=
  ∀ (p : Params) (r : Ramp) (tgt code : Byte), r.cur.toNat ≤ maxCur →
    (code = 0#8 → ∀ n, (rampStep^[n] (startRamp p r tgt code)).irq = false) ∧
    (code ≠ 0#8 →
      let k := stepsToTarget r.cur.toNat (bigTarget tgt) (increment p code) (code.getLsbD 7)
      k ≤ maxCur ∧ ∀ n, let q := rampStep^[n] (startRamp p r tgt code)
        (n < k → q.rstate = .moving) ∧
        (k ≤ n → q.cur.toNat = bigTarget tgt) ∧
        (q.irq = true ↔ k + 7 ≤ n) ∧
        (k + 7 ≤ n → ∀ m, (rampStep^[m] { q with irq := false }).irq = false))

/-! ### Wave commands -/

/-- Rules R160, R161: WINIT latches the wave, or records error 0x04 for a PCM wave out of range. -/
def Obligations.WinitLatchesTheWaveOrRecordsPcmRange : Prop :=
  ∀ (s : State) (i : SlotIx),
    (outOfRange hw (s.slot i).regs → exec (.winit i) s = .next (errored s 0x04#8)) ∧
    (¬outOfRange hw (s.slot i).regs → exec (.winit i) s = .next (s.modSlot i (waveStarted hw)))

/-- Rules R162, R163, R165-R167, R169: WGEN. That PITCH_OUT is written also when the wave generator is
inactive is the model's reading (assumption log 5). -/
def Obligations.WgenGeneratesOneSample : Prop :=
  ∀ (s : State) (i : SlotIx), exec (.wgen i) s = .next (s.modSlot i (generated hw))

/-- Rule R174: WDEACT. -/
def Obligations.WdeactClearsOnlyWgActive : Prop :=
  ∀ (s : State) (i : SlotIx), exec (.wdeact i) s = .next (s.modSlot i fun x =>
    { x with wave := { x.wave with active := false } })

/-- Rule R168: a PCM step of a wave inside the ROM stays inside it, or ends at L_LEN << F with the wave
generator inactive; and the wave lies below PCM_ROM_WORDS and no word outside it can be seen by the step
(two ROMs that agree on L_BASE .. L_BASE + L_LEN - 1 give the same step). -/
def Obligations.PcmStepStaysInsideTheRom : Prop :=
  ∀ (p : Params) (w : Wave) (amp : BitVec 26) (pitch : BitVec 16), w.Ok p → w.active = true →
    w.pcm = true →
    (let v := pcmStep p w amp pitch
     v.active = true ∧ v.pos.toNat < v.len.toNat * 2 ^ p.pcmFracBits ∨
       v.active = false ∧ w.loop = false ∧ v.pos.toNat = v.len.toNat * 2 ^ p.pcmFracBits) ∧
    w.base.toNat + w.len.toNat ≤ p.pcmRomWords ∧
    ∀ rom : Nat → BitVec 16,
      (∀ a, w.base.toNat ≤ a → a < w.base.toNat + w.len.toNat → rom a = p.pcmRom a) →
      pcmStep { p with pcmRom := rom } w amp pitch = pcmStep p w amp pitch

/-! ### Pair -/

/-- Rules R200-R203: PAIROUT. -/
def Obligations.PairoutReturnsThePairSample : Prop :=
  ∀ (s : State) (i : SlotIx), let v := paired hw (s.slot i) (s.slot (i + 1#5))
    ∃ w : Word, w.toInt = v.toInt ∧ exec (.pairout i) s =
      .next { s.modSlot i (fun x => { x with pairOut := v }) with result := w }

/-- Rules R204, R205, R207, for every RING_SHIFT: the multiplier takes the low 14 bits of each input as
a signed number, its product is exact in 28 bits, the shift rounds down, and the result wraps to 16
bits. -/
def Obligations.RingMultiplierTruncatesTo14Bits : Prop :=
  ∀ (p : Params) (m sl : BitVec 16), ringMul p m sl = ringOf p m sl ∧
    -8192 ≤ low14 m ∧ low14 m ≤ 8191 ∧
    (-8192 ≤ m.toInt → m.toInt ≤ 8191 → t14 m = m.toInt) ∧
    (m.toInt = 8192 → t14 m = -8192) ∧ (m.toInt = -8193 → t14 m = 8191) ∧
    -2 ^ 27 ≤ t14 m * t14 sl ∧ t14 m * t14 sl < 2 ^ 27

/-! ### Envelope commands -/

/-- Rule R228 (with R221-R225, R227): ESTART. -/
def Obligations.EstartLatchesAndEntersTheFirstPhase : Prop :=
  ∀ (s : State) (i : SlotIx) (u : BitVec 2) (c : Ctl), unitNames u c →
    exec (.estart i u) s = .next (s.modSlot i fun x => envStarted hw x c)

/-- Rules R240, R227: EDECAY. -/
def Obligations.EdecayReleasesUnlessReleasingOrDead : Prop :=
  ∀ (s : State) (i : SlotIx) (u : BitVec 2) (c : Ctl), unitNames u c →
    exec (.edecay i u) s = .next (s.modSlot i fun x => envDecayed hw x c)

/-- Rule R243: EABORT. -/
def Obligations.EabortReleasesTheAmplitudeFast : Prop :=
  ∀ (s : State) (i : SlotIx), exec (.eabort i) s = .next (s.modSlot i (envAborted hw))

/-- Rules R229-R231, R235: EINTR takes the transition of the controller's phase. -/
def Obligations.EintrTakesThePhaseTransition : Prop :=
  ∀ (s : State) (i : SlotIx) (u : BitVec 2) (c : Ctl), unitNames u c →
    exec (.eintr i u) s = .next (s.modSlot i fun x => interrupt hw x c)

/-- Rule R232: an envelope step steps the ramp and consumes the flag in the same sample. -/
def Obligations.EnvelopeStepConsumesItsInterrupt : Prop :=
  ∀ (p : Params) (x : Slot) (c : Ctl),
    envStep p x c = envAdvanced p x c ∧ ((envStep p x c).ramp.get c).irq = false

/-- Rules R241, R242, for all parameters: a controller that EDECAY releases is in RELEASE until step
k + 7 of its envelope and DEAD from then on, k being rule R139's step for its release ramp; k is at most
MAX_CURRENT, so a release always ends. -/
def Obligations.ReleaseAlwaysEndsSevenStepsAfterItsTarget : Prop :=
  ∀ (p : Params) (x : Slot) (c : Ctl), (x.ramp.get c).cur.toNat ≤ maxCur →
    x.phase.get c ≠ .release → x.phase.get c ≠ .dead →
    let y := decayEnv p x c
    let q := y.ramp.get c
    let k := stepsToTarget q.cur.toNat (bigTarget q.tgt) q.inc.toNat q.desc
    k ≤ maxCur ∧ ∀ n, ((fun z => envStep p z c)^[n] y).phase.get c = if n < k + 7 then .release else .dead

/-- Rule R233, the envelope's part, for all parameters: the TVA of a slot whose four latched levels are 0
and whose amplitude ramp is at 0 is in RELEASE for seven steps and DEAD from the eighth on, and its
ramp stays at 0. -/
def Obligations.AllLevelsZeroEndsInEightSteps : Prop :=
  ∀ (p : Params) (x : Slot), x.ramp.tva.cur = 0#26 →
    (latched x.regs.env.tva).ll0 = 0#8 → (latched x.regs.env.tva).ll1 = 0#8 →
    (latched x.regs.env.tva).ll2 = 0#8 → (latched x.regs.env.tva).ll3 = 0#8 →
    ∀ n, let y := (fun z => envStep p z .tva)^[n] (startEnv p x .tva)
      y.phase.tva = (if n < 8 then .release else .dead) ∧ y.ramp.tva.cur = 0#26

/-- Rule R243, the corner cases, for all parameters: whatever the phase of a TVA that is not DEAD, an
abort puts it in RELEASE, and in DEAD seven steps after its ramp reaches 0 and not before; TVP and TVF
are untouched. -/
def Obligations.AbortEndsSevenStepsAfterReachingZero : Prop :=
  ∀ (p : Params) (x : Slot), x.ramp.tva.cur.toNat ≤ maxCur → x.phase.tva ≠ .dead →
    let y := abortEnv p x
    let k := stepsToTarget x.ramp.tva.cur.toNat 0 (increment p p.abortCode) true
    y.phase.tvp = x.phase.tvp ∧ y.phase.tvf = x.phase.tvf ∧ y.ramp.tvp = x.ramp.tvp ∧
    y.ramp.tvf = x.ramp.tvf ∧ k ≤ maxCur ∧
    ∀ n, ((fun z => envStep p z .tva)^[n] y).phase.tva = if n < k + 7 then .release else .dead

/-- Rule R234: a command moves a phase only forward, but for the VIB4 to VIB3 retrigger of TVP and for
the ESTART of that controller or the PSTART of its slot. -/
def Obligations.PhasesOnlyMoveForward : Prop :=
  ∀ (i : Instr) (s t : State), exec i s = .next t → ∀ (k : SlotIx) (c : Ctl),
    phaseNo ((s.slot k).phase.get c) ≤ phaseNo ((t.slot k).phase.get c) ∨
    (c = .tvp ∧ (s.slot k).phase.get c = .p4 ∧ (t.slot k).phase.get c = .p3) ∨
    (∃ u, unitNames u c ∧ i = .estart k u) ∨ i = .pstart k

/-! ### Partial commands and TICK -/

/-- Rule R270: NOP. -/
def Obligations.NopChangesNothing : Prop := ∀ s : State, exec .nop s = .next s

/-- Rule R271 (with R160, R228, R313): PSTART. A PCM wave out of range is error 0x04 and nothing else;
an active slot is recorded as error 0x05 and deactivated first; then the slot is bound and started. -/
def Obligations.PstartStartsTheSlot : Prop :=
  ∀ (s : State) (i : SlotIx),
    (outOfRange hw (s.slot i).regs → exec (.pstart i) s = .next (errored s 0x04#8)) ∧
    (¬outOfRange hw (s.slot i).regs → (s.slot i).active = false →
      exec (.pstart i) s = .next (s.modSlot i (partialStarted hw (pairMix s i) i))) ∧
    (¬outOfRange hw (s.slot i).regs → (s.slot i).active = true →
      exec (.pstart i) s =
        .next ((deactivate (errored s 0x05#8) i).modSlot i (partialStarted hw (pairMix s i) i)))

/-- Rules R272, R280, R281: PSTOP, with the coupling of a ring pair in full: an inactive slot changes
nothing; a ring master takes its active ring slave with it, a ring slave of L_MIX 2 its active ring
master, and no other slot is touched. -/
def Obligations.PstopDeactivatesTheSlotAndItsCoupledPartner : Prop :=
  ∀ (s : State) (i : SlotIx),
    let x := s.slot i
    let t := s.slot (i + 1#5)
    let m := s.slot (i - 1#5)
    exec (.pstop i) s = .next
      (if x.active = false then s
       else if x.role = .ringMaster ∧ t.active = true ∧ t.role = .ringSlave then ended (ended s i) (i + 1#5)
       else if x.role = .ringSlave ∧ x.mix = .ringOnly ∧ m.active = true ∧ m.role = .ringMaster then
         ended (ended s i) (i - 1#5)
       else ended s i)

/-- Rule R280: `deactivate` satisfies the recursive pseudocode of Deactivate. -/
def Obligations.DeactivateMeetsItsRecursion : Prop :=
  ∀ (s : State) (i : SlotIx),
    deactivate s i =
      if (s.slot i).active = false then s
      else
        let u := ended s i
        if (u.slot i).role = .ringMaster then
          if (u.slot (i + 1#5)).active = true ∧ (u.slot (i + 1#5)).role = .ringSlave then
            deactivate u (i + 1#5) else u
        else if (u.slot i).role = .ringSlave ∧ (u.slot i).mix = .ringOnly then
          if (u.slot (i - 1#5)).active = true ∧ (u.slot (i - 1#5)).role = .ringMaster then
            deactivate u (i - 1#5) else u
        else u

/-- Rules R273, R240: PDECAY. -/
def Obligations.PdecayReleasesEveryEnvelopeOfAnActiveSlot : Prop :=
  ∀ (s : State) (i : SlotIx), exec (.pdecay i) s = .next (s.modSlot i fun x =>
    if x.active = true then envDecayed hw (envDecayed hw (envDecayed hw x .tva) .tvp) .tvf else x)

/-- Rules R274, R243: PABORT. -/
def Obligations.PabortAbortsAnActiveSlot : Prop :=
  ∀ (s : State) (i : SlotIx), exec (.pabort i) s = .next (s.modSlot i fun x =>
    if x.active = true then envAborted hw x else x)

/-- Rules R285, R343: a TICK with no active slot clears the frame, counts the sample and changes nothing
else. -/
def Obligations.TickWithNoActiveSlotOnlyCounts : Prop :=
  ∀ s : State, (∀ i, (s.slot i).active = false) →
    exec .tick s = .next { s with outL := 0#32, outR := 0#32, sampleCnt := s.sampleCnt + 1#32 }

/-- Rules R280-R282, R285-R288: TICK completes on every safe state, and says of every slot what it does
with it. An inactive slot is unchanged. An active slot stays active exactly when `staysActive` says so.
One that stays active has been advanced by exactly one sample, and its PAIR_OUT is its pair sample with
the slot after it, unless it is an attached ring slave, whose PAIR_OUT is unchanged. One that ends
inactive has lost ACTIVE and WG_ACTIVE and nothing else: as it was before the TICK if it was not alive
or an attached slave, else (a ring master that its dead slave takes with it) after its own sample's
advance. -/
def Obligations.TickAdvancesEveryActiveSlotOnce : Prop :=
  ∀ s : State, s.Inv → ∃ t, exec .tick s = .next t ∧ t.sampleCnt = s.sampleCnt + 1#32 ∧
    t.result = s.result ∧ t.err = s.err ∧ t.errCode = s.errCode ∧ t.irqEn = s.irqEn ∧ t.host = s.host ∧
    t.readData = s.readData ∧ ∀ i, let x := s.slot i; let y := t.slot i
      (x.active = false → y = x) ∧
      (x.active = true → (y.active = true ↔ staysActive s i)) ∧
      (y.active = true →
        (attached s i → y = { sampled hw x with pairOut := x.pairOut }) ∧
        (¬attached s i →
          y = { sampled hw x with pairOut := paired hw (sampled hw x) (t.slot (i + 1#5)) })) ∧
      (x.active = true → y.active = false →
        (¬isAlive x ∨ attached s i → y = silent x) ∧
        (isAlive x → ¬attached s i → y = silent (sampled hw x))) ∧
      (y.regs = x.regs ∧ y.role = x.role ∧ y.mix = x.mix ∧ y.lp = x.lp ∧ y.baseCutoff = x.baseCutoff)

/-- Rules R286, R289: OUT_L and OUT_R are the exact sums of the pan contributions of the slots that are
active after the TICK and are not attached ring slaves; they never wrap. -/
def Obligations.TickFrameIsTheSumOfItsSlots : Prop :=
  ∀ s t : State, s.Inv → exec .tick s = .next t →
    ∃ emits : SlotIx → Bool, (∀ i, emits i = true ↔ (t.slot i).active = true ∧ ¬attached s i) ∧
      t.outL.toInt = ((List.range 32).map fun k => let i := BitVec.ofNat 5 k
        if emits i then contribution hw (t.slot i).pairOut ((s.slot i).regs.pan.toNat % 2 ^ 8) else 0).sum ∧
      t.outR.toInt = ((List.range 32).map fun k => let i := BitVec.ofNat 5 k
        if emits i then contribution hw (t.slot i).pairOut ((s.slot i).regs.pan.toNat / 2 ^ 8 % 2 ^ 8)
        else 0).sum

/-- Rule R292: on safe states, a slot that is active with its TVA in RELEASE and its amplitude ramp
moving is inactive after k + 8 TICKs, k being rule R139's step for that ramp, when no other command
comes between. -/
def Obligations.ReleasedSlotIsDeactivatedByTicks : Prop :=
  ∀ (s : State) (i : SlotIx) (f : Nat → State), s.Inv → (s.slot i).active = true →
    (s.slot i).phase.tva = .release → (s.slot i).ramp.tva.rstate = .moving →
    f 0 = s → (∀ n, exec .tick (f n) = .next (f (n + 1))) →
    let r := (s.slot i).ramp.tva
    ∀ n, stepsToTarget r.cur.toNat (bigTarget r.tgt) r.inc.toNat r.desc + 8 ≤ n →
      ((f n).slot i).active = false

/-- Rules R44, R351: TICK does not see WG_CFG, PCM_BASE, PCM_LEN, PAIR_CFG or an envelope parameter
group: rewriting them before a TICK or after it gives the same state. -/
def Obligations.TickIgnoresUnlatchedParameters : Prop :=
  ∀ (s t : State) (g : SlotIx → SlotRegs),
    (∀ i, (g i).pan = (s.slot i).regs.pan ∧ (g i).note = (s.slot i).regs.note ∧
      (g i).ctrlIn = (s.slot i).regs.ctrlIn ∧ (g i).bendIn = (s.slot i).regs.bendIn) →
    exec .tick s = .next t →
    ∀ s' : State, (∀ i, s'.slot i = { s.slot i with regs := g i }) → { s' with slots := s.slots } = s →
    ∃ t', exec .tick s' = .next t' ∧ (∀ i, t'.slot i = { t.slot i with regs := g i }) ∧
      { t' with slots := t.slots } = t

/-! ### Rules of the whole machine -/

/-- Rules R51, R107: what a command can write outside its slots. No command writes a parameter register,
IRQ_EN or the host's side; only RNEXT, RCHKI and PAIROUT write RESULT; only TICK writes OUT_L, OUT_R and
SAMPLE_CNT; only PSTART, PSTOP and TICK write IRQ_PEND; and a well-formed command other than WINIT and
PSTART leaves ERR. -/
def Obligations.CommandsWriteOnlyTheirState : Prop :=
  ∀ (i : Instr) (s t : State), exec i s = .next t →
    (∀ k, (t.slot k).regs = (s.slot k).regs) ∧ t.irqEn = s.irqEn ∧ t.host = s.host ∧
    t.readData = s.readData ∧
    ((∀ k u, i ≠ .rnext k u) → (∀ k u, i ≠ .rchki k u) → (∀ k, i ≠ .pairout k) → t.result = s.result) ∧
    (i ≠ .tick → t.outL = s.outL ∧ t.outR = s.outR ∧ t.sampleCnt = s.sampleCnt) ∧
    ((∀ k, i ≠ .pstart k) → (∀ k, i ≠ .pstop k) → i ≠ .tick → t.irqPend = s.irqPend) ∧
    (i.wf = true → (∀ k, i ≠ .winit k) → (∀ k, i ≠ .pstart k) →
      t.err = s.err ∧ t.errCode = s.errCode)

/-- Rules R47, R280, R316, R318: over every command, a slot's IRQ_PEND bit is set exactly when the
command makes the slot inactive, and is never cleared; the one other case is the slot's own PSTART when
the slot was active, which ends with the bit 1 and the slot active again. -/
def Obligations.IrqPendRecordsEveryDeactivation : Prop :=
  ∀ (i : Instr) (s t : State), exec i s = .next t → ∀ k : SlotIx,
    t.irqPend.getLsbD k.toNat =
      (s.irqPend.getLsbD k.toNat || ((s.slot k).active && !(t.slot k).active)) ∨
    (i = .pstart k ∧ (s.slot k).active = true ∧ t.irqPend.getLsbD k.toNat = true)

/-- Rules R271, R280: only its own PSTART makes a slot active. -/
def Obligations.OnlyPstartActivatesASlot : Prop :=
  ∀ (i : Instr) (s t : State), exec i s = .next t → ∀ k, (s.slot k).active = false →
    (t.slot k).active = true → i = .pstart k

/-- Rules R46, R312: a recorded error and its code stay until the host writes 1 to bit 0 of ERR
(the queue of accesses is the model's choice, assumption log 1). -/
def Obligations.ErrorStaysUntilTheHostClearsIt : Prop :=
  ∀ s t : State, step s = .next t → s.err = true →
    (t.err = true ∧ t.errCode = s.errCode) ∨
    ∃ v rest, s.host = .write 0x802#12 v :: rest ∧ v.getLsbD 0 = true

/-- Rules R130, R168, R202, R289 and R50, as `State.Inv` says them: the state after reset is safe. -/
def Obligations.ResetStateIsSafe : Prop := State.reset.Inv

/-- Rules R130, R168, R202, R289 and R50: every step, whatever the host's access, keeps a safe state
safe (the queue of accesses is the model's choice, assumption log 1). -/
def Obligations.EveryStepKeepsTheStateSafe : Prop :=
  ∀ s t : State, s.Inv → step s = .next t → t.Inv

/-! ### The order of ESTARTs -/

/-- Rule R271 (with R224, R228, R236): the order of two ESTARTs of one slot, the three of PSTART among
them, is not observable: both orders complete in the same state. That only TVF reads BASE_CUTOFF is a
constraint on TARGET_FN (assumption log 19). -/
def Obligations.EstartOrderIsNotObservable : Prop :=
  ∀ (s : State) (i : SlotIx) (u v : BitVec 2) (c d : Ctl), unitNames u c → unitNames v d →
    ∃ a b t, exec (.estart i u) s = .next a ∧ exec (.estart i v) a = .next t ∧
      exec (.estart i v) s = .next b ∧ exec (.estart i u) b = .next t
end

