-- ==== Sys2Proof/Laws/State.lean ====
section
/-! SUPPORT. Reading after writing: what each accessor of State, Slot and Trio returns after each
update, one lemma per field per update. -/

namespace Sys2Proof.Machine

/-! ### Slot numbers -/

theorem slotIx_lt (i : SlotIx) : i.toNat < 32 := i.isLt

theorem slotIx_ext {i j : SlotIx} (h : i.toNat = j.toNat) : i = j := BitVec.eq_of_toNat_eq h

theorem slot_succ_ne (i : SlotIx) : i + 1#5 ≠ i := by revert i; decide

theorem slot_pred_ne (i : SlotIx) : i - 1#5 ≠ i := by revert i; decide

@[simp] theorem slot_succ_pred (i : SlotIx) : i + 1#5 - 1#5 = i := by revert i; decide

@[simp] theorem slot_pred_succ (i : SlotIx) : i - 1#5 + 1#5 = i := by revert i; decide

theorem slotEven_succ {i : SlotIx} (h : slotEven i = true) : slotEven (i + 1#5) = false := by
  revert i; decide

theorem slotEven_pred {i : SlotIx} (h : slotEven i = false) : slotEven (i - 1#5) = true := by
  revert i; decide

/-! ### Reading and writing a slot -/

@[simp] theorem slot_setSlot_same (s : State) (i : SlotIx) (x : Slot) : (s.setSlot i x).slot i = x := by
  simp [State.slot, State.setSlot]

theorem slot_setSlot_ne (s : State) {i j : SlotIx} (x : Slot) (h : j ≠ i) :
    (s.setSlot i x).slot j = s.slot j := by
  have h' : i.toNat ≠ j.toNat := fun e => h (slotIx_ext e.symm)
  simp [State.slot, State.setSlot, h']

theorem slot_setSlot (s : State) (i j : SlotIx) (x : Slot) :
    (s.setSlot i x).slot j = if j = i then x else s.slot j := by
  by_cases h : j = i
  · subst h; simp
  · simp [slot_setSlot_ne s x h, h]

@[simp] theorem slot_modSlot_same (s : State) (i : SlotIx) (f : Slot → Slot) :
    (s.modSlot i f).slot i = f (s.slot i) := by
  simp [State.modSlot]

theorem slot_modSlot_ne (s : State) {i j : SlotIx} (f : Slot → Slot) (h : j ≠ i) :
    (s.modSlot i f).slot j = s.slot j := slot_setSlot_ne s _ h

theorem slot_modSlot (s : State) (i j : SlotIx) (f : Slot → Slot) :
    (s.modSlot i f).slot j = if j = i then f (s.slot i) else s.slot j := slot_setSlot s i j _

/-- Two states with the same slots and the same other fields are the same. -/
theorem state_ext {s t : State} (h : ∀ i, s.slot i = t.slot i) (h1 : s.result = t.result)
    (h2 : s.err = t.err) (h3 : s.errCode = t.errCode) (h4 : s.irqPend = t.irqPend)
    (h5 : s.irqEn = t.irqEn) (h6 : s.outL = t.outL) (h7 : s.outR = t.outR)
    (h8 : s.sampleCnt = t.sampleCnt) (h9 : s.host = t.host) (h10 : s.readData = t.readData) : s = t := by
  have hs : s.slots = t.slots := by
    apply Vector.ext
    intro k hk
    have := h (BitVec.ofNat 5 k)
    simpa [State.slot, Nat.mod_eq_of_lt hk] using this
  cases s; cases t; simp_all

@[simp] theorem slot_mk (sl : Vector Slot 32) (a : Word) (b : Bool) (c : Byte) (d e f g k : Word)
    (l : List HostAccess) (m : Word) (i : SlotIx) :
    State.slot ⟨sl, a, b, c, d, e, f, g, k, l, m⟩ i = sl[i.toNat]'i.isLt := rfl

@[simp] theorem getElem_slots (s : State) (i : SlotIx) (h : i.toNat < 32) :
    s.slots[i.toNat]'h = s.slot i := rfl

/-! ### The other fields after a slot write -/

@[simp] theorem setSlot_result (s : State) (i : SlotIx) (x : Slot) : (s.setSlot i x).result = s.result := rfl
@[simp] theorem setSlot_err (s : State) (i : SlotIx) (x : Slot) : (s.setSlot i x).err = s.err := rfl
@[simp] theorem setSlot_errCode (s : State) (i : SlotIx) (x : Slot) : (s.setSlot i x).errCode = s.errCode := rfl
@[simp] theorem setSlot_irqPend (s : State) (i : SlotIx) (x : Slot) : (s.setSlot i x).irqPend = s.irqPend := rfl
@[simp] theorem setSlot_irqEn (s : State) (i : SlotIx) (x : Slot) : (s.setSlot i x).irqEn = s.irqEn := rfl
@[simp] theorem setSlot_outL (s : State) (i : SlotIx) (x : Slot) : (s.setSlot i x).outL = s.outL := rfl
@[simp] theorem setSlot_outR (s : State) (i : SlotIx) (x : Slot) : (s.setSlot i x).outR = s.outR := rfl
@[simp] theorem setSlot_sampleCnt (s : State) (i : SlotIx) (x : Slot) : (s.setSlot i x).sampleCnt = s.sampleCnt := rfl
@[simp] theorem setSlot_host (s : State) (i : SlotIx) (x : Slot) : (s.setSlot i x).host = s.host := rfl
@[simp] theorem setSlot_readData (s : State) (i : SlotIx) (x : Slot) : (s.setSlot i x).readData = s.readData := rfl

@[simp] theorem modSlot_result (s : State) (i : SlotIx) (f : Slot → Slot) : (s.modSlot i f).result = s.result := rfl
@[simp] theorem modSlot_err (s : State) (i : SlotIx) (f : Slot → Slot) : (s.modSlot i f).err = s.err := rfl
@[simp] theorem modSlot_errCode (s : State) (i : SlotIx) (f : Slot → Slot) : (s.modSlot i f).errCode = s.errCode := rfl
@[simp] theorem modSlot_irqPend (s : State) (i : SlotIx) (f : Slot → Slot) : (s.modSlot i f).irqPend = s.irqPend := rfl
@[simp] theorem modSlot_irqEn (s : State) (i : SlotIx) (f : Slot → Slot) : (s.modSlot i f).irqEn = s.irqEn := rfl
@[simp] theorem modSlot_outL (s : State) (i : SlotIx) (f : Slot → Slot) : (s.modSlot i f).outL = s.outL := rfl
@[simp] theorem modSlot_outR (s : State) (i : SlotIx) (f : Slot → Slot) : (s.modSlot i f).outR = s.outR := rfl
@[simp] theorem modSlot_sampleCnt (s : State) (i : SlotIx) (f : Slot → Slot) : (s.modSlot i f).sampleCnt = s.sampleCnt := rfl
@[simp] theorem modSlot_host (s : State) (i : SlotIx) (f : Slot → Slot) : (s.modSlot i f).host = s.host := rfl
@[simp] theorem modSlot_readData (s : State) (i : SlotIx) (f : Slot → Slot) : (s.modSlot i f).readData = s.readData := rfl

/-! ### Recording an error -/

@[simp] theorem record_slot (s : State) (e : ErrCode) (i : SlotIx) : (s.record e).slot i = s.slot i := rfl
@[simp] theorem record_err (s : State) (e : ErrCode) : (s.record e).err = true := rfl
@[simp] theorem record_errCode (s : State) (e : ErrCode) :
    (s.record e).errCode = if s.err then s.errCode else e.toByte := rfl
@[simp] theorem record_result (s : State) (e : ErrCode) : (s.record e).result = s.result := rfl
@[simp] theorem record_irqPend (s : State) (e : ErrCode) : (s.record e).irqPend = s.irqPend := rfl
@[simp] theorem record_irqEn (s : State) (e : ErrCode) : (s.record e).irqEn = s.irqEn := rfl
@[simp] theorem record_outL (s : State) (e : ErrCode) : (s.record e).outL = s.outL := rfl
@[simp] theorem record_outR (s : State) (e : ErrCode) : (s.record e).outR = s.outR := rfl
@[simp] theorem record_sampleCnt (s : State) (e : ErrCode) : (s.record e).sampleCnt = s.sampleCnt := rfl
@[simp] theorem record_host (s : State) (e : ErrCode) : (s.record e).host = s.host := rfl
@[simp] theorem record_readData (s : State) (e : ErrCode) : (s.record e).readData = s.readData := rfl
@[simp] theorem logError_eq_record (s : State) (e : ErrCode) : s.logError e = s.record e := rfl
@[simp] theorem logWarn_eq_record (s : State) (e : ErrCode) : s.logWarn e = s.record e := rfl

/-! ### Trios -/

@[simp] theorem trio_get_set_same {α : Type} (x : Trio α) (c : Ctl) (v : α) : (x.set c v).get c = v := by
  cases c <;> rfl

theorem trio_get_set_ne {α : Type} (x : Trio α) {c d : Ctl} (v : α) (h : d ≠ c) :
    (x.set c v).get d = x.get d := by
  cases c <;> cases d <;> first | rfl | exact absurd rfl h

theorem trio_get_set {α : Type} (x : Trio α) (c d : Ctl) (v : α) :
    (x.set c v).get d = if d = c then v else x.get d := by
  cases c <;> cases d <;> rfl

theorem trio_ext {α : Type} {x y : Trio α} (h : ∀ c, x.get c = y.get c) : x = y := by
  have h1 := h .tva; have h2 := h .tvp; have h3 := h .tvf
  cases x; cases y; simp_all [Trio.get]

@[simp] theorem trio_set_get {α : Type} (x : Trio α) (c : Ctl) : x.set c (x.get c) = x := by
  cases c <;> rfl

@[simp] theorem trio_set_set {α : Type} (x : Trio α) (c : Ctl) (u v : α) : (x.set c u).set c v = x.set c v := by
  cases c <;> rfl

/-- The members of a trio, as `get` reads them. -/
theorem trio_tva_eq_get {α : Type} (x : Trio α) : x.tva = x.get .tva := rfl
theorem trio_tvp_eq_get {α : Type} (x : Trio α) : x.tvp = x.get .tvp := rfl
theorem trio_tvf_eq_get {α : Type} (x : Trio α) : x.tvf = x.get .tvf := rfl

/-! ### A slot's fields after a ramp or phase write -/

@[simp] theorem modRamp_regs (x : Slot) (c : Ctl) (f : Ramp → Ramp) : (x.modRamp c f).regs = x.regs := rfl
@[simp] theorem modRamp_phase (x : Slot) (c : Ctl) (f : Ramp → Ramp) : (x.modRamp c f).phase = x.phase := rfl
@[simp] theorem modRamp_lp (x : Slot) (c : Ctl) (f : Ramp → Ramp) : (x.modRamp c f).lp = x.lp := rfl
@[simp] theorem modRamp_baseCutoff (x : Slot) (c : Ctl) (f : Ramp → Ramp) : (x.modRamp c f).baseCutoff = x.baseCutoff := rfl
@[simp] theorem modRamp_wave (x : Slot) (c : Ctl) (f : Ramp → Ramp) : (x.modRamp c f).wave = x.wave := rfl
@[simp] theorem modRamp_active (x : Slot) (c : Ctl) (f : Ramp → Ramp) : (x.modRamp c f).active = x.active := rfl
@[simp] theorem modRamp_role (x : Slot) (c : Ctl) (f : Ramp → Ramp) : (x.modRamp c f).role = x.role := rfl
@[simp] theorem modRamp_mix (x : Slot) (c : Ctl) (f : Ramp → Ramp) : (x.modRamp c f).mix = x.mix := rfl
@[simp] theorem modRamp_pairOut (x : Slot) (c : Ctl) (f : Ramp → Ramp) : (x.modRamp c f).pairOut = x.pairOut := rfl
@[simp] theorem modRamp_ramp_same (x : Slot) (c : Ctl) (f : Ramp → Ramp) :
    (x.modRamp c f).ramp.get c = f (x.ramp.get c) := by simp [Slot.modRamp]
theorem modRamp_ramp_ne (x : Slot) {c d : Ctl} (f : Ramp → Ramp) (h : d ≠ c) :
    (x.modRamp c f).ramp.get d = x.ramp.get d := trio_get_set_ne _ _ h

@[simp] theorem setPhase_regs (x : Slot) (c : Ctl) (ph : Phase) : (x.setPhase c ph).regs = x.regs := rfl
@[simp] theorem setPhase_ramp (x : Slot) (c : Ctl) (ph : Phase) : (x.setPhase c ph).ramp = x.ramp := rfl
@[simp] theorem setPhase_lp (x : Slot) (c : Ctl) (ph : Phase) : (x.setPhase c ph).lp = x.lp := rfl
@[simp] theorem setPhase_baseCutoff (x : Slot) (c : Ctl) (ph : Phase) : (x.setPhase c ph).baseCutoff = x.baseCutoff := rfl
@[simp] theorem setPhase_wave (x : Slot) (c : Ctl) (ph : Phase) : (x.setPhase c ph).wave = x.wave := rfl
@[simp] theorem setPhase_active (x : Slot) (c : Ctl) (ph : Phase) : (x.setPhase c ph).active = x.active := rfl
@[simp] theorem setPhase_role (x : Slot) (c : Ctl) (ph : Phase) : (x.setPhase c ph).role = x.role := rfl
@[simp] theorem setPhase_mix (x : Slot) (c : Ctl) (ph : Phase) : (x.setPhase c ph).mix = x.mix := rfl
@[simp] theorem setPhase_pairOut (x : Slot) (c : Ctl) (ph : Phase) : (x.setPhase c ph).pairOut = x.pairOut := rfl
@[simp] theorem setPhase_phase_same (x : Slot) (c : Ctl) (ph : Phase) :
    (x.setPhase c ph).phase.get c = ph := by simp [Slot.setPhase]
theorem setPhase_phase_ne (x : Slot) {c d : Ctl} (ph : Phase) (h : d ≠ c) :
    (x.setPhase c ph).phase.get d = x.phase.get d := trio_get_set_ne _ _ h

/-! ### Units -/

@[simp] theorem ctlOfUnit_zero : ctlOfUnit 0#2 = some .tva := rfl
@[simp] theorem ctlOfUnit_one : ctlOfUnit 1#2 = some .tvp := rfl
@[simp] theorem ctlOfUnit_two : ctlOfUnit 2#2 = some .tvf := rfl
@[simp] theorem ctlOfUnit_three : ctlOfUnit 3#2 = none := rfl

/-- A unit names a controller exactly when it is well formed (rules R101, R105). -/
theorem ctlOfUnit_isSome (u : BitVec 2) : (ctlOfUnit u).isSome = unitOk u := by revert u; decide

/-- What `withUnit` can do. -/
theorem withUnit_cases (u : BitVec 2) (s : State) (f : Ctl → State) :
    (∃ c, ctlOfUnit u = some c ∧ withUnit u s f = f c) ∨
      (ctlOfUnit u = none ∧ withUnit u s f = s.record .illegalUnit) := by
  unfold withUnit
  cases h : ctlOfUnit u with
  | none => exact .inr ⟨rfl, rfl⟩
  | some c => exact .inl ⟨c, rfl, rfl⟩

/-! ### Reset -/

theorem reset_slot (p : Params) (i : SlotIx) : (State.resetWith p).slot i = Slot.reset p := by
  unfold State.slot State.resetWith; simp

end Sys2Proof.Machine
end

