-- ==== Sys2Proof/Laws/Bus.lean ====
section
/-! SUPPORT. The host register space: one register an address, reading after writing, and the views of
the ACTIVE bits. -/

namespace Sys2Proof.Machine

/-- The number that a concatenation stands for. -/
theorem toNat_concat {n m : Nat} (x : BitVec n) (y : BitVec m) : (x ++ y).toNat = x.toNat * 2 ^ m + y.toNat := by
  rw [BitVec.toNat_append, Nat.shiftLeft_eq, Nat.mul_comm, Nat.two_pow_add_eq_or_of_lt y.isLt]

/-! ### Addresses -/

/-- The index of a parameter register in its slot block (rules R32, R39). -/
def ParamReg.index : ParamReg → Nat
  | .wgCfg => 0x00
  | .pcmBase => 0x01
  | .pcmLen => 0x02
  | .pairCfg => 0x03
  | .pan => 0x04
  | .note => 0x05
  | .ctrlIn => 0x06
  | .bendIn => 0x07
  | .env .tva j => 0x10 + j.val
  | .env .tvp j => 0x18 + j.val
  | .env .tvf j => 0x20 + j.val

/-- The address of register index k of slot i, as a number (rule R31). -/
theorem slotAddr_toNat (i : SlotIx) {k : Nat} (h : k < 64) :
    (BitVec.ofNat 12 (i.toNat * 64 + k)).toNat = i.toNat * 64 + k := by
  have := i.isLt
  rw [BitVec.toNat_ofNat, Nat.mod_eq_of_lt (by omega)]

/-- An address of a slot block names the register of its index (rule R31). -/
theorem regName_slot (i : SlotIx) {k : Nat} (h : k < 64) :
    regName (BitVec.ofNat 12 (i.toNat * 64 + k)) = slotReg i k := by
  have hi := i.isLt
  unfold regName
  simp only [slotAddr_toNat i h]
  rw [show (i.toNat * 64 + k) / 64 = i.toNat by omega, show (i.toNat * 64 + k) % 64 = k by omega]
  simp only [if_pos hi, BitVec.ofNat_toNat, BitVec.setWidth_eq]

/-- A slot block's registers belong to that slot, and each parameter register stands at its own
index. -/
theorem slotReg_param {s i : SlotIx} {k : Nat} {n : ParamReg} (hk : k < 64) (h : slotReg s k = .param i n) :
    i = s ∧ k = n.index := by
  interval_cases k <;>
    first
    | (simp [slotReg] at h; done)
    | (injection h with h1 h2; subst h1 h2; exact ⟨rfl, rfl⟩)

/-- Every parameter register has one address (rule R52). -/
theorem regName_param {a : HostAddr} {i : SlotIx} {n : ParamReg} (h : regName a = .param i n) :
    a = BitVec.ofNat 12 (i.toNat * 64 + n.index) := by
  unfold regName at h
  simp only at h
  split at h
  · rename_i hb
    obtain ⟨rfl, hk⟩ := slotReg_param (Nat.mod_lt _ (by decide)) h
    apply BitVec.eq_of_toNat_eq
    have h0 := a.isLt
    rw [← hk, BitVec.toNat_ofNat, BitVec.toNat_ofNat, Nat.mod_eq_of_lt (a := a.toNat / 64) hb]
    omega
  · split at h
    · have : ∀ k, globalReg k ≠ .param i n := by
        intro k; unfold globalReg; split <;> exact fun e => nomatch e
      exact absurd h (this _)
    · exact nomatch h

/-! ### Parameter registers -/

theorem readParam_putParam_same (r : SlotRegs) (n : ParamReg) (v : Word) :
    readParam (putParam r n v) n = v := by
  cases n
  case env c j =>
    simp only [readParam, putParam, trio_get_set_same]
    fin_cases j <;> rfl
  all_goals rfl

theorem readParam_putParam_ne (r : SlotRegs) {n m : ParamReg} (h : m ≠ n) (v : Word) :
    readParam (putParam r n v) m = readParam r m := by
  cases n <;> cases m <;> first | rfl | exact absurd rfl h | skip
  rename_i c j d k
  simp only [readParam, putParam]
  by_cases hc : d = c
  · subst hc
    rw [trio_get_set_same]
    have hj : k ≠ j := fun e => h (by rw [e])
    revert hj
    fin_cases j <;> fin_cases k <;> simp [readEnv, writeEnv]
  · rw [trio_get_set_ne _ _ hc]

/-- A write keeps reserved bits 0 (rule R50). -/
theorem writeParam_masked (r : SlotRegs) (n m : ParamReg) (v : Word)
    (h : readParam r m &&& ~~~paramMask m = 0#32) : readParam (writeParam r n v) m &&& ~~~paramMask m = 0#32 := by
  by_cases e : m = n
  · subst e
    rw [writeParam, readParam_putParam_same, BitVec.and_assoc, BitVec.and_not_self]; exact BitVec.and_zero
  · rw [writeParam, readParam_putParam_ne r e]; exact h

/-! ### Views of the ACTIVE bits -/

theorem activeBits (l : List Slot) (k : Nat) (h : k < l.length) (h32 : k < 32) :
    (l.foldr (fun (x : Slot) (m : Word) => (m <<< 1) ||| (if x.active then 1#32 else 0#32)) 0#32).getLsbD k = l[k].active := by
  induction l generalizing k with
  | nil => exact absurd h (Nat.not_lt_zero k)
  | cons x l ih =>
    rw [List.foldr_cons, BitVec.getLsbD_or, BitVec.getLsbD_shiftLeft]
    cases k with
    | zero => cases hx : x.active <;> simp [hx]
    | succ k =>
      have e := ih k (by simpa using h) (by omega)
      have z : (if x.active then 1#32 else 0#32).getLsbD (k + 1) = false := by cases x.active <;> simp
      rw [z, Nat.add_sub_cancel, e]
      simp [h32]

/-- ACTIVE_MASK bit k is the ACTIVE of slot k (rule R48). -/
theorem activeMask_bit (s : State) (k : SlotIx) : (activeMask s).getLsbD k.toNat = (s.slot k).active := by
  have h := activeBits s.slots.toList k.toNat (by simpa using k.isLt) k.isLt
  unfold activeMask State.slot
  rw [h]
  simp

/-- ACTIVE_MASK depends on the ACTIVE bits alone (rule R48). -/
theorem activeMask_congr {s t : State} (h : ∀ k, (s.slot k).active = (t.slot k).active) :
    activeMask s = activeMask t := by
  apply BitVec.eq_of_getLsbD_eq
  intro k hk
  have e := (activeMask_bit s (BitVec.ofNat 5 k)).trans ((h _).trans (activeMask_bit t (BitVec.ofNat 5 k)).symm)
  rwa [BitVec.toNat_ofNat, Nat.mod_eq_of_lt hk] at e

/-! ### Reading -/

/-- What a host read returns depends on the registers, not on the host's side (rule R86). -/
theorem readReg_host (s : State) (rest : List HostAccess) (d : Word) (a : HostAddr) :
    readReg { s with host := rest, readData := d } a = readReg s a := by
  unfold readReg
  cases regName a with
  | global r => cases r <;> rfl
  | param i r => rfl
  | state i r => rfl
  | reserved => rfl

/-- A change of parameter registers of slot i shows only where those registers are read. -/
theorem readReg_regs (s : State) (i : SlotIx) (g : SlotRegs → SlotRegs) (a : HostAddr)
    (h : ∀ n, regName a = .param i n → readParam (g (s.slot i).regs) n = readParam (s.slot i).regs n) :
    readReg (s.modSlot i fun x => { x with regs := g x.regs }) a = readReg s a := by
  unfold readReg
  cases hn : regName a with
  | param j n =>
    simp only [slot_modSlot]
    split
    · rename_i e; subst e; exact h n hn
    · rfl
  | state j r =>
    simp only [slot_modSlot]
    split
    · rename_i e; subst e; cases r <;> rfl
    · rfl
  | global r =>
    cases r <;> try rfl
    exact activeMask_congr fun k => by rw [slot_modSlot]; split <;> [(rename_i e; subst e; rfl); rfl]
  | reserved => rfl

/-- A host write outside CMD is `writeReg` (rules R50, R86). -/
theorem step_write {s : State} {rest : List HostAccess} {a : HostAddr} {v : Word}
    (h : s.host = .write a v :: rest) (ha : a ≠ cmdAddr) :
    step s = .next (writeReg { s with host := rest } a v) := by
  unfold step
  rw [h]
  show access _ _ = _
  simp only [access, if_neg ha]

/-- A host write to CMD runs the command (rule R105). -/
theorem step_command {s : State} {rest : List HostAccess} {v : Word} (h : s.host = .write cmdAddr v :: rest) :
    step s = runCommand v { s with host := rest } := by
  unfold step
  rw [h]
  show access _ _ = _
  simp only [access, if_true]

theorem step_read {s : State} {rest : List HostAccess} {a : HostAddr} (h : s.host = .read a :: rest) :
    step s = .next { s with host := rest, readData := readReg { s with host := rest } a } := by
  unfold step
  rw [h]
  rfl

end Sys2Proof.Machine
end

