-- ==== Sys2Proof/Laws/Decode.lean ====
section
/-! SUPPORT. The fields of an encoded command word, and the word of the fields that a mask leaves
(rules R101, R103, R104). -/

namespace Sys2Proof

/-- Rule R101: each field of `enc` is the operand it was given. -/
theorem enc_fields (o : Byte) (s : SlotIx) (u : BitVec 2) (a b : Byte) :
    opcField (enc o s u a b) = o ∧ slotField (enc o s u a b) = s ∧ unitField (enc o s u a b) = u ∧
      aField (enc o s u a b) = a ∧ bField (enc o s u a b) = b := by
  unfold opcField slotField unitField aField bField enc
  refine ⟨?_, ?_, ?_, ?_, ?_⟩ <;>
  · apply BitVec.eq_of_getLsbD_eq
    intro i hi
    simp only [BitVec.getLsbD_append, BitVec.getLsbD_extractLsb']
    interval_cases i <;> simp

@[simp] theorem opcField_enc (o : Byte) (s : SlotIx) (u : BitVec 2) (a b : Byte) :
    opcField (enc o s u a b) = o := (enc_fields o s u a b).1
@[simp] theorem slotField_enc (o : Byte) (s : SlotIx) (u : BitVec 2) (a b : Byte) :
    slotField (enc o s u a b) = s := (enc_fields o s u a b).2.1
@[simp] theorem unitField_enc (o : Byte) (s : SlotIx) (u : BitVec 2) (a b : Byte) :
    unitField (enc o s u a b) = u := (enc_fields o s u a b).2.2.1
@[simp] theorem aField_enc (o : Byte) (s : SlotIx) (u : BitVec 2) (a b : Byte) :
    aField (enc o s u a b) = a := (enc_fields o s u a b).2.2.2.1
@[simp] theorem bField_enc (o : Byte) (s : SlotIx) (u : BitVec 2) (a b : Byte) :
    bField (enc o s u a b) = b := (enc_fields o s u a b).2.2.2.2

/-- The reserved bit of `enc` is 0 (rule R101). -/
theorem enc_rsv (o : Byte) (s : SlotIx) (u : BitVec 2) (a b : Byte) : (enc o s u a b).getLsbD 16 = false := by
  unfold enc
  simp only [BitVec.getLsbD_append]
  simp

/-- A word whose reserved bit is 0 is the `enc` of its fields. -/
theorem enc_of_fields {w : Word} (h : w.getLsbD 16 = false) :
    enc (opcField w) (slotField w) (unitField w) (aField w) (bField w) = w := by
  unfold opcField slotField unitField aField bField enc
  apply BitVec.eq_of_getLsbD_eq
  intro i hi
  simp only [BitVec.getLsbD_append, BitVec.getLsbD_extractLsb']
  have h' : w[16] = false := by simpa using h
  interval_cases i <;> simp [h']

/-- A word that a mask leaves its opcode only has 0 in every other masked bit (rule R104). -/
theorem masked_bit {w m : Word} {o : Byte} (h : w &&& m = o ++ 0#24) {k : Nat} (hk : k < 24)
    (hm : m.getLsbD k = true) : w.getLsbD k = false := by
  have e := congrArg (fun v => BitVec.getLsbD v k) h
  simp only [BitVec.getLsbD_and, BitVec.getLsbD_append, hm, hk, Bool.and_true, if_true,
    BitVec.getLsbD_zero] at e
  simpa using e

/-- Every field mask covers the reserved bit. -/
theorem mask_rsv (f : Fields) : f.mask.getLsbD 16 = true := by cases f <;> decide

theorem enc_mask_none (o : Byte) : enc o 0#5 0#2 0#8 0#8 &&& Fields.none.mask = o ++ 0#24 := by
  revert o; decide

theorem enc_mask_slot (o : Byte) (s : SlotIx) : enc o s 0#2 0#8 0#8 &&& Fields.slot.mask = o ++ 0#24 := by
  unfold enc Fields.mask
  apply BitVec.eq_of_getLsbD_eq
  intro i hi
  simp only [BitVec.getLsbD_and, BitVec.getLsbD_append]
  interval_cases i <;> simp

theorem enc_mask_slotUnit (o : Byte) (s : SlotIx) (u : BitVec 2) :
    enc o s u 0#8 0#8 &&& Fields.slotUnit.mask = o ++ 0#24 := by
  unfold enc Fields.mask
  apply BitVec.eq_of_getLsbD_eq
  intro i hi
  simp only [BitVec.getLsbD_and, BitVec.getLsbD_append]
  interval_cases i <;> simp

theorem enc_mask_slotUnitAB (o : Byte) (s : SlotIx) (u : BitVec 2) (a b : Byte) :
    enc o s u a b &&& Fields.slotUnitAB.mask = o ++ 0#24 := by
  unfold enc Fields.mask
  apply BitVec.eq_of_getLsbD_eq
  intro i hi
  simp only [BitVec.getLsbD_and, BitVec.getLsbD_append]
  interval_cases i <;> simp

/-- SLOT where the row reads it, else 0. -/
def Fields.slotOf (f : Fields) (w : Word) : SlotIx :=
  match f with
  | .none => 0#5
  | .slot => slotField w
  | .slotUnit => slotField w
  | .slotUnitAB => slotField w

/-- UNIT where the row reads it, else 0. -/
def Fields.unitOf (f : Fields) (w : Word) : BitVec 2 :=
  match f with
  | .none => 0#2
  | .slot => 0#2
  | .slotUnit => unitField w
  | .slotUnitAB => unitField w

/-- A where the row reads it, else 0. -/
def Fields.aOf (f : Fields) (w : Word) : Byte :=
  match f with
  | .none => 0#8
  | .slot => 0#8
  | .slotUnit => 0#8
  | .slotUnitAB => aField w

/-- B where the row reads it, else 0. -/
def Fields.bOf (f : Fields) (w : Word) : Byte :=
  match f with
  | .none => 0#8
  | .slot => 0#8
  | .slotUnit => 0#8
  | .slotUnitAB => bField w

/-- A word that passes a row's mask check is the `enc` of the fields the row reads, the others 0 (rule
R104). -/
theorem enc_of_mask {w : Word} {f : Fields} (h : w &&& f.mask = opcField w ++ 0#24) :
    enc (opcField w) (f.slotOf w) (f.unitOf w) (f.aOf w) (f.bOf w) = w := by
  have key : ∀ k, k < 24 → f.mask.getLsbD k = true → w.getLsbD k = false := fun k hk hm => masked_bit h hk hm
  have zero : ∀ (lo n : Nat), lo + n ≤ 24 → (∀ k, k < n → f.mask.getLsbD (lo + k) = true) →
      w.extractLsb' lo n = 0#n := by
    intro lo n hl hm
    apply BitVec.eq_of_getLsbD_eq
    intro i hi
    simp only [BitVec.getLsbD_extractLsb', hi, decide_true, Bool.true_and, BitVec.getLsbD_zero]
    exact key _ (by omega) (hm i hi)
  have hw := enc_of_fields (key 16 (by decide) (mask_rsv f))
  cases f
  · rw [show slotField w = 0#5 from zero 19 5 (by decide) (by decide),
      show unitField w = 0#2 from zero 17 2 (by decide) (by decide),
      show aField w = 0#8 from zero 8 8 (by decide) (by decide),
      show bField w = 0#8 from zero 0 8 (by decide) (by decide)] at hw
    exact hw
  · rw [show unitField w = 0#2 from zero 17 2 (by decide) (by decide),
      show aField w = 0#8 from zero 8 8 (by decide) (by decide),
      show bField w = 0#8 from zero 0 8 (by decide) (by decide)] at hw
    exact hw
  · rw [show aField w = 0#8 from zero 8 8 (by decide) (by decide),
      show bField w = 0#8 from zero 0 8 (by decide) (by decide)] at hw
    exact hw
  · exact hw

/-- The opcodes of rule R103, each with its row. -/
theorem opRow_cases (o : Byte) :
    opRow o = none ∨ o = 0x00#8 ∨ o = 0x01#8 ∨ o = 0x02#8 ∨ o = 0x03#8 ∨ o = 0x04#8 ∨ o = 0x10#8 ∨
      o = 0x11#8 ∨ o = 0x12#8 ∨ o = 0x18#8 ∨ o = 0x20#8 ∨ o = 0x21#8 ∨ o = 0x22#8 ∨ o = 0x23#8 ∨
      o = 0x30#8 ∨ o = 0x31#8 ∨ o = 0x32#8 ∨ o = 0x33#8 ∨ o = 0x40#8 := by
  unfold opRow
  split
  all_goals first
    | exact .inl rfl
    | (right; rename_i h; simp [← BitVec.toNat_inj, h])

end Sys2Proof
end

