-- ==== Sys2Proof/Laws/Ramp.lean ====
section
/-! SUPPORT. The Ramp Generator: increments, what a start and a step can do, and that every ramp
operation keeps `Ramp.Ok`. -/

namespace Sys2Proof.Machine

/-! ### Targets and increments -/

theorem largeTarget_le (tgt : Byte) : largeTarget tgt ≤ maxCurrent := by
  have := tgt.isLt
  simp only [largeTarget, maxCurrent, rampScale]
  omega

theorem maxCurrent_lt : maxCurrent < 2 ^ 26 := by decide

theorem largeTarget_lt (tgt : Byte) : largeTarget tgt < 2 ^ 26 :=
  Nat.lt_of_le_of_lt (largeTarget_le tgt) maxCurrent_lt

/-- A value of at most MAX_CURRENT fits the 26 bits of CUR. -/
theorem toNat_ofNat_26 {n : Nat} (h : n ≤ maxCurrent) : (BitVec.ofNat 26 n).toNat = n := by
  rw [BitVec.toNat_ofNat, Nat.mod_eq_of_lt (Nat.lt_of_le_of_lt h maxCurrent_lt)]

theorem codeInc_zero (p : Params) : codeInc p 0#8 = 0 := by simp [codeInc]

/-- Every code but 0x00 moves (rule R131). -/
theorem codeInc_pos (p : Params) {code : Byte} (h : code ≠ 0#8) : 0 < codeInc p code := by
  have := p.rampInc_pos (code.extractLsb' 0 7)
  simp only [codeInc, h, if_false]
  omega

/-- Every increment fits 32 bits (rule R40). -/
theorem codeInc_lt (p : Params) (code : Byte) : codeInc p code < 2 ^ 32 := by
  have h1 := p.inc_fits
  have h2 := p.rampInc_mono (code.extractLsb' 0 7) 127#7 (by
    have := (code.extractLsb' 0 7).isLt
    simp only [BitVec.toNat_ofNat]
    omega)
  unfold codeInc
  split
  · omega
  · split <;> omega

@[simp] theorem startRamp_cur (p : Params) (r : Ramp) (t q : Byte) : (startRamp p r t q).cur = r.cur := rfl
@[simp] theorem startRamp_tgt (p : Params) (r : Ramp) (t q : Byte) : (startRamp p r t q).tgt = t := rfl
@[simp] theorem startRamp_desc (p : Params) (r : Ramp) (t q : Byte) : (startRamp p r t q).desc = q.msb := rfl
@[simp] theorem startRamp_cnt (p : Params) (r : Ramp) (t q : Byte) : (startRamp p r t q).cnt = 0#8 := rfl
@[simp] theorem startRamp_irq (p : Params) (r : Ramp) (t q : Byte) : (startRamp p r t q).irq = false := rfl
@[simp] theorem startRamp_rstate (p : Params) (r : Ramp) (t q : Byte) :
    (startRamp p r t q).rstate = if q = 0#8 then .idle else .moving := rfl
@[simp] theorem startRamp_inc (p : Params) (r : Ramp) (t q : Byte) :
    (startRamp p r t q).inc.toNat = codeInc p q := by
  show (BitVec.ofNat 32 (codeInc p q)).toNat = _
  rw [BitVec.toNat_ofNat, Nat.mod_eq_of_lt (codeInc_lt p q)]

/-! ### Steps -/

@[simp] theorem reachTarget_cur (r : Ramp) : (reachTarget r).cur.toNat = largeTarget r.tgt :=
  toNat_ofNat_26 (largeTarget_le r.tgt)
@[simp] theorem reachTarget_tgt (r : Ramp) : (reachTarget r).tgt = r.tgt := rfl
@[simp] theorem reachTarget_inc (r : Ramp) : (reachTarget r).inc = r.inc := rfl
@[simp] theorem reachTarget_desc (r : Ramp) : (reachTarget r).desc = r.desc := rfl
@[simp] theorem reachTarget_cnt (r : Ramp) : (reachTarget r).cnt = interruptDelay := rfl
@[simp] theorem reachTarget_irq (r : Ramp) : (reachTarget r).irq = r.irq := rfl
@[simp] theorem reachTarget_rstate (r : Ramp) : (reachTarget r).rstate = .counting := rfl

theorem rampStep_idle {r : Ramp} (h : r.rstate = .idle) : rampStep r = r := by simp [rampStep, h]
theorem rampStep_done {r : Ramp} (h : r.rstate = .done) : rampStep r = r := by simp [rampStep, h]

/-- A moving ramp either reaches its target in this step or moves by its increment toward it without
passing it (rules R135, R136). -/
theorem moveRamp_cases (r : Ramp) (hc : r.cur.toNat ≤ maxCurrent) :
    moveRamp r = reachTarget r ∨
      (r.desc = true ∧ largeTarget r.tgt + r.inc.toNat < r.cur.toNat ∧
        ∃ v : BitVec 26, v.toNat = r.cur.toNat - r.inc.toNat ∧ moveRamp r = { r with cur := v }) ∨
      (r.desc = false ∧ r.cur.toNat + r.inc.toNat < largeTarget r.tgt ∧
        ∃ v : BitVec 26, v.toNat = r.cur.toNat + r.inc.toNat ∧ moveRamp r = { r with cur := v }) := by
  unfold moveRamp
  by_cases hd : r.desc = true
  · rw [if_pos hd]
    split
    · exact .inl rfl
    · rename_i h
      push Not at h
      exact .inr (.inl ⟨hd, by omega, _, toNat_ofNat_26 (by omega), rfl⟩)
  · rw [if_neg hd]
    split
    · exact .inl rfl
    · rename_i h
      push Not at h
      exact .inr (.inr ⟨Bool.eq_false_iff.mpr hd, by omega, _, toNat_ofNat_26 (by omega), rfl⟩)

/-- A counting ramp raises its flag at the end of the countdown and counts otherwise (rule R137). -/
theorem countRamp_cases (r : Ramp) (h : 1 ≤ r.cnt.toNat) :
    (r.cnt.toNat = 1 ∧ countRamp r = { r with cnt := 0#8, irq := true, rstate := .done }) ∨
      (2 ≤ r.cnt.toNat ∧ ∃ v : Byte, v.toNat = r.cnt.toNat - 1 ∧ countRamp r = { r with cnt := v }) := by
  have hs : (r.cnt - 1#8).toNat = r.cnt.toNat - 1 := by
    have := r.cnt.isLt
    rw [BitVec.toNat_sub]
    simp
    omega
  unfold countRamp
  split
  · rename_i h0
    have h0' : (r.cnt - 1#8).toNat = 0 := by rw [h0]; rfl
    exact .inl ⟨by omega, rfl⟩
  · rename_i h0
    refine .inr ⟨?_, _, hs, rfl⟩
    by_contra hlt
    exact h0 (BitVec.eq_of_toNat_eq (by rw [hs]; simp; omega))

/-! ### Every ramp operation keeps `Ramp.Ok` -/

theorem resetRamp_ok : resetRamp.Ok where
  cur_le := by decide
  cnt_zero := fun _ => rfl
  cnt_range := fun h => nomatch h
  irq_done := fun h => nomatch h
  at_target := fun h => by rcases h with h | h <;> exact nomatch h
  moving := fun h => nomatch h
  idle := fun _ => ⟨rfl, rfl⟩

theorem ramp_reset_ok : Ramp.reset.Ok := resetRamp_ok

theorem startRamp_ok (p : Params) {r : Ramp} (h : r.cur.toNat ≤ maxCurrent) (t q : Byte) :
    (startRamp p r t q).Ok := by
  by_cases hq : q = 0#8
  · subst hq
    refine ⟨h, fun _ => rfl, (fun e => nomatch e), (fun e => nomatch e), ?_, (fun e => nomatch e), fun _ => ⟨?_, rfl⟩⟩
    · rintro (e | e) <;> exact nomatch e
    · simp [startRamp, codeInc_zero]
  · have hm : (startRamp p r t q).rstate = .moving := by simp [hq]
    refine ⟨h, fun _ => rfl, ?_, (fun e => nomatch e), ?_, fun _ => ?_, ?_⟩
    · rw [hm]; exact fun e => nomatch e
    · rw [hm]; rintro (e | e) <;> exact nomatch e
    · rw [startRamp_inc]; exact codeInc_pos p hq
    · rw [hm]; exact fun e => nomatch e

theorem clearIrq_ok {r : Ramp} (h : r.Ok) : (clearIrq r).Ok :=
  ⟨h.cur_le, h.cnt_zero, h.cnt_range, (fun e => nomatch e), h.at_target, h.moving, h.idle⟩

theorem rampStep_ok {r : Ramp} (h : r.Ok) : (rampStep r).Ok := by
  cases hr : r.rstate with
  | idle => rw [rampStep_idle hr]; exact h
  | done => rw [rampStep_done hr]; exact h
  | counting =>
    have hn := h.cnt_range hr
    have ht := h.at_target (.inl hr)
    have hi : r.irq = false := by
      by_contra e
      have := h.irq_done (by simpa using e)
      rw [hr] at this; exact nomatch this
    simp only [rampStep, hr]
    rcases countRamp_cases r hn.1 with ⟨_, e⟩ | ⟨h2, v, hv, e⟩ <;> rw [e]
    · exact ⟨h.cur_le, fun _ => rfl, (fun e => nomatch e), fun _ => rfl, fun _ => ht, (fun e => nomatch e), (fun e => nomatch e)⟩
    · refine ⟨h.cur_le, fun e => absurd hr e, fun _ => ?_, fun e => ?_, fun _ => ht, fun e => ?_, fun e => ?_⟩
      · simp only []; omega
      · simp only [hi] at e; exact nomatch e
      · simp only [hr] at e; exact nomatch e
      · simp only [hr] at e; exact nomatch e
  | moving =>
    have hi : r.irq = false := by
      by_contra e
      have := h.irq_done (by simpa using e)
      rw [hr] at this; exact nomatch this
    simp only [rampStep, hr]
    have hcl := h.cur_le
    rcases moveRamp_cases r hcl with e | ⟨_, hlt, v, hv, e⟩ | ⟨_, hlt, v, hv, e⟩ <;> rw [e]
    · refine ⟨?_, fun e => absurd rfl e, fun _ => ⟨by simp [interruptDelay], by simp⟩, fun e => ?_, fun _ => reachTarget_cur r, (fun e => nomatch e), (fun e => nomatch e)⟩
      · rw [reachTarget_cur]; exact largeTarget_le _
      · rw [reachTarget_irq, hi] at e; exact nomatch e
    · refine ⟨by simp only []; omega, fun _ => h.cnt_zero (by rw [hr]; exact fun e => nomatch e), fun e => ?_,
        fun e => ?_, fun e => ?_, fun _ => h.moving hr, fun e => ?_⟩
      · simp only [hr] at e; exact nomatch e
      · simp only [hi] at e; exact nomatch e
      · simp only [hr] at e; rcases e with e | e <;> exact nomatch e
      · simp only [hr] at e; exact nomatch e
    · have := largeTarget_le r.tgt
      refine ⟨by simp only []; omega, fun _ => h.cnt_zero (by rw [hr]; exact fun e => nomatch e), fun e => ?_,
        fun e => ?_, fun e => ?_, fun _ => h.moving hr, fun e => ?_⟩
      · simp only [hr] at e; exact nomatch e
      · simp only [hi] at e; exact nomatch e
      · simp only [hr] at e; rcases e with e | e <;> exact nomatch e
      · simp only [hr] at e; exact nomatch e

/-- A step keeps the target, the increment and the sign. -/
theorem rampStep_tgt (r : Ramp) : (rampStep r).tgt = r.tgt := by
  cases hr : r.rstate <;> simp only [rampStep, hr, countRamp, moveRamp]
  · split <;> split <;> rfl
  · split <;> rfl

end Sys2Proof.Machine
end

