-- ==== Sys2Proof/Laws/Envelope.lean ====
section
/-! SUPPORT. The envelope controllers: what each operation can do to a slot, its frame, and that it
keeps every ramp in a reachable state. -/

namespace Sys2Proof.Machine

/-- What an operation of controller c leaves alone: everything but ramp c and phase c. -/
structure EnvFrame (c : Ctl) (x y : Slot) : Prop where
  regs : y.regs = x.regs
  lp : y.lp = x.lp
  baseCutoff : y.baseCutoff = x.baseCutoff
  wave : y.wave = x.wave
  active : y.active = x.active
  role : y.role = x.role
  mix : y.mix = x.mix
  pairOut : y.pairOut = x.pairOut
  ramp : ∀ d, d ≠ c → y.ramp.get d = x.ramp.get d
  phase : ∀ d, d ≠ c → y.phase.get d = x.phase.get d

theorem EnvFrame.refl (c : Ctl) (x : Slot) : EnvFrame c x x :=
  ⟨rfl, rfl, rfl, rfl, rfl, rfl, rfl, rfl, fun _ _ => rfl, fun _ _ => rfl⟩

theorem EnvFrame.trans {c : Ctl} {x y z : Slot} (h : EnvFrame c x y) (k : EnvFrame c y z) :
    EnvFrame c x z :=
  ⟨k.regs.trans h.regs, k.lp.trans h.lp, k.baseCutoff.trans h.baseCutoff, k.wave.trans h.wave,
    k.active.trans h.active, k.role.trans h.role, k.mix.trans h.mix, k.pairOut.trans h.pairOut,
    fun d hd => (k.ramp d hd).trans (h.ramp d hd), fun d hd => (k.phase d hd).trans (h.phase d hd)⟩

theorem modRamp_frame (x : Slot) (c : Ctl) (f : Ramp → Ramp) : EnvFrame c x (x.modRamp c f) :=
  ⟨rfl, rfl, rfl, rfl, rfl, rfl, rfl, rfl, fun _ hd => modRamp_ramp_ne x f hd, fun _ _ => rfl⟩

theorem setPhase_frame (x : Slot) (c : Ctl) (ph : Phase) : EnvFrame c x (x.setPhase c ph) :=
  ⟨rfl, rfl, rfl, rfl, rfl, rfl, rfl, rfl, fun _ _ => rfl, fun _ hd => setPhase_phase_ne x ph hd⟩

/-- The slot after a controller enters phase ph with a ramp toward tgt (rules R223-R227). -/
def entered (p : Params) (x : Slot) (c : Ctl) (ph : Phase) (tgt code : Byte) : Slot :=
  startCtlRamp p (x.setPhase c ph) c tgt code

theorem entered_frame (p : Params) (x : Slot) (c : Ctl) (ph : Phase) (tgt code : Byte) :
    EnvFrame c x (entered p x c ph tgt code) :=
  (setPhase_frame x c ph).trans (modRamp_frame (x.setPhase c ph) c (fun r => startRamp p r tgt code))

@[simp] theorem entered_phase (p : Params) (x : Slot) (c : Ctl) (ph : Phase) (tgt code : Byte) :
    (entered p x c ph tgt code).phase.get c = ph := by simp [entered, startCtlRamp]

@[simp] theorem entered_ramp (p : Params) (x : Slot) (c : Ctl) (ph : Phase) (tgt code : Byte) :
    (entered p x c ph tgt code).ramp.get c = startRamp p (x.ramp.get c) tgt code := by
  simp [entered, startCtlRamp]

theorem enterTimed_eq (p : Params) (x : Slot) (c : Ctl) (ph : Phase) (j : Fin 4) :
    ∃ tgt code, enterTimed p x c ph j = entered p x c ph tgt code := ⟨_, _, rfl⟩

/-- TVA and TVP do not read BASE_CUTOFF at the entry of a phase (rules R224, R225, R271). -/
theorem enterTimed_baseCutoff (p : Params) (x : Slot) {c : Ctl} (hc : c ≠ .tvf) (ph : Phase) (j : Fin 4) (b : Byte) :
    enterTimed p { x with baseCutoff := b } c ph j = { enterTimed p x c ph j with baseCutoff := b } := by
  unfold enterTimed
  simp only [p.targetFn_cutoff c _ _ _ _ b x.baseCutoff hc]
  rfl

/-- No controller reads BASE_CUTOFF at the start of its release (rules R227, R271). -/
theorem startRelease_baseCutoff (p : Params) (x : Slot) (c : Ctl) (b : Byte) :
    startRelease p { x with baseCutoff := b } c = { startRelease p x c with baseCutoff := b } := by
  unfold startRelease
  simp only [p.targetFn_cutoff .tvp _ _ _ _ b x.baseCutoff (by decide)]
  rfl

/-- A release never starts a frozen ramp (rules R227, R241). -/
theorem startRelease_eq (p : Params) (x : Slot) (c : Ctl) :
    ∃ tgt code, code ≠ 0#8 ∧ startRelease p x c = entered p x c .release tgt code := by
  refine ⟨_, _, ?_, rfl⟩
  generalize (if (x.lp.get c).lt4 = 0#8 then p.releaseZeroCode else _) = code
  by_cases h : code = 0#8
  · rw [if_pos h]; exact p.releaseZeroCode_ne
  · rw [if_neg h]; exact h

theorem enterSustain_eq (p : Params) (x : Slot) (c : Ctl) :
    ∃ ph tgt code, (ph = .p4 ∨ ph = .release ∧ code ≠ 0#8) ∧ enterSustain p x c = entered p x c ph tgt code := by
  unfold enterSustain
  split
  · exact ⟨_, _, _, .inl rfl, rfl⟩
  · obtain ⟨t, q, hq, e⟩ := startRelease_eq p x c
    exact ⟨_, t, q, .inr ⟨rfl, hq⟩, e⟩

/-- The phases an interrupt can lead to from a phase (rules R229, R230). -/
def nextPhase : Ctl → Phase → Phase → Prop
  | _, .p0, q => q = .p1
  | _, .p1, q => q = .p2
  | _, .p2, q => q = .p3
  | .tvp, .p3, q => q = .p4
  | .tva, .p3, q => q = .p4 ∨ q = .release
  | .tvf, .p3, q => q = .p4 ∨ q = .release
  | .tvp, .p4, q => q = .p3
  | .tva, .p4, _ => False
  | .tvf, .p4, _ => False
  | _, .release, _ => False
  | _, .dead, _ => False

/-- Interrupt handling does nothing, moves a release to DEAD, or enters the next phase with a new
ramp (rules R229, R230). -/
theorem handleInterrupt_cases (p : Params) (x : Slot) (c : Ctl) :
    ((x.phase.get c = .dead ∨ x.phase.get c = .p4 ∧ c ≠ .tvp) ∧ handleInterrupt p x c = x) ∨
    (x.phase.get c = .release ∧ handleInterrupt p x c = x.setPhase c .dead) ∨
    (∃ ph tgt code, nextPhase c (x.phase.get c) ph ∧ (ph = .release → code ≠ 0#8) ∧
      handleInterrupt p x c = entered p x c ph tgt code) := by
  have timed : ∀ (ph : Phase) (j : Fin 4), ph ≠ .release → nextPhase c (x.phase.get c) ph →
      (∃ ph' tgt code, nextPhase c (x.phase.get c) ph' ∧ (ph' = .release → code ≠ 0#8) ∧
        enterTimed p x c ph j = entered p x c ph' tgt code) := by
    intro ph j hne hn
    obtain ⟨t, q, e⟩ := enterTimed_eq p x c ph j
    exact ⟨ph, t, q, hn, fun h => absurd h hne, e⟩
  have sustain : c ≠ .tvp → x.phase.get c = .p3 →
      (∃ ph' tgt code, nextPhase c (x.phase.get c) ph' ∧ (ph' = .release → code ≠ 0#8) ∧
        enterSustain p x c = entered p x c ph' tgt code) := by
    intro hc h3
    obtain ⟨ph, t, q, h, e⟩ := enterSustain_eq p x c
    refine ⟨ph, t, q, ?_, ?_, e⟩
    · rw [h3]
      cases c
      · rcases h with h | h
        · exact .inl h
        · exact .inr h.1
      · exact absurd rfl hc
      · rcases h with h | h
        · exact .inl h
        · exact .inr h.1
    · rcases h with h | h
      · rintro rfl; exact nomatch h
      · exact fun _ => h.2
  cases c
  case tvp =>
    simp only [handleInterrupt, handlePitch]
    cases hp : x.phase.tvp <;> simp only [Trio.get, hp] at timed ⊢
    · exact .inr (.inr (timed .p1 1 (by simp) rfl))
    · exact .inr (.inr (timed .p2 2 (by simp) rfl))
    · exact .inr (.inr (timed .p3 3 (by simp) rfl))
    · exact .inr (.inr (timed .p4 3 (by simp) rfl))
    · exact .inr (.inr (timed .p3 3 (by simp) rfl))
    · exact .inr (.inl ⟨trivial, trivial⟩)
    · exact .inl ⟨.inl trivial, trivial⟩
  all_goals
    simp only [handleInterrupt, handleAmpFilter]
    generalize hp : x.phase.get _ = ph at timed sustain ⊢
    cases ph <;> simp only at timed sustain ⊢
    · exact .inr (.inr (timed .p1 1 (by simp) rfl))
    · exact .inr (.inr (timed .p2 2 (by simp) rfl))
    · exact .inr (.inr (timed .p3 3 (by simp) rfl))
    · exact .inr (.inr (sustain (by simp) trivial))
    · exact .inl ⟨.inr ⟨trivial, by simp⟩, trivial⟩
    · exact .inr (.inl ⟨trivial, trivial⟩)
    · exact .inl ⟨.inl trivial, trivial⟩

theorem handleInterrupt_frame (p : Params) (x : Slot) (c : Ctl) : EnvFrame c x (handleInterrupt p x c) := by
  rcases handleInterrupt_cases p x c with ⟨_, e⟩ | ⟨_, e⟩ | ⟨ph, t, q, _, _, e⟩ <;> rw [e]
  · exact EnvFrame.refl c x
  · exact setPhase_frame x c _
  · exact entered_frame p x c ph t q

theorem envStep_frame (p : Params) (x : Slot) (c : Ctl) : EnvFrame c x (envStep p x c) := by
  unfold envStep
  simp only
  split
  · exact (modRamp_frame x c _).trans ((modRamp_frame _ c _).trans (handleInterrupt_frame p _ c))
  · exact modRamp_frame x c _

/-- EDECAY does nothing in RELEASE and DEAD and starts a release in every other phase (rule R240). -/
theorem decayEnv_cases (p : Params) (x : Slot) (c : Ctl) :
    ((x.phase.get c = .release ∨ x.phase.get c = .dead) ∧ decayEnv p x c = x) ∨
    (x.phase.get c ≠ .release ∧ x.phase.get c ≠ .dead ∧ decayEnv p x c = startRelease p x c) := by
  unfold decayEnv
  cases x.phase.get c <;> simp

theorem decayEnv_frame (p : Params) (x : Slot) (c : Ctl) : EnvFrame c x (decayEnv p x c) := by
  rcases decayEnv_cases p x c with ⟨_, e⟩ | ⟨_, _, e⟩ <;> rw [e]
  · exact EnvFrame.refl c x
  · obtain ⟨t, q, _, e'⟩ := startRelease_eq p x c
    rw [e']; exact entered_frame p x c _ t q

theorem abortEnv_frame (p : Params) (x : Slot) : EnvFrame .tva x (abortEnv p x) := by
  unfold abortEnv
  split
  · exact EnvFrame.refl .tva x
  · exact entered_frame p x .tva .release 0#8 p.abortCode

/-! ### Ramps stay in reachable states -/

/-- Every ramp of the slot is in a reachable state. -/
def Slot.RampsOk (x : Slot) : Prop := ∀ c, (x.ramp.get c).Ok

theorem rampsOk_of_frame {c : Ctl} {x y : Slot} (h : x.RampsOk) (f : EnvFrame c x y)
    (hc : (y.ramp.get c).Ok) : y.RampsOk := by
  intro d
  by_cases hd : d = c
  · subst hd; exact hc
  · rw [f.ramp d hd]; exact h d

theorem entered_rampsOk (p : Params) {x : Slot} (h : x.RampsOk) (c : Ctl) (ph : Phase) (tgt code : Byte) :
    (entered p x c ph tgt code).RampsOk :=
  rampsOk_of_frame h (entered_frame p x c ph tgt code) (by
    rw [entered_ramp]; exact startRamp_ok p (h c).cur_le tgt code)

theorem modRamp_rampsOk {x : Slot} (h : x.RampsOk) (c : Ctl) (f : Ramp → Ramp)
    (hf : (f (x.ramp.get c)).Ok) : (x.modRamp c f).RampsOk :=
  rampsOk_of_frame h (modRamp_frame x c f) (by rw [modRamp_ramp_same]; exact hf)

theorem handleInterrupt_rampsOk (p : Params) {x : Slot} (h : x.RampsOk) (c : Ctl) :
    (handleInterrupt p x c).RampsOk := by
  rcases handleInterrupt_cases p x c with ⟨_, e⟩ | ⟨_, e⟩ | ⟨ph, t, q, _, _, e⟩ <;> rw [e]
  · exact h
  · exact h
  · exact entered_rampsOk p h c ph t q

theorem envStep_rampsOk (p : Params) {x : Slot} (h : x.RampsOk) (c : Ctl) : (envStep p x c).RampsOk := by
  have h1 := modRamp_rampsOk h c rampStep (rampStep_ok (h c))
  unfold envStep
  simp only
  split
  · exact handleInterrupt_rampsOk p (modRamp_rampsOk h1 c clearIrq (clearIrq_ok (h1 c))) c
  · exact h1

theorem startRelease_rampsOk (p : Params) {x : Slot} (h : x.RampsOk) (c : Ctl) :
    (startRelease p x c).RampsOk := by
  obtain ⟨t, q, _, e⟩ := startRelease_eq p x c
  rw [e]; exact entered_rampsOk p h c _ t q

theorem decayEnv_rampsOk (p : Params) {x : Slot} (h : x.RampsOk) (c : Ctl) : (decayEnv p x c).RampsOk := by
  rcases decayEnv_cases p x c with ⟨_, e⟩ | ⟨_, _, e⟩ <;> rw [e]
  · exact h
  · exact startRelease_rampsOk p h c

theorem abortEnv_rampsOk (p : Params) {x : Slot} (h : x.RampsOk) : (abortEnv p x).RampsOk := by
  unfold abortEnv
  split
  · exact h
  · exact entered_rampsOk p h .tva .release 0#8 p.abortCode

/-! ### ESTART -/

/-- ESTART latches, then enters the first phase or, for a TVA whose levels are all 0, RELEASE (rule
R228). -/
theorem startEnv_eq (p : Params) (x : Slot) (c : Ctl) :
    ∃ ph tgt code, (ph = .p0 ∨ ph = .release ∧ c = .tva ∧ code ≠ 0#8) ∧
      startEnv p x c = entered p (latchParams p x c) c ph tgt code := by
  unfold startEnv
  cases c <;> simp only
  · split
    · obtain ⟨t, q, hq, e⟩ := startRelease_eq p (latchParams p x .tva) .tva
      exact ⟨_, t, q, .inr ⟨rfl, trivial, hq⟩, e⟩
    · obtain ⟨t, q, e⟩ := enterTimed_eq p (latchParams p x .tva) .tva .p0 0
      exact ⟨_, t, q, .inl rfl, e⟩
  · obtain ⟨t, q, e⟩ := enterTimed_eq p (latchParams p x .tvp) .tvp .p0 0
    exact ⟨_, t, q, .inl rfl, e⟩
  · obtain ⟨t, q, e⟩ := enterTimed_eq p (latchParams p x .tvf) .tvf .p0 0
    exact ⟨_, t, q, .inl rfl, e⟩

@[simp] theorem latchParams_regs (p : Params) (x : Slot) (c : Ctl) : (latchParams p x c).regs = x.regs := by
  cases c <;> rfl
@[simp] theorem latchParams_ramp (p : Params) (x : Slot) (c : Ctl) : (latchParams p x c).ramp = x.ramp := by
  cases c <;> rfl
@[simp] theorem latchParams_phase (p : Params) (x : Slot) (c : Ctl) : (latchParams p x c).phase = x.phase := by
  cases c <;> rfl
@[simp] theorem latchParams_wave (p : Params) (x : Slot) (c : Ctl) : (latchParams p x c).wave = x.wave := by
  cases c <;> rfl
@[simp] theorem latchParams_active (p : Params) (x : Slot) (c : Ctl) : (latchParams p x c).active = x.active := by
  cases c <;> rfl
@[simp] theorem latchParams_role (p : Params) (x : Slot) (c : Ctl) : (latchParams p x c).role = x.role := by
  cases c <;> rfl
@[simp] theorem latchParams_mix (p : Params) (x : Slot) (c : Ctl) : (latchParams p x c).mix = x.mix := by
  cases c <;> rfl
@[simp] theorem latchParams_pairOut (p : Params) (x : Slot) (c : Ctl) : (latchParams p x c).pairOut = x.pairOut := by
  cases c <;> rfl

/-- What ESTART leaves alone beside its own ramp, phase and latched parameters. -/
theorem startEnv_frame (p : Params) (x : Slot) (c : Ctl) :
    (startEnv p x c).regs = x.regs ∧ (startEnv p x c).wave = x.wave ∧ (startEnv p x c).active = x.active ∧
      (startEnv p x c).role = x.role ∧ (startEnv p x c).mix = x.mix ∧ (startEnv p x c).pairOut = x.pairOut ∧
      (∀ d, d ≠ c → (startEnv p x c).ramp.get d = x.ramp.get d) ∧
      (∀ d, d ≠ c → (startEnv p x c).phase.get d = x.phase.get d) := by
  obtain ⟨ph, t, q, _, e⟩ := startEnv_eq p x c
  have f := entered_frame p (latchParams p x c) c ph t q
  rw [e]
  refine ⟨by simp [f.regs], by simp [f.wave], by simp [f.active], by simp [f.role], by simp [f.mix],
    by simp [f.pairOut], fun d hd => by simp [f.ramp d hd], fun d hd => by simp [f.phase d hd]⟩

theorem startEnv_rampsOk (p : Params) {x : Slot} (h : x.RampsOk) (c : Ctl) : (startEnv p x c).RampsOk := by
  obtain ⟨ph, t, q, _, e⟩ := startEnv_eq p x c
  rw [e]
  exact entered_rampsOk p (by intro d; rw [latchParams_ramp]; exact h d) c ph t q

end Sys2Proof.Machine
end

