-- ==== Sys2Proof/Laws/Exec.lean ====
section
/-! SUPPORT. What `exec` answers for each command, as one equation, and that it always answers a next
state. -/

namespace Sys2Proof.Machine

@[simp] theorem exec_nop (s : State) : exec .nop s = .next s := rfl
@[simp] theorem exec_rstart (i : SlotIx) (u : BitVec 2) (t q : Byte) (s : State) :
    exec (.rstart i u t q) s = .next (withUnit u s fun c => doRstart Config.hardware i c t q s) := rfl
@[simp] theorem exec_rnext (i : SlotIx) (u : BitVec 2) (s : State) :
    exec (.rnext i u) s = .next (withUnit u s fun c => doRnext i c s) := rfl
@[simp] theorem exec_rchki (i : SlotIx) (u : BitVec 2) (s : State) :
    exec (.rchki i u) s = .next (withUnit u s fun c => doRchki i c s) := rfl
@[simp] theorem exec_rreset (i : SlotIx) (u : BitVec 2) (s : State) :
    exec (.rreset i u) s = .next (withUnit u s fun c => doRreset i c s) := rfl
@[simp] theorem exec_winit (i : SlotIx) (s : State) :
    exec (.winit i) s = .next (doWinit Config.hardware i s) := rfl
@[simp] theorem exec_wgen (i : SlotIx) (s : State) :
    exec (.wgen i) s = .next (s.modSlot i (generate Config.hardware)) := rfl
@[simp] theorem exec_wdeact (i : SlotIx) (s : State) :
    exec (.wdeact i) s = .next (s.modSlot i deactivateWave) := rfl
@[simp] theorem exec_pairout (i : SlotIx) (s : State) :
    exec (.pairout i) s = .next (doPairout Config.hardware i s) := rfl
@[simp] theorem exec_estart (i : SlotIx) (u : BitVec 2) (s : State) :
    exec (.estart i u) s = .next (withUnit u s fun c => s.modSlot i fun x => startEnv Config.hardware x c) := rfl
@[simp] theorem exec_edecay (i : SlotIx) (u : BitVec 2) (s : State) :
    exec (.edecay i u) s = .next (withUnit u s fun c => s.modSlot i fun x => decayEnv Config.hardware x c) := rfl
@[simp] theorem exec_eabort (i : SlotIx) (s : State) :
    exec (.eabort i) s = .next (s.modSlot i (abortEnv Config.hardware)) := rfl
@[simp] theorem exec_eintr (i : SlotIx) (u : BitVec 2) (s : State) :
    exec (.eintr i u) s =
      .next (withUnit u s fun c => s.modSlot i fun x => handleInterrupt Config.hardware x c) := rfl
@[simp] theorem exec_pstart (i : SlotIx) (s : State) :
    exec (.pstart i) s = .next (doPstart Config.hardware i s) := rfl
@[simp] theorem exec_pstop (i : SlotIx) (s : State) : exec (.pstop i) s = .next (deactivate s i) := rfl
@[simp] theorem exec_pdecay (i : SlotIx) (s : State) :
    exec (.pdecay i) s = .next (s.modSlot i (decaySlot Config.hardware)) := rfl
@[simp] theorem exec_pabort (i : SlotIx) (s : State) :
    exec (.pabort i) s = .next (s.modSlot i (abortSlot Config.hardware)) := rfl
@[simp] theorem exec_tick (s : State) : exec .tick s = .next (tick Config.hardware s) := rfl

/-- A property that the modified slot has, and that the other slots had, holds of every slot. -/
theorem modSlot_slots {P : SlotIx → Slot → Prop} {s : State} {i : SlotIx} {f : Slot → Slot}
    (h : ∀ k, P k (s.slot k)) (hf : P i (f (s.slot i))) (k : SlotIx) : P k ((s.modSlot i f).slot k) := by
  rw [slot_modSlot]
  split
  · rename_i e; subst e; exact hf
  · exact h k

end Sys2Proof.Machine
end

