-- ==== Sys2Proof/Laws/Wave.lean ====
section
/-! SUPPORT. The Wave Generator: what a sample step can do, its frame, and that it keeps a PCM wave
inside the PCM ROM. -/

namespace Sys2Proof.Machine

/-- What a sample step leaves alone in a wave generator: every latch that WINIT writes (rule R44). -/
structure LatchesKept (w v : Wave) : Prop where
  pcm : v.pcm = w.pcm
  saw : v.saw = w.saw
  loop : v.loop = w.loop
  interp : v.interp = w.interp
  pw : v.pw = w.pw
  res : v.res = w.res
  base : v.base = w.base
  len : v.len = w.len

/-- The position after a PCM step (rule R167): inside the wave, or at its end with the wave generator
inactive. -/
theorem pcmStep_cases (p : Params) (w : Wave) (amp : BitVec 26) (pitch : BitVec 16) :
    ∃ o1 o2 v act, pcmStep p w amp pitch = { w with out1 := o1, out2 := o2, pos := v, active := act } ∧
      (pcmRangeOk p w.base w.len = true →
        (act = w.active ∧ v.toNat < w.len.toNat * 2 ^ p.pcmFracBits) ∨
        (act = false ∧ w.loop = false ∧ v.toNat = w.len.toNat * 2 ^ p.pcmFracBits)) := by
  unfold pcmStep
  simp only
  generalize w.pos.toNat + (p.pcmStep pitch).toNat = next
  have hr : pcmRangeOk p w.base w.len = true → 1 ≤ w.len.toNat ∧ w.len.toNat * 2 ^ p.pcmFracBits < 2 ^ 32 := by
    intro h
    simp only [pcmRangeOk, Bool.and_eq_true, decide_eq_true_eq] at h
    exact ⟨h.1.1, h.2⟩
  split
  · rename_i hlt
    refine ⟨_, _, _, _, rfl, fun h => .inl ⟨rfl, ?_⟩⟩
    have := (hr h).2
    rw [BitVec.toNat_ofNat, Nat.mod_eq_of_lt (by omega)]; exact hlt
  · split
    · refine ⟨_, _, _, _, rfl, fun h => .inl ⟨rfl, ?_⟩⟩
      obtain ⟨h1, h2⟩ := hr h
      have hpos : 0 < w.len.toNat * 2 ^ p.pcmFracBits := Nat.mul_pos h1 (Nat.two_pow_pos _)
      have := Nat.mod_lt next hpos
      rw [BitVec.toNat_ofNat, Nat.mod_eq_of_lt (by omega)]; exact this
    · rename_i hl
      refine ⟨_, _, _, _, rfl, fun h => .inr ⟨rfl, by simpa using hl, ?_⟩⟩
      rw [BitVec.toNat_ofNat, Nat.mod_eq_of_lt (hr h).2]

theorem waveStep_frame (p : Params) (w : Wave) (amp : BitVec 26) (pitch : BitVec 16) (cutoff : BitVec 26) :
    LatchesKept w (waveStep p w amp pitch cutoff) := by
  unfold waveStep
  split
  · exact ⟨rfl, rfl, rfl, rfl, rfl, rfl, rfl, rfl⟩
  · split
    · obtain ⟨o1, o2, v, act, e, _⟩ := pcmStep_cases p w amp pitch
      rw [e]; exact ⟨rfl, rfl, rfl, rfl, rfl, rfl, rfl, rfl⟩
    · exact ⟨rfl, rfl, rfl, rfl, rfl, rfl, rfl, rfl⟩

/-- A sample step of an active synthetic wave keeps WG_ACTIVE and WG_POS and moves its segment on in
the cyclic order (rules R169, R170). -/
theorem waveStep_synth (p : Params) {w : Wave} (ha : w.active = true) (hp : w.pcm = false)
    (amp : BitVec 26) (pitch : BitVec 16) (cutoff : BitVec 26) :
    let v := waveStep p w amp pitch cutoff
    let n := p.synthPassed w.synth amp pitch cutoff
    v.active = true ∧ v.pos = w.pos ∧ p.synthSegment v.synth = Segment.next^[n] (p.synthSegment w.synth) ∧
      (n = 0 → p.synthPosition w.synth ≤ p.synthPosition v.synth) := by
  unfold waveStep
  simp only [ha, hp, Bool.not_true, Bool.false_eq_true, if_false]
  exact ⟨ha, rfl, p.synthStep_segment _ _ _ _, p.synthStep_position _ _ _ _⟩

theorem waveStep_ok (p : Params) {w : Wave} (h : w.Ok p) (amp : BitVec 26) (pitch : BitVec 16)
    (cutoff : BitVec 26) : (waveStep p w amp pitch cutoff).Ok p := by
  unfold waveStep
  by_cases ha : w.active = true
  · by_cases hp : w.pcm = true
    · simp only [ha, hp, Bool.not_true, Bool.false_eq_true, if_true, if_false]
      obtain ⟨o1, o2, v, act, e, hv⟩ := pcmStep_cases p w amp pitch
      rw [e]
      rcases hv (h.range ha hp) with ⟨_, hlt⟩ | ⟨he, _, _⟩
      · exact ⟨fun _ _ => h.range ha hp, fun _ _ => hlt⟩
      · exact ⟨fun a => by simp [he] at a, fun a => by simp [he] at a⟩
    · have hf : w.pcm = false := by simpa using hp
      simp only [ha, hf, Bool.not_true, Bool.false_eq_true, if_false]
      exact ⟨fun _ a => by simp [synthWaveStep, hf] at a, fun _ a => by simp [synthWaveStep, hf] at a⟩
  · have hf : w.active = false := by simpa using ha
    simp only [hf, Bool.not_false, if_true]
    exact ⟨fun a => by simp at a, fun a => by simp at a⟩

/-- WGEN's part of a sample changes the wave generator only. -/
theorem generate_eq (p : Params) (x : Slot) : ∃ w, generate p x = { x with wave := w } ∧ LatchesKept x.wave w ∧
    (x.wave.Ok p → w.Ok p) := by
  refine ⟨_, rfl, ?_, ?_⟩
  · have k := waveStep_frame p { x.wave with pitchOut := wavePitch p x } x.ramp.tva.cur (wavePitch p x) x.ramp.tvf.cur
    exact ⟨k.pcm, k.saw, k.loop, k.interp, k.pw, k.res, k.base, k.len⟩
  · intro h
    have h' : Wave.Ok p { x.wave with pitchOut := wavePitch p x } := ⟨h.range, h.inside⟩
    exact waveStep_ok p h' _ _ _

theorem wave_ok_of_inactive (p : Params) {w : Wave} (h : w.active = false) : w.Ok p :=
  ⟨fun a => by simp [h] at a, fun a => by simp [h] at a⟩

/-- A wave that passes the range check starts at the start of the wave (rules R160, R161). -/
theorem initWave_ok (p : Params) {x : Slot} (h : pcmRefused p x = false) : (initWave p x).wave.Ok p := by
  have hr : cfgMode x.regs = true → pcmRangeOk p (pcmBaseField x.regs) (pcmLenField x.regs) = true := by
    intro hm
    simpa [pcmRefused, hm] using h
  refine ⟨fun _ hm => hr hm, fun _ hm => ?_⟩
  have := hr hm
  simp only [pcmRangeOk, Bool.and_eq_true, decide_eq_true_eq] at this
  show 0 < (pcmLenField x.regs).toNat * _
  exact Nat.mul_pos this.1.1 (Nat.two_pow_pos _)

end Sys2Proof.Machine
end

