-- ==== Sys2Proof/Laws/Partial.lean ====
section
/-! SUPPORT. Partial slots and the sample tick: what deactivation, one sample of a slot and the TICK
loop can do. -/

namespace Sys2Proof.Machine

/-! ### One sample, inside the slot -/

/-- What one sample of a slot leaves alone (rule R287). -/
structure SampleFrame (x y : Slot) : Prop where
  regs : y.regs = x.regs
  lp : y.lp = x.lp
  baseCutoff : y.baseCutoff = x.baseCutoff
  latches : LatchesKept x.wave y.wave
  active : y.active = x.active
  role : y.role = x.role
  mix : y.mix = x.mix
  pairOut : y.pairOut = x.pairOut

/-- The envelope part of a sample (rule R287). -/
def envSteps (p : Params) (x : Slot) : Slot := envStep p (envStep p (envStep p x .tvp) .tvf) .tva

theorem envSample_eq (p : Params) (x : Slot) : envSample p x = generate p (envSteps p x) := rfl

theorem envSteps_frame (p : Params) (x : Slot) :
    (envSteps p x).regs = x.regs ∧ (envSteps p x).lp = x.lp ∧ (envSteps p x).baseCutoff = x.baseCutoff ∧
      (envSteps p x).wave = x.wave ∧ (envSteps p x).active = x.active ∧ (envSteps p x).role = x.role ∧
      (envSteps p x).mix = x.mix ∧ (envSteps p x).pairOut = x.pairOut := by
  have a := envStep_frame p x .tvp
  have b := envStep_frame p (envStep p x .tvp) .tvf
  have c := envStep_frame p (envStep p (envStep p x .tvp) .tvf) .tva
  exact ⟨c.regs.trans (b.regs.trans a.regs), c.lp.trans (b.lp.trans a.lp),
    c.baseCutoff.trans (b.baseCutoff.trans a.baseCutoff), c.wave.trans (b.wave.trans a.wave),
    c.active.trans (b.active.trans a.active), c.role.trans (b.role.trans a.role),
    c.mix.trans (b.mix.trans a.mix), c.pairOut.trans (b.pairOut.trans a.pairOut)⟩

theorem envSample_frame (p : Params) (x : Slot) : SampleFrame x (envSample p x) := by
  obtain ⟨h1, h2, h3, h4, h5, h6, h7, h8⟩ := envSteps_frame p x
  obtain ⟨w, e, k, _⟩ := generate_eq p (envSteps p x)
  rw [envSample_eq, e]
  rw [h4] at k
  exact ⟨h1, h2, h3, k, h5, h6, h7, h8⟩

theorem envSample_ok (p : Params) {i : SlotIx} {x : Slot} (h : x.Ok p i) : (envSample p x).Ok p i := by
  have f := envSample_frame p x
  have hr : (envSteps p x).RampsOk :=
    envStep_rampsOk p (envStep_rampsOk p (envStep_rampsOk p h.ramps .tvp) .tvf) .tva
  obtain ⟨w, e, _, k⟩ := generate_eq p (envSteps p x)
  have hw : (envSteps p x).wave = x.wave := (envSteps_frame p x).2.2.2.1
  refine ⟨by rw [f.regs]; exact h.regs, ?_, ?_, ?_⟩
  · rw [envSample_eq, e]; exact hr
  · rw [envSample_eq, e]; exact k (by rw [hw]; exact h.wave)
  · unfold Slot.RoleOk; rw [f.role, f.mix]; exact h.role

/-! ### Starting a slot -/

/-- The slot that PSTART hands to its three ESTARTs. -/
def boundSlot (p : Params) (mix : MixType) (i : SlotIx) (x : Slot) : Slot :=
  { initWave p { x with ramp := ⟨resetRamp, resetRamp, resetRamp⟩ } with mix := mix, role := roleFor mix i }

theorem startSlot_eq (p : Params) (mix : MixType) (i : SlotIx) (x : Slot) :
    startSlot p mix i x =
      { startEnv p (startEnv p (startEnv p (boundSlot p mix i x) .tva) .tvp) .tvf with active := true } := rfl

theorem startSlot_frame (p : Params) (mix : MixType) (i : SlotIx) (x : Slot) :
    (startSlot p mix i x).regs = x.regs ∧ (startSlot p mix i x).wave = (initWave p x).wave ∧
      (startSlot p mix i x).active = true ∧ (startSlot p mix i x).role = roleFor mix i ∧
      (startSlot p mix i x).mix = mix ∧ (startSlot p mix i x).pairOut = x.pairOut := by
  obtain ⟨a1, a2, _, a4, a5, a6, _⟩ := startEnv_frame p (boundSlot p mix i x) .tva
  obtain ⟨b1, b2, _, b4, b5, b6, _⟩ := startEnv_frame p (startEnv p (boundSlot p mix i x) .tva) .tvp
  obtain ⟨c1, c2, _, c4, c5, c6, _⟩ :=
    startEnv_frame p (startEnv p (startEnv p (boundSlot p mix i x) .tva) .tvp) .tvf
  rw [startSlot_eq]
  exact ⟨c1.trans (b1.trans a1), c2.trans (b2.trans a2), rfl, c4.trans (b4.trans a4),
    c5.trans (b5.trans a5), c6.trans (b6.trans a6)⟩

theorem startSlot_ok (p : Params) {i : SlotIx} {x : Slot} (h : x.Ok p i) (hp : pcmRefused p x = false)
    (mix : MixType) : (startSlot p mix i x).Ok p i := by
  obtain ⟨f1, f2, _, f4, f5, _⟩ := startSlot_frame p mix i x
  refine ⟨by rw [f1]; exact h.regs, ?_, by rw [f2]; exact initWave_ok p hp, by unfold Slot.RoleOk; rw [f4, f5]⟩
  have h0 : (boundSlot p mix i x).RampsOk := by
    intro c; cases c <;> exact resetRamp_ok
  rw [startSlot_eq]
  exact startEnv_rampsOk p (startEnv_rampsOk p (startEnv_rampsOk p h0 .tva) .tvp) .tvf

/-! ### Deactivation -/

/-- What an operation on slots leaves alone in the rest of the state: all that only the host, an error
or a result-returning command writes. -/
structure Quiet (s t : State) : Prop where
  result : t.result = s.result
  err : t.err = s.err
  errCode : t.errCode = s.errCode
  irqEn : t.irqEn = s.irqEn
  sampleCnt : t.sampleCnt = s.sampleCnt
  host : t.host = s.host
  readData : t.readData = s.readData

theorem Quiet.refl (s : State) : Quiet s s := ⟨rfl, rfl, rfl, rfl, rfl, rfl, rfl⟩

theorem Quiet.trans {s t u : State} (h : Quiet s t) (k : Quiet t u) : Quiet s u :=
  ⟨k.result.trans h.result, k.err.trans h.err, k.errCode.trans h.errCode, k.irqEn.trans h.irqEn,
    k.sampleCnt.trans h.sampleCnt, k.host.trans h.host, k.readData.trans h.readData⟩

theorem modSlot_quiet (s : State) (i : SlotIx) (f : Slot → Slot) : Quiet s (s.modSlot i f) :=
  ⟨rfl, rfl, rfl, rfl, rfl, rfl, rfl⟩

/-- A slot after `clearActive`. -/
def silenced (x : Slot) : Slot := { x with active := false, wave := { x.wave with active := false } }

theorem clearActive_slot (s : State) (i j : SlotIx) :
    (clearActive s i).slot j = if j = i then silenced (s.slot i) else s.slot j :=
  slot_modSlot s i j silenced

@[simp] theorem clearActive_slot_same (s : State) (i : SlotIx) :
    (clearActive s i).slot i = silenced (s.slot i) := by simp [clearActive_slot]

theorem clearActive_slot_ne (s : State) {i j : SlotIx} (h : j ≠ i) :
    (clearActive s i).slot j = s.slot j := by simp [clearActive_slot, h]

theorem clearActive_quiet (s : State) (i : SlotIx) : Quiet s (clearActive s i) :=
  ⟨rfl, rfl, rfl, rfl, rfl, rfl, rfl⟩

@[simp] theorem clearActive_outL (s : State) (i : SlotIx) : (clearActive s i).outL = s.outL := rfl
@[simp] theorem clearActive_outR (s : State) (i : SlotIx) : (clearActive s i).outR = s.outR := rfl
@[simp] theorem clearActive_irqPend (s : State) (i : SlotIx) :
    (clearActive s i).irqPend = setPending s.irqPend i := rfl

theorem coupledSlot_ne {s : State} {i t : SlotIx} (h : coupledSlot s i = some t) : t ≠ i := by
  unfold coupledSlot at h
  split at h
  · exact nomatch h
  · simp only at h
    split at h
    · cases h; exact slot_succ_ne i
    · exact nomatch h
  · simp only at h
    split at h
    · cases h; exact slot_pred_ne i
    · exact nomatch h

theorem coupledSlot_active {s : State} {i t : SlotIx} (h : coupledSlot s i = some t) :
    (s.slot t).active = true := by
  unfold coupledSlot at h
  split at h
  · exact nomatch h
  · simp only at h
    split at h
    · rename_i hh; cases h; simp at hh; exact hh.1
    · exact nomatch h
  · simp only at h
    split at h
    · rename_i hh; cases h; simp at hh; exact hh.1.2
    · exact nomatch h

/-- Deactivation does nothing to an inactive slot, and else silences the slot and at most one coupled
active slot (rule R280). -/
theorem deactivate_cases (s : State) (i : SlotIx) :
    ((s.slot i).active = false ∧ deactivate s i = s) ∨
    ((s.slot i).active = true ∧ coupledSlot (clearActive s i) i = none ∧ deactivate s i = clearActive s i) ∨
    (∃ t, (s.slot i).active = true ∧ coupledSlot (clearActive s i) i = some t ∧ t ≠ i ∧
      (s.slot t).active = true ∧ deactivate s i = clearActive (clearActive s i) t) := by
  by_cases ha : (s.slot i).active = true
  · right
    cases hc : coupledSlot (clearActive s i) i with
    | none => exact .inl ⟨ha, rfl, by simp only [deactivate, ha, hc, Bool.not_true, Bool.false_eq_true, if_false]⟩
    | some t =>
      have hne := coupledSlot_ne hc
      have hact := coupledSlot_active hc
      rw [clearActive_slot_ne s hne] at hact
      exact .inr ⟨t, ha, rfl, hne, hact,
        by simp only [deactivate, ha, hc, Bool.not_true, Bool.false_eq_true, if_false]⟩
  · have hf : (s.slot i).active = false := by simpa using ha
    exact .inl ⟨hf, by simp only [deactivate, hf, Bool.not_false, if_true]⟩

theorem deactivate_quiet (s : State) (i : SlotIx) : Quiet s (deactivate s i) := by
  rcases deactivate_cases s i with ⟨_, e⟩ | ⟨_, _, e⟩ | ⟨t, _, _, _, _, e⟩ <;> rw [e]
  · exact Quiet.refl s
  · exact clearActive_quiet s i
  · exact (clearActive_quiet s i).trans (clearActive_quiet _ t)

theorem deactivate_out (s : State) (i : SlotIx) :
    (deactivate s i).outL = s.outL ∧ (deactivate s i).outR = s.outR := by
  rcases deactivate_cases s i with ⟨_, e⟩ | ⟨_, _, e⟩ | ⟨t, _, _, _, _, e⟩ <;> rw [e] <;> exact ⟨rfl, rfl⟩

/-- A slot after a deactivation is as it was, or was active and is silenced. -/
theorem deactivate_slot (s : State) (i j : SlotIx) :
    (deactivate s i).slot j = s.slot j ∨
      ((s.slot j).active = true ∧ (deactivate s i).slot j = silenced (s.slot j)) := by
  rcases deactivate_cases s i with ⟨_, e⟩ | ⟨ha, _, e⟩ | ⟨t, ha, _, hne, hact, e⟩ <;> rw [e]
  · exact .inl rfl
  · rw [clearActive_slot]
    split
    · rename_i h; subst h; exact .inr ⟨ha, rfl⟩
    · exact .inl rfl
  · rw [clearActive_slot]
    split
    · rename_i h; subst h
      rw [clearActive_slot_ne s hne]; exact .inr ⟨hact, rfl⟩
    · rw [clearActive_slot]
      split
      · rename_i h; subst h; exact .inr ⟨ha, rfl⟩
      · exact .inl rfl

theorem deactivate_self_inactive (s : State) (i : SlotIx) : ((deactivate s i).slot i).active = false := by
  rcases deactivate_cases s i with ⟨h, e⟩ | ⟨_, _, e⟩ | ⟨t, _, _, hne, _, e⟩ <;> rw [e]
  · exact h
  · simp [silenced]
  · rw [clearActive_slot_ne _ (Ne.symm hne)]; simp [silenced]

theorem silenced_ok (p : Params) {i : SlotIx} {x : Slot} (h : x.Ok p i) : (silenced x).Ok p i :=
  ⟨h.regs, h.ramps, wave_ok_of_inactive p rfl, h.role⟩

/-! ### IRQ_PEND -/

/-- Bit k of a one-bit mask. -/
theorem getLsbD_oneHot (i k : SlotIx) : (1#32 <<< i.toNat).getLsbD k.toNat = decide (k = i) := by
  revert i k; decide

theorem setPending_bit (pend : Word) (i k : SlotIx) :
    (setPending pend i).getLsbD k.toNat = (pend.getLsbD k.toNat || decide (k = i)) := by
  rw [setPending, BitVec.getLsbD_or, getLsbD_oneHot]

/-- The host is told of exactly the slots that an operation deactivated (rules R47, R280). -/
def PendingTold (s t : State) : Prop :=
  ∀ k : SlotIx, t.irqPend.getLsbD k.toNat =
    (s.irqPend.getLsbD k.toNat || ((s.slot k).active && !(t.slot k).active))

/-- No slot became active. -/
def NoneStarted (s t : State) : Prop := ∀ k, (t.slot k).active = true → (s.slot k).active = true

theorem NoneStarted.refl (s : State) : NoneStarted s s := fun _ h => h

theorem NoneStarted.trans {s t u : State} (h : NoneStarted s t) (k : NoneStarted t u) : NoneStarted s u :=
  fun i a => h i (k i a)

theorem PendingTold.refl (s : State) : PendingTold s s := fun k => by simp

theorem PendingTold.trans {s t u : State} (h : PendingTold s t) (k : PendingTold t u)
    (n1 : NoneStarted s t) (n2 : NoneStarted t u) : PendingTold s u := by
  intro i
  have a := n1 i
  have b := n2 i
  rw [k i, h i]
  generalize (s.slot i).active = x at *
  generalize (t.slot i).active = y at *
  generalize (u.slot i).active = z at *
  cases x <;> cases y <;> cases z <;> simp_all

theorem pendingTold_of_eq {s t : State} (h : t.irqPend = s.irqPend)
    (k : ∀ i, (t.slot i).active = (s.slot i).active) : PendingTold s t := by
  intro i; rw [h, k i]; cases (s.slot i).active <;> simp

theorem clearActive_told {s : State} {i : SlotIx} (h : (s.slot i).active = true) :
    PendingTold s (clearActive s i) := by
  intro k
  rw [clearActive_irqPend, setPending_bit, clearActive_slot]
  by_cases hk : k = i
  · subst hk; simp [h, silenced]
  · simp [hk]

theorem clearActive_noneStarted (s : State) (i : SlotIx) : NoneStarted s (clearActive s i) := by
  intro k hk
  rw [clearActive_slot] at hk
  split at hk
  · exact nomatch hk
  · exact hk

theorem deactivate_told (s : State) (i : SlotIx) :
    PendingTold s (deactivate s i) ∧ NoneStarted s (deactivate s i) := by
  rcases deactivate_cases s i with ⟨_, e⟩ | ⟨ha, _, e⟩ | ⟨t, ha, _, hne, hact, e⟩ <;> rw [e]
  · exact ⟨PendingTold.refl s, NoneStarted.refl s⟩
  · exact ⟨clearActive_told ha, clearActive_noneStarted s i⟩
  · have h2 : ((clearActive s i).slot t).active = true := by rw [clearActive_slot_ne s hne]; exact hact
    exact ⟨(clearActive_told ha).trans (clearActive_told h2) (clearActive_noneStarted s i)
      (clearActive_noneStarted _ t), (clearActive_noneStarted s i).trans (clearActive_noneStarted _ t)⟩

/-! ### The TICK loop -/

/-- Packaged induction: what every pass of a loop does, the whole loop does. -/
theorem foldl_rel {α : Type} (R : State → State → Prop) (refl : ∀ s, R s s)
    (trans : ∀ s t u, R s t → R t u → R s u) (f : State → α → State) (step : ∀ s a, R s (f s a))
    (l : List α) (s : State) : R s (l.foldl f s) := by
  induction l generalizing s with
  | nil => exact refl s
  | cons a l ih => exact trans _ _ _ (step s a) (ih (f s a))

/-- What the TICK loop does to a slot at any point: nothing, one sample, PAIR_OUT, or silence. -/
inductive SlotMove (p : Params) (x : Slot) : Slot → Prop where
  | same : SlotMove p x x
  | sample : x.active = true → alive x = true → SlotMove p x (envSample p x)
  | emit (v : BitVec 16) : SlotMove p x { x with pairOut := v }
  | silence : x.active = true → SlotMove p x (silenced x)

theorem emitSample_slot (p : Params) (s : State) (i j : SlotIx) :
    (emitSample p s i).slot j = if j = i then { s.slot i with pairOut := pairOut p s i } else s.slot j :=
  slot_modSlot s i j fun x => { x with pairOut := pairOut p s i }

theorem emitSample_quiet (p : Params) (s : State) (i : SlotIx) : Quiet s (emitSample p s i) :=
  ⟨rfl, rfl, rfl, rfl, rfl, rfl, rfl⟩

@[simp] theorem emitSample_irqPend (p : Params) (s : State) (i : SlotIx) :
    (emitSample p s i).irqPend = s.irqPend := rfl

/-- What one pass of the TICK loop can do, said once (rules R285-R288): nothing; deactivate a dead
slot; or advance slot i, then advance or deactivate an attached slave, then emit. -/
theorem tickSlot_cases (p : Params) (s : State) (i : SlotIx) :
    tickSlot p s i = s ∨
    ((s.slot i).active = true ∧ attachedSlave s i = false ∧ alive (s.slot i) = false ∧
      tickSlot p s i = deactivate s i) ∨
    ((s.slot i).active = true ∧ attachedSlave s i = false ∧ alive (s.slot i) = true ∧
      ∃ u, u = s.modSlot i (envSample p) ∧
      ((hasActiveSlave u i = false ∧ tickSlot p s i = emitSample p u i) ∨
       (hasActiveSlave u i = true ∧ alive (u.slot (i + 1#5)) = true ∧
          tickSlot p s i = emitSample p (u.modSlot (i + 1#5) (envSample p)) i) ∨
       (hasActiveSlave u i = true ∧ alive (u.slot (i + 1#5)) = false ∧
          (((deactivate u (i + 1#5)).slot i).active = true ∧
              tickSlot p s i = emitSample p (deactivate u (i + 1#5)) i ∨
           ((deactivate u (i + 1#5)).slot i).active = false ∧
              tickSlot p s i = deactivate u (i + 1#5))))) := by
  by_cases ha : (s.slot i).active = true
  · by_cases hs : attachedSlave s i = true
    · exact .inl (by simp [tickSlot, hs])
    · have hs' : attachedSlave s i = false := by simpa using hs
      have ht : tickSlot p s i = produceSample p s i := by simp [tickSlot, ha, hs']
      rw [ht]
      right
      by_cases hl : alive (s.slot i) = true
      · right
        refine ⟨ha, hs', hl, _, rfl, ?_⟩
        generalize hu : s.modSlot i (envSample p) = u
        have hp : produceSample p s i =
            if hasActiveSlave u i then emitWithSlave p u i (i + 1#5) else emitSample p u i := by
          simp [produceSample, hl, hu]
        rw [hp]
        by_cases hh : hasActiveSlave u i = true
        · right
          rw [if_pos hh]
          by_cases hv : alive (u.slot (i + 1#5)) = true
          · exact .inl ⟨hh, hv, by simp [emitWithSlave, hv]⟩
          · have hv' : alive (u.slot (i + 1#5)) = false := by simpa using hv
            refine .inr ⟨hh, hv', ?_⟩
            by_cases hd : ((deactivate u (i + 1#5)).slot i).active = true
            · exact .inl ⟨hd, by simp [emitWithSlave, hv', hd]⟩
            · exact .inr ⟨by simpa using hd, by simp [emitWithSlave, hv', hd]⟩
        · rw [if_neg hh]
          exact .inl ⟨by simpa using hh, rfl⟩
      · have hl' : alive (s.slot i) = false := by simpa using hl
        exact .inl ⟨ha, hs', hl', by simp [produceSample, hl']⟩
  · exact .inl (by simp [tickSlot, ha])

theorem tickSlot_quiet (p : Params) (s : State) (i : SlotIx) : Quiet s (tickSlot p s i) := by
  rcases tickSlot_cases p s i with e | ⟨_, _, _, e⟩ | ⟨_, _, _, u, hu, ⟨_, e⟩ | ⟨_, _, e⟩ | ⟨_, _, ⟨_, e⟩ | ⟨_, e⟩⟩⟩ <;> rw [e]
  · exact Quiet.refl s
  · exact deactivate_quiet s i
  all_goals
    have hq : Quiet s u := by rw [hu]; exact modSlot_quiet s i _
  · exact hq.trans (emitSample_quiet p u i)
  · exact hq.trans ((modSlot_quiet u _ _).trans (emitSample_quiet p _ i))
  · exact hq.trans ((deactivate_quiet u _).trans (emitSample_quiet p _ i))
  · exact hq.trans (deactivate_quiet u _)

/-- A property of slots that samples, PAIR_OUT writes and silencing keep is kept by the TICK loop. -/
theorem tickSlot_slots (p : Params) (P : SlotIx → Slot → Prop)
    (hs : ∀ k x, P k x → x.active = true → alive x = true → P k (envSample p x))
    (he : ∀ k x v, P k x → P k { x with pairOut := v })
    (hq : ∀ k x, P k x → x.active = true → P k (silenced x))
    (s : State) (i : SlotIx) (h : ∀ k, P k (s.slot k)) : ∀ k, P k ((tickSlot p s i).slot k) := by
  have hdeact : ∀ (u : State) (j : SlotIx), (∀ k, P k (u.slot k)) → ∀ k, P k ((deactivate u j).slot k) := by
    intro u j hu k
    rcases deactivate_slot u j k with e | ⟨ha, e⟩ <;> rw [e]
    · exact hu k
    · exact hq k _ (hu k) ha
  have hmod : ∀ (u : State) (j : SlotIx), (∀ k, P k (u.slot k)) → (u.slot j).active = true →
      alive (u.slot j) = true → ∀ k, P k ((u.modSlot j (envSample p)).slot k) := by
    intro u j hu ha hl k
    rw [slot_modSlot]
    split
    · rename_i hk; subst hk; exact hs _ _ (hu _) ha hl
    · exact hu k
  have hemit : ∀ (u : State) (j : SlotIx), (∀ k, P k (u.slot k)) → ∀ k, P k ((emitSample p u j).slot k) := by
    intro u j hu k
    rw [emitSample_slot]
    split
    · rename_i hk; subst hk; exact he _ _ _ (hu _)
    · exact hu k
  rcases tickSlot_cases p s i with e | ⟨_, _, _, e⟩ | ⟨ha, _, hl, u, hu, ⟨_, e⟩ | ⟨hh, hv, e⟩ | ⟨_, _, ⟨_, e⟩ | ⟨_, e⟩⟩⟩ <;> rw [e]
  · exact h
  · exact hdeact s i h
  all_goals
    have hm : ∀ k, P k (u.slot k) := by rw [hu]; exact hmod s i h ha hl
  · exact hemit u i hm
  · refine hemit _ i (hmod u _ hm ?_ hv)
    simp only [hasActiveSlave, Bool.and_eq_true] at hh
    exact hh.1.2
  · exact hemit _ i (hdeact u _ hm)
  · exact hdeact u _ hm

theorem tickSlot_told (p : Params) (s : State) (i : SlotIx) :
    PendingTold s (tickSlot p s i) ∧ NoneStarted s (tickSlot p s i) := by
  have hmod : ∀ (u : State) (j : SlotIx), PendingTold u (u.modSlot j (envSample p)) ∧
      NoneStarted u (u.modSlot j (envSample p)) := by
    intro u j
    have h : ∀ k, ((u.modSlot j (envSample p)).slot k).active = (u.slot k).active := by
      intro k; rw [slot_modSlot]; split
      · rename_i hk; subst hk; exact (envSample_frame p _).active
      · rfl
    exact ⟨pendingTold_of_eq rfl h, fun k hk => by rw [h k] at hk; exact hk⟩
  have hemit : ∀ (u : State) (j : SlotIx), PendingTold u (emitSample p u j) ∧ NoneStarted u (emitSample p u j) := by
    intro u j
    have h : ∀ k, ((emitSample p u j).slot k).active = (u.slot k).active := by
      intro k; rw [emitSample_slot]; split
      · rename_i hk; subst hk; rfl
      · rfl
    exact ⟨pendingTold_of_eq rfl h, fun k hk => by rw [h k] at hk; exact hk⟩
  have tr : ∀ {a b c : State}, PendingTold a b ∧ NoneStarted a b → PendingTold b c ∧ NoneStarted b c →
      PendingTold a c ∧ NoneStarted a c := fun h k => ⟨h.1.trans k.1 h.2 k.2, h.2.trans k.2⟩
  rcases tickSlot_cases p s i with e | ⟨_, _, _, e⟩ | ⟨_, _, _, u, hu, ⟨_, e⟩ | ⟨_, _, e⟩ | ⟨_, _, ⟨_, e⟩ | ⟨_, e⟩⟩⟩ <;> rw [e]
  · exact ⟨PendingTold.refl s, NoneStarted.refl s⟩
  · exact deactivate_told s i
  all_goals
    have hm : PendingTold s u ∧ NoneStarted s u := by rw [hu]; exact hmod s i
  · exact tr hm (hemit u i)
  · exact tr hm (tr (hmod u _) (hemit _ i))
  · exact tr hm (tr (deactivate_told u _) (hemit _ i))
  · exact tr hm (deactivate_told u _)

@[simp] theorem clearFrame_slot (s : State) (i : SlotIx) : (clearFrame s).slot i = s.slot i := rfl
@[simp] theorem clearFrame_irqPend (s : State) : (clearFrame s).irqPend = s.irqPend := rfl
@[simp] theorem clearFrame_outL (s : State) : (clearFrame s).outL = 0#32 := rfl
@[simp] theorem clearFrame_outR (s : State) : (clearFrame s).outR = 0#32 := rfl
theorem clearFrame_quiet (s : State) : Quiet s (clearFrame s) := ⟨rfl, rfl, rfl, rfl, rfl, rfl, rfl⟩

@[simp] theorem countSample_slot (s : State) (i : SlotIx) : (countSample s).slot i = s.slot i := rfl
@[simp] theorem countSample_irqPend (s : State) : (countSample s).irqPend = s.irqPend := rfl
@[simp] theorem countSample_outL (s : State) : (countSample s).outL = s.outL := rfl
@[simp] theorem countSample_outR (s : State) : (countSample s).outR = s.outR := rfl
@[simp] theorem countSample_sampleCnt (s : State) : (countSample s).sampleCnt = s.sampleCnt + 1#32 := rfl

/-- A reflexive and transitive relation that every pass of the loop respects holds across the loop. -/
theorem passSlots_rel (R : State → State → Prop) (refl : ∀ s, R s s)
    (trans : ∀ s t u, R s t → R t u → R s u) (p : Params) (step : ∀ s i, R s (tickSlot p s i)) (s : State) :
    R s (passSlots p s) := by
  unfold passSlots
  exact foldl_rel R refl trans (tickSlot p) step allSlots s

theorem passSlots_quiet (p : Params) (s : State) : Quiet s (passSlots p s) :=
  passSlots_rel Quiet Quiet.refl (fun _ _ _ => Quiet.trans) p (tickSlot_quiet p) s

/-- A property of slots that samples, PAIR_OUT writes and silencing keep is kept by TICK. -/
theorem tick_slots (p : Params) (P : SlotIx → Slot → Prop)
    (hs : ∀ k x, P k x → x.active = true → alive x = true → P k (envSample p x))
    (he : ∀ k x v, P k x → P k { x with pairOut := v })
    (hq : ∀ k x, P k x → x.active = true → P k (silenced x))
    (s : State) (h : ∀ k, P k (s.slot k)) : ∀ k, P k ((tick p s).slot k) :=
  passSlots_rel (fun a b => (∀ k, P k (a.slot k)) → ∀ k, P k (b.slot k)) (fun _ h => h)
    (fun _ _ _ h k x => k (h x)) p (fun a i ha => tickSlot_slots p P hs he hq a i ha) (clearFrame s) h

theorem passSlots_told (p : Params) (s : State) :
    PendingTold s (passSlots p s) ∧ NoneStarted s (passSlots p s) :=
  passSlots_rel (fun a b => PendingTold a b ∧ NoneStarted a b)
    (fun a => ⟨PendingTold.refl a, NoneStarted.refl a⟩)
    (fun _ _ _ h k => ⟨h.1.trans k.1 h.2 k.2, h.2.trans k.2⟩) p (tickSlot_told p) s

theorem tick_told (p : Params) (s : State) : PendingTold s (tick p s) ∧ NoneStarted s (tick p s) :=
  passSlots_told p (clearFrame s)

/-- What TICK leaves alone outside the slots (rule R51). -/
theorem tick_frame (p : Params) (s : State) :
    (tick p s).result = s.result ∧ (tick p s).err = s.err ∧ (tick p s).errCode = s.errCode ∧
      (tick p s).irqEn = s.irqEn ∧ (tick p s).host = s.host ∧ (tick p s).readData = s.readData ∧
      (tick p s).sampleCnt = s.sampleCnt + 1#32 := by
  have q := (clearFrame_quiet s).trans (passSlots_quiet p (clearFrame s))
  exact ⟨q.result, q.err, q.errCode, q.irqEn, q.host, q.readData, by
    show (passSlots p (clearFrame s)).sampleCnt + 1#32 = _
    rw [q.sampleCnt]⟩

/-- The parameter registers of every slot are as before the TICK (rule R51). -/
theorem tick_regs (p : Params) (s : State) (k : SlotIx) : ((tick p s).slot k).regs = (s.slot k).regs := by
  exact tick_slots p (fun k x => x.regs = (s.slot k).regs)
    (fun k x h _ _ => (envSample_frame p x).regs.trans h) (fun _ _ _ h => h) (fun _ _ h _ => h) s
    (fun _ => rfl) k

theorem tick_slots_ok (p : Params) {s : State} (h : ∀ i, (s.slot i).Ok p i) :
    ∀ i, ((tick p s).slot i).Ok p i := by
  intro i
  exact tick_slots p (fun i x => x.Ok p i) (fun _ _ hx _ _ => envSample_ok p hx)
    (fun _ _ _ hx => ⟨hx.regs, hx.ramps, hx.wave, hx.role⟩) (fun _ _ hx _ => silenced_ok p hx) s h i

end Sys2Proof.Machine
end

