-- ==== Sys2Proof/Laws/PerInstr.lean ====
section
/-! SUPPORT. One fact for every command, command by command: the opcode of its command word, and that
the word's bits outside the fields the opcode reads are 0 (rules R103, R104). -/

namespace Sys2Proof.Laws.OpcodeField

/-- The row of rule R103 for a command: its opcode and the fields it reads. -/
def rowOf : Instr → Byte × Fields
  | .nop => (0x00#8, .none)
  | .rstart _ _ _ _ => (0x01#8, .slotUnitAB)
  | .rnext _ _ => (0x02#8, .slotUnit)
  | .rchki _ _ => (0x03#8, .slotUnit)
  | .rreset _ _ => (0x04#8, .slotUnit)
  | .winit _ => (0x10#8, .slot)
  | .wgen _ => (0x11#8, .slot)
  | .wdeact _ => (0x12#8, .slot)
  | .pairout _ => (0x18#8, .slot)
  | .estart _ _ => (0x20#8, .slotUnit)
  | .edecay _ _ => (0x21#8, .slotUnit)
  | .eabort _ => (0x22#8, .slot)
  | .eintr _ _ => (0x23#8, .slotUnit)
  | .pstart _ => (0x30#8, .slot)
  | .pstop _ => (0x31#8, .slot)
  | .pdecay _ => (0x32#8, .slot)
  | .pabort _ => (0x33#8, .slot)
  | .tick => (0x40#8, .none)

/-- The command word has the opcode of the command's row, and passes the row's mask check. -/
def Statement (i : Instr) : Prop :=
  opcField (encode i) = (rowOf i).1 ∧ encode i &&& (rowOf i).2.mask = (rowOf i).1 ++ 0#24

theorem nop : Statement .nop := ⟨opcField_enc .., enc_mask_none _⟩
theorem rstart (slot : SlotIx) (unit : BitVec 2) (target code : Byte) :
    Statement (.rstart slot unit target code) := ⟨opcField_enc .., enc_mask_slotUnitAB ..⟩
theorem rnext (slot : SlotIx) (unit : BitVec 2) : Statement (.rnext slot unit) :=
  ⟨opcField_enc .., enc_mask_slotUnit ..⟩
theorem rchki (slot : SlotIx) (unit : BitVec 2) : Statement (.rchki slot unit) :=
  ⟨opcField_enc .., enc_mask_slotUnit ..⟩
theorem rreset (slot : SlotIx) (unit : BitVec 2) : Statement (.rreset slot unit) :=
  ⟨opcField_enc .., enc_mask_slotUnit ..⟩
theorem winit (slot : SlotIx) : Statement (.winit slot) := ⟨opcField_enc .., enc_mask_slot ..⟩
theorem wgen (slot : SlotIx) : Statement (.wgen slot) := ⟨opcField_enc .., enc_mask_slot ..⟩
theorem wdeact (slot : SlotIx) : Statement (.wdeact slot) := ⟨opcField_enc .., enc_mask_slot ..⟩
theorem pairout (slot : SlotIx) : Statement (.pairout slot) := ⟨opcField_enc .., enc_mask_slot ..⟩
theorem estart (slot : SlotIx) (unit : BitVec 2) : Statement (.estart slot unit) :=
  ⟨opcField_enc .., enc_mask_slotUnit ..⟩
theorem edecay (slot : SlotIx) (unit : BitVec 2) : Statement (.edecay slot unit) :=
  ⟨opcField_enc .., enc_mask_slotUnit ..⟩
theorem eabort (slot : SlotIx) : Statement (.eabort slot) := ⟨opcField_enc .., enc_mask_slot ..⟩
theorem eintr (slot : SlotIx) (unit : BitVec 2) : Statement (.eintr slot unit) :=
  ⟨opcField_enc .., enc_mask_slotUnit ..⟩
theorem pstart (slot : SlotIx) : Statement (.pstart slot) := ⟨opcField_enc .., enc_mask_slot ..⟩
theorem pstop (slot : SlotIx) : Statement (.pstop slot) := ⟨opcField_enc .., enc_mask_slot ..⟩
theorem pdecay (slot : SlotIx) : Statement (.pdecay slot) := ⟨opcField_enc .., enc_mask_slot ..⟩
theorem pabort (slot : SlotIx) : Statement (.pabort slot) := ⟨opcField_enc .., enc_mask_slot ..⟩
theorem tick : Statement .tick := ⟨opcField_enc .., enc_mask_none _⟩

end Sys2Proof.Laws.OpcodeField
end

