-- ==== Sys2Proof/Laws/Shape.lean ====
section
/-! SUPPORT. Everything a command can do to the state, said once: record an error, change one slot and
possibly RESULT, start a slot, stop a slot, or run a TICK. -/

namespace Sys2Proof.Machine

/-- The state t is one that the command i can lead to from s. -/
inductive ExecShape (i : Instr) (s : State) : State → Prop where
  /-- An error recorded and nothing else. -/
  | error (e : ErrCode) (h : i.wf = false ∨ (∃ k, i = .winit k) ∨ ∃ k, i = .pstart k) :
      ExecShape i s (s.record e)
  /-- One slot changed, its parameter registers and ACTIVE kept, and perhaps RESULT. -/
  | oneSlot (k : SlotIx) (f : Slot → Slot) (w : Word) (hregs : (f (s.slot k)).regs = (s.slot k).regs)
      (hactive : (f (s.slot k)).active = (s.slot k).active) (hi : i ≠ .tick)
      (hw : w = s.result ∨ (∃ k u, i = .rnext k u) ∨ (∃ k u, i = .rchki k u) ∨ ∃ k, i = .pairout k) :
      ExecShape i s { s.modSlot k f with result := w }
  /-- A PSTART whose wave is in range. -/
  | start (k : SlotIx) (hi : i = .pstart k) (h : pcmRefused Config.hardware (s.slot k) = false) :
      ExecShape i s (doPstart Config.hardware k s)
  /-- A PSTOP. -/
  | stop (k : SlotIx) (hi : i = .pstop k) : ExecShape i s (deactivate s k)
  /-- A TICK. -/
  | tick (hi : i = .tick) : ExecShape i s (Sys2Proof.Machine.tick Config.hardware s)

/-- A command that changes one slot and leaves RESULT. -/
theorem ExecShape.slot {i : Instr} {s : State} (k : SlotIx) (f : Slot → Slot)
    (hregs : (f (s.slot k)).regs = (s.slot k).regs)
    (hactive : (f (s.slot k)).active = (s.slot k).active) (hi : i ≠ .tick) :
    ExecShape i s (s.modSlot k f) :=
  .oneSlot (i := i) (s := s) k f s.result hregs hactive hi (.inl rfl)

/-- A command that reads UNIT has a shape if its effect has it on every controller. -/
theorem ExecShape.unit {i : Instr} {s : State} {u : BitVec 2} (hu : i.wf = unitOk u) (f : Ctl → State)
    (h : ∀ c, ExecShape i s (f c)) : ExecShape i s (withUnit u s f) := by
  rcases withUnit_cases u s f with ⟨c, -, e⟩ | ⟨hc, e⟩
  · rw [e]; exact h c
  · rw [e]
    refine .error _ (.inl ?_)
    rw [hu, ← ctlOfUnit_isSome, hc]; rfl

/-- Every command answers a next state, of one of these shapes. -/
theorem exec_shape (i : Instr) (s : State) : ∃ t, exec i s = .next t ∧ ExecShape i s t := by
  cases i with
  | nop =>
    refine ⟨s, rfl, ?_⟩
    have e : s = s.modSlot 0 id := by apply state_ext <;> simp [State.modSlot, slot_setSlot]
    have h : ExecShape .nop s (s.modSlot 0 id) := .slot 0 id rfl rfl nofun
    rwa [← e] at h
  | rstart k u a b => exact ⟨_, rfl, .unit rfl _ fun c => .slot k _ rfl rfl nofun⟩
  | rnext k u => exact ⟨_, rfl, .unit rfl _ fun c =>
      .oneSlot k _ _ rfl rfl nofun (.inr (.inl ⟨k, u, rfl⟩))⟩
  | rchki k u => exact ⟨_, rfl, .unit rfl _ fun c =>
      .oneSlot k _ _ rfl rfl nofun (.inr (.inr (.inl ⟨k, u, rfl⟩)))⟩
  | rreset k u => exact ⟨_, rfl, .unit rfl _ fun c => .slot k _ rfl rfl nofun⟩
  | winit k =>
    refine ⟨_, rfl, ?_⟩
    unfold doWinit
    split
    · exact .error _ (.inr (.inl ⟨k, rfl⟩))
    · exact .slot k _ rfl rfl nofun
  | wgen k => exact ⟨_, rfl, .slot k _ rfl rfl nofun⟩
  | wdeact k => exact ⟨_, rfl, .slot k _ rfl rfl nofun⟩
  | pairout k => exact ⟨_, rfl, .oneSlot k _ _ rfl rfl nofun (.inr (.inr (.inr ⟨k, rfl⟩)))⟩
  | estart k u => exact ⟨_, rfl, .unit rfl _ fun c =>
      .slot k _ (startEnv_frame _ _ c).1 (startEnv_frame _ _ c).2.2.1 nofun⟩
  | edecay k u => exact ⟨_, rfl, .unit rfl _ fun c =>
      .slot k _ (decayEnv_frame _ _ c).regs (decayEnv_frame _ _ c).active nofun⟩
  | eabort k => exact ⟨_, rfl, .slot k _ (abortEnv_frame _ _).regs (abortEnv_frame _ _).active nofun⟩
  | eintr k u => exact ⟨_, rfl, .unit rfl _ fun c =>
      .slot k _ (handleInterrupt_frame _ _ c).regs (handleInterrupt_frame _ _ c).active nofun⟩
  | pstart k =>
    cases h : pcmRefused Config.hardware (s.slot k)
    · exact ⟨_, rfl, .start k rfl h⟩
    · refine ⟨s.record .pcmRange, ?_, .error _ (.inr (.inr ⟨k, rfl⟩))⟩
      rw [exec_pstart, doPstart, if_pos h]; rfl
  | pstop k => exact ⟨_, rfl, .stop k rfl⟩
  | pdecay k =>
    refine ⟨_, rfl, .slot k _ ?_ ?_ nofun⟩ <;> unfold decaySlot <;> split
    · rw [(decayEnv_frame _ _ _).regs, (decayEnv_frame _ _ _).regs, (decayEnv_frame _ _ _).regs]
    · rfl
    · rw [(decayEnv_frame _ _ _).active, (decayEnv_frame _ _ _).active, (decayEnv_frame _ _ _).active]
    · rfl
  | pabort k =>
    refine ⟨_, rfl, .slot k _ ?_ ?_ nofun⟩ <;> unfold abortSlot <;> split
    · exact (abortEnv_frame _ _).regs
    · rfl
    · exact (abortEnv_frame _ _).active
    · rfl
  | tick => exact ⟨_, rfl, .tick rfl⟩

/-- A PSTART that is not refused: the state it starts the slot in, and the start. -/
theorem pstart_shape {p : Params} {k : SlotIx} {s : State} (h : pcmRefused p (s.slot k) = false) :
    ∃ u, doPstart p k s = u.modSlot k (startSlot p (mixTypeField (u.slot (evenSlot k)).regs) k) ∧
      (((s.slot k).active = false ∧ u = s) ∨
        ((s.slot k).active = true ∧ u = deactivate (s.record .staleState) k)) := by
  unfold doPstart
  rw [h]
  refine ⟨_, rfl, ?_⟩
  cases ha : (s.slot k).active
  · exact .inl ⟨rfl, by simp⟩
  · exact .inr ⟨rfl, by simp⟩

end Sys2Proof.Machine
end

