-- ==== Sys2Proof/Laws/Tick.lean ====
section
/-! SUPPORT. TICK pair by pair. Slots are coupled only inside a pair 2k, 2k+1 (rules R2,
R280, R285), so the loop is 16 passes, each over the two slots of one pair. -/

namespace Sys2Proof.Machine

/-! ### One pair -/

/-- The two passes of the loop over the pair of the even slot i. -/
def tickPair (p : Params) (s : State) (i : SlotIx) : State := tickSlot p (tickSlot p s i) (i + 1#5)

/-- What slot j adds to a frame side with multiplier `pan` (rules R286, R289). -/
def share (p : Params) (emits : Bool) (y : Slot) (pan : Byte) : Word :=
  if emits then panned p y.pairOut pan else 0#32

/-- An active slot j of s stays active over a TICK: it is alive, the master it is attached to is alive,
and its own attached slave is alive or of a structure that spares the master (rules R281, R286, R288). -/
def survives (s : State) (j : SlotIx) : Bool :=
  alive (s.slot j) && (!attachedSlave s j || alive (s.slot (j - 1#5))) &&
    (!hasActiveSlave s j || alive (s.slot (j + 1#5)) || (s.slot (j + 1#5)).mix != .ringOnly)

/-- What a TICK does to slot j, from the state s before it to the state t after it (rules R280,
R285-R288). -/
structure Ticked (p : Params) (s t : State) (j : SlotIx) : Prop where
  inactive : (s.slot j).active = false → t.slot j = s.slot j
  stays : (s.slot j).active = true → (t.slot j).active = survives s j
  ended : (s.slot j).active = true → (t.slot j).active = false →
    t.slot j = silenced (if alive (s.slot j) && !attachedSlave s j then envSample p (s.slot j) else s.slot j)
  slave : (t.slot j).active = true → attachedSlave s j = true →
    t.slot j = { envSample p (s.slot j) with pairOut := (s.slot j).pairOut }
  output : (t.slot j).active = true → attachedSlave s j = false →
    t.slot j = { envSample p (s.slot j) with
      pairOut := pairOutOf p (envSample p (s.slot j)) (t.slot (j + 1#5)) }

theorem Ticked.survivor {p : Params} {s t : State} {j : SlotIx} (h : Ticked p s t j)
    (ht : (t.slot j).active = true) : alive (s.slot j) = true ∧ (s.slot j).active = true := by
  cases ha : (s.slot j).active
  · rw [h.inactive ha, ha] at ht; cases ht
  · refine ⟨?_, rfl⟩
    rw [h.stays ha] at ht
    simp only [survives, Bool.and_eq_true] at ht
    exact ht.1.1

theorem Ticked.dead {p : Params} {s t : State} {j : SlotIx} (h : Ticked p s t j)
    (ha : (s.slot j).active = true) (hl : alive (s.slot j) = false) : (t.slot j).active = false := by
  rw [h.stays ha]; simp [survives, hl]

/-- A slot emits in a TICK: it is active after it and no attached slave. -/
def emits (s t : State) (j : SlotIx) : Bool := (t.slot j).active && !attachedSlave s j

/-- What a pair's two passes do. -/
structure PairTicked (p : Params) (s t : State) (i : SlotIx) : Prop where
  other : ∀ j, j ≠ i → j ≠ i + 1#5 → t.slot j = s.slot j
  even : Ticked p s t i
  odd : Ticked p s t (i + 1#5)
  outL : t.outL = s.outL + (share p (emits s t i) (t.slot i) (panL (s.slot i).regs) +
    share p (emits s t (i + 1#5)) (t.slot (i + 1#5)) (panL (s.slot (i + 1#5)).regs))
  outR : t.outR = s.outR + (share p (emits s t i) (t.slot i) (panR (s.slot i).regs) +
    share p (emits s t (i + 1#5)) (t.slot (i + 1#5)) (panR (s.slot (i + 1#5)).regs))

/-- An inactive slot and an attached slave are skipped. -/
theorem tickSlot_skip (p : Params) {s : State} {j : SlotIx}
    (h : (s.slot j).active = false ∨ attachedSlave s j = true) : tickSlot p s j = s := by
  unfold tickSlot
  rcases h with h | h <;> simp [h]

/-- The pair sample depends on the partner only if the slot is a ring master. -/
theorem pairOutOf_nonmaster (p : Params) {x : Slot} (h : x.role ≠ .ringMaster) (t : Slot) :
    pairOutOf p x t = mixOut p x.wave := by
  unfold pairOutOf
  cases hr : x.role <;> simp_all

/-- The pair sample sees of the partner only ACTIVE, ROLE and the wave generator. -/
theorem pairOutOf_congr (p : Params) (x : Slot) {t u : Slot} (h1 : t.active = u.active)
    (h2 : t.role = u.role) (h3 : t.wave = u.wave) : pairOutOf p x t = pairOutOf p x u := by
  unfold pairOutOf slaveSample
  rw [h1, h2, h3]

/-- The pair sample does not see an inactive partner. -/
theorem pairOutOf_inactive (p : Params) (x : Slot) {t u : Slot} (h1 : t.active = false)
    (h2 : u.active = false) : pairOutOf p x t = pairOutOf p x u := by
  unfold pairOutOf slaveSample
  rw [h1, h2]
  simp only [Bool.not_false, Bool.true_or, if_true]

/-- The pass of a slot on its own: no attached slave of its own, no master it is attached to. -/
theorem tickSlot_alone (p : Params) {s : State} {j : SlotIx} (ha : (s.slot j).active = true)
    (hs : attachedSlave s j = false)
    (hm : (s.slot j).role = .ringMaster →
      (s.slot (j + 1#5)).active = true → (s.slot (j + 1#5)).role ≠ .ringSlave)
    (he : (s.slot j).role = .ringSlave → slotEven j = false) :
    tickSlot p s j =
      if alive (s.slot j) then emitSample p (s.modSlot j (envSample p)) j else clearActive s j := by
  have ht : tickSlot p s j = produceSample p s j := by simp [tickSlot, ha, hs]
  rw [ht]
  unfold produceSample
  cases hl : alive (s.slot j)
  · have hc : coupledSlot (clearActive s j) j = none := by
      unfold coupledSlot
      simp only [clearActive_slot_same, clearActive_slot_ne s (slot_succ_ne j),
        clearActive_slot_ne s (slot_pred_ne j)]
      have hr : (silenced (s.slot j)).role = (s.slot j).role := rfl
      rw [hr]
      cases hrole : (s.slot j).role
      · rfl
      · have := hm hrole
        cases hact : (s.slot (j + 1#5)).active
        · simp
        · simp [this hact]
      · have ev := he hrole
        unfold attachedSlave at hs
        simp only [hrole, ev, beq_self_eq_true, Bool.not_false, Bool.true_and, Bool.and_eq_false_iff] at hs
        rcases hs with hs | hs <;> simp [hs]
    simp only [Bool.not_false, if_true, Bool.false_eq_true, if_false]
    unfold deactivate
    simp only [ha, Bool.not_true, Bool.false_eq_true, if_false, hc]
  · have hh : hasActiveSlave (s.modSlot j (envSample p)) j = false := by
      unfold hasActiveSlave
      rw [slot_modSlot_same, slot_modSlot_ne _ _ (slot_succ_ne j), (envSample_frame p _).role]
      cases hrole : (s.slot j).role
      · rfl
      · have := hm hrole
        cases hact : (s.slot (j + 1#5)).active
        · simp
        · simp [this hact]
      · rfl
    simp only [Bool.not_true, Bool.false_eq_true, if_false, hh, if_true]

/-- The slot of a pass on its own, and its share of the frame. -/
theorem tickSlot_alone_spec (p : Params) {s : State} {j : SlotIx} (ha : (s.slot j).active = true)
    (hs : attachedSlave s j = false)
    (hm : (s.slot j).role = .ringMaster →
      (s.slot (j + 1#5)).active = true → (s.slot (j + 1#5)).role ≠ .ringSlave)
    (he : (s.slot j).role = .ringSlave → slotEven j = false) :
    let t := tickSlot p s j
    (∀ k, k ≠ j → t.slot k = s.slot k) ∧
    (t.slot j = if alive (s.slot j) then
        { envSample p (s.slot j) with pairOut := pairOutOf p (envSample p (s.slot j)) (s.slot (j + 1#5)) }
      else silenced (s.slot j)) ∧
    t.outL = s.outL + share p (t.slot j).active (t.slot j) (panL (s.slot j).regs) ∧
    t.outR = s.outR + share p (t.slot j).active (t.slot j) (panR (s.slot j).regs) := by
  intro t
  have e : t = _ := tickSlot_alone p ha hs hm he
  rw [e]
  cases hl : alive (s.slot j)
  · simp only [Bool.false_eq_true, if_false, clearActive_slot_same, clearActive_outL, clearActive_outR]
    refine ⟨fun k hk => clearActive_slot_ne s hk, trivial, ?_, ?_⟩ <;> simp [share, silenced]
  · simp only [if_true]
    have hv : pairOut p (s.modSlot j (envSample p)) j =
        pairOutOf p (envSample p (s.slot j)) (s.slot (j + 1#5)) := by
      unfold pairOut
      rw [slot_modSlot_same, slot_modSlot_ne _ _ (slot_succ_ne j)]
    have hj : (emitSample p (s.modSlot j (envSample p)) j).slot j =
        { envSample p (s.slot j) with
          pairOut := pairOutOf p (envSample p (s.slot j)) (s.slot (j + 1#5)) } := by
      rw [emitSample_slot, if_pos rfl, hv, slot_modSlot_same]
    have hact : (envSample p (s.slot j)).active = true := (envSample_frame p _).active.trans ha
    refine ⟨fun k hk => ?_, hj, ?_, ?_⟩
    · rw [emitSample_slot, if_neg hk, slot_modSlot_ne _ _ hk]
    · rw [hj]
      show s.outL + panned p (pairOut p (s.modSlot j (envSample p)) j)
        (panL ((s.modSlot j (envSample p)).slot j).regs) = _
      rw [hv, slot_modSlot_same, (envSample_frame p _).regs]
      simp [share, hact]
    · rw [hj]
      show s.outR + panned p (pairOut p (s.modSlot j (envSample p)) j)
        (panR ((s.modSlot j (envSample p)).slot j).regs) = _
      rw [hv, slot_modSlot_same, (envSample_frame p _).regs]
      simp [share, hact]

/-- An active slave next to an active master: the coupled case of a pair. -/
def Coupled (s : State) (i : SlotIx) : Prop :=
  (s.slot i).active = true ∧ (s.slot i).role = .ringMaster ∧
    (s.slot (i + 1#5)).active = true ∧ (s.slot (i + 1#5)).role = .ringSlave

theorem attached_of_coupled {s : State} {i : SlotIx} (he : slotEven i = true) (h : Coupled s i) :
    attachedSlave s (i + 1#5) = true := by
  obtain ⟨h1, h2, _, h4⟩ := h
  simp [attachedSlave, slotEven_succ he, h1, h2, h4]

theorem not_attached_of_not_coupled {s : State} {i : SlotIx} (ha : (s.slot (i + 1#5)).active = true)
    (h : ¬Coupled s i) : attachedSlave s (i + 1#5) = false := by
  cases hs : attachedSlave s (i + 1#5)
  · rfl
  · exfalso
    apply h
    simp only [attachedSlave, slot_succ_pred, Bool.and_eq_true, beq_iff_eq] at hs
    exact ⟨hs.1.2, hs.2, ha, hs.1.1.1⟩

theorem even_not_attached {s : State} {i : SlotIx} (he : slotEven i = true) : attachedSlave s i = false := by
  simp [attachedSlave, he]

/-- A pass on its own, as `Ticked` says it. -/
theorem ticked_of_alone (p : Params) {s t : State} {j : SlotIx} (ha : (s.slot j).active = true)
    (hs : attachedSlave s j = false)
    (hm : hasActiveSlave s j = true → alive (s.slot (j + 1#5)) = true ∨ (s.slot (j + 1#5)).mix ≠ .ringOnly)
    (h : t.slot j = if alive (s.slot j) then
        { envSample p (s.slot j) with pairOut := pairOutOf p (envSample p (s.slot j)) (t.slot (j + 1#5)) }
      else silenced (s.slot j)) : Ticked p s t j := by
  have hv : survives s j = alive (s.slot j) := by
    unfold survives
    rw [hs]
    cases hh : hasActiveSlave s j
    · simp
    · rcases hm hh with e | e <;> simp [e]
  have hact : (envSample p (s.slot j)).active = true := (envSample_frame p _).active.trans ha
  refine ⟨(fun e => by rw [ha] at e; cases e), fun _ => ?_, fun _ e => ?_,
    (fun _ e => by rw [hs] at e; cases e), fun e _ => ?_⟩
  · rw [h, hv]
    cases alive (s.slot j)
    · rfl
    · exact hact
  · rw [h] at e ⊢
    cases hl : alive (s.slot j)
    · simp
    · rw [hl, if_pos rfl] at e
      rw [show (envSample p (s.slot j)).active = false from e] at hact
      cases hact
  · cases hl : alive (s.slot j)
    · rw [h, hl] at e; simp [silenced] at e
    · rw [h, hl]; simp

theorem ticked_of_inactive (p : Params) {s t : State} {j : SlotIx} (ha : (s.slot j).active = false)
    (h : t.slot j = s.slot j) : Ticked p s t j := by
  have ht : (t.slot j).active = false := by rw [h]; exact ha
  exact ⟨fun _ => h, (fun e => by rw [ha] at e; cases e), (fun e => by rw [ha] at e; cases e),
    (fun e => by rw [ht] at e; cases e), (fun e => by rw [ht] at e; cases e)⟩

/-- A slot that is no ring master has no attached slave. -/
theorem no_slave_of_role {s : State} {j : SlotIx} (h : (s.slot j).role ≠ .ringMaster) :
    hasActiveSlave s j = false := by
  simp [hasActiveSlave, h]

/-- The pair passes when no slave is attached. -/
theorem tickPair_uncoupled (p : Params) {s : State} {i : SlotIx} (he : slotEven i = true)
    (h1 : (s.slot i).role ≠ .ringSlave) (h2 : (s.slot (i + 1#5)).role ≠ .ringMaster)
    (hc : ¬Coupled s i) : PairTicked p s (tickPair p s i) i := by
  have hne := slot_succ_ne i
  -- the first pass
  obtain ⟨u, hu, o1, x1, l1, r1⟩ : ∃ u, tickSlot p s i = u ∧ (∀ k, k ≠ i → u.slot k = s.slot k) ∧
      (u.slot i = if (s.slot i).active then if alive (s.slot i) then
        { envSample p (s.slot i) with
          pairOut := pairOutOf p (envSample p (s.slot i)) (s.slot (i + 1#5)) } else silenced (s.slot i)
        else s.slot i) ∧
      u.outL = s.outL + share p (u.slot i).active (u.slot i) (panL (s.slot i).regs) ∧
      u.outR = s.outR + share p (u.slot i).active (u.slot i) (panR (s.slot i).regs) := by
    refine ⟨_, rfl, ?_⟩
    cases ha : (s.slot i).active
    · rw [tickSlot_skip p (.inl ha)]
      refine ⟨fun _ _ => rfl, ?_, ?_, ?_⟩ <;> simp [share, ha]
    · have := tickSlot_alone_spec p ha (even_not_attached he)
        (fun hm hact hsl => hc ⟨ha, hm, hact, hsl⟩) (fun hsl => absurd hsl h1)
      simpa using this
  have hact : (u.slot i).active = true → (s.slot i).active = true := by
    intro h
    cases ha : (s.slot i).active
    · rw [x1, ha] at h; simp [ha] at h
    · rfl
  have hrole : (u.slot i).role = (s.slot i).role := by
    rw [x1]; split
    · split
      · exact (envSample_frame p _).role
      · rfl
    · rfl
  have hu1 : u.slot (i + 1#5) = s.slot (i + 1#5) := o1 _ hne
  have hcu : ¬Coupled u i := by
    rintro ⟨a, b, c, d⟩
    exact hc ⟨hact a, by rw [← hrole]; exact b, by rw [← hu1]; exact c, by rw [← hu1]; exact d⟩
  -- the second pass
  obtain ⟨v, hv, o2, x2, l2, r2⟩ : ∃ v, tickSlot p u (i + 1#5) = v ∧
      (∀ k, k ≠ i + 1#5 → v.slot k = u.slot k) ∧
      (v.slot (i + 1#5) = if (s.slot (i + 1#5)).active then if alive (s.slot (i + 1#5)) then
        { envSample p (s.slot (i + 1#5)) with
          pairOut := pairOutOf p (envSample p (s.slot (i + 1#5))) (u.slot (i + 1#5 + 1#5)) }
        else silenced (s.slot (i + 1#5)) else s.slot (i + 1#5)) ∧
      v.outL = u.outL + share p (v.slot (i + 1#5)).active (v.slot (i + 1#5)) (panL (s.slot (i + 1#5)).regs) ∧
      v.outR = u.outR + share p (v.slot (i + 1#5)).active (v.slot (i + 1#5)) (panR (s.slot (i + 1#5)).regs) := by
    refine ⟨_, rfl, ?_⟩
    cases ha : (s.slot (i + 1#5)).active
    · rw [tickSlot_skip p (.inl (by rw [hu1]; exact ha))]
      refine ⟨fun _ _ => rfl, ?_, ?_, ?_⟩ <;> simp [share, ha, hu1]
    · have := tickSlot_alone_spec p (s := u) (j := i + 1#5) (by rw [hu1]; exact ha)
        (not_attached_of_not_coupled (by rw [hu1]; exact ha) hcu)
        (fun hm => absurd hm (by rw [hu1]; exact h2)) (fun _ => slotEven_succ he)
      rw [hu1] at this
      simpa using this
  have hp : tickPair p s i = v := by unfold tickPair; rw [hu, hv]
  rw [hp]
  have hvi : v.slot i = u.slot i := o2 i hne.symm
  -- what the even slot saw of the odd one is what it is after the pair
  have hpart : pairOutOf p (envSample p (s.slot i)) (s.slot (i + 1#5)) =
      pairOutOf p (envSample p (s.slot i)) (v.slot (i + 1#5)) ∨ (s.slot i).active = false := by
    cases ha : (s.slot i).active
    · exact .inr rfl
    · left
      by_cases hm : (s.slot i).role = .ringMaster
      · by_cases hs : (s.slot (i + 1#5)).role = .ringSlave
        · have hin : (s.slot (i + 1#5)).active = false := by
            cases hb : (s.slot (i + 1#5)).active
            · rfl
            · exact absurd ⟨ha, hm, hb, hs⟩ hc
          rw [x2, hin]
          simp
        · have hr : (v.slot (i + 1#5)).role = (s.slot (i + 1#5)).role := by
            rw [x2]; split
            · split
              · exact (envSample_frame p _).role
              · rfl
            · rfl
          have z : ∀ y : Slot, y.role ≠ .ringSlave → slaveSample p y = 0#16 := by
            intro y hy; unfold slaveSample; simp [hy]
          unfold pairOutOf
          rw [z _ hs, z _ (by rw [hr]; exact hs)]
      · have hm' : (envSample p (s.slot i)).role ≠ .ringMaster := by
          rw [(envSample_frame p _).role]; exact hm
        rw [pairOutOf_nonmaster p hm', pairOutOf_nonmaster p hm']
  have hev : Ticked p s v i := by
    cases ha : (s.slot i).active
    · refine ticked_of_inactive p ha ?_
      rw [hvi, x1, ha]; rfl
    · refine ticked_of_alone p ha (even_not_attached he) (fun hh => ?_) ?_
      · simp only [hasActiveSlave, Bool.and_eq_true, beq_iff_eq] at hh
        exact absurd ⟨ha, hh.1.1, hh.1.2, hh.2⟩ hc
      rw [hvi, x1, ha]
      rcases hpart with e | e
      · rw [e]; rfl
      · rw [ha] at e; cases e
  have hodd : Ticked p s v (i + 1#5) := by
    cases ha : (s.slot (i + 1#5)).active
    · refine ticked_of_inactive p ha ?_
      rw [x2, ha]; rfl
    · refine ticked_of_alone p ha (not_attached_of_not_coupled ha hc)
        (fun hh => by rw [no_slave_of_role h2] at hh; cases hh) ?_
      rw [x2, ha]
      have hm' : (envSample p (s.slot (i + 1#5))).role ≠ .ringMaster := by
        rw [(envSample_frame p _).role]; exact h2
      simp only [if_true, pairOutOf_nonmaster p hm']
  have e1 : emits s v i = (u.slot i).active := by simp [emits, even_not_attached he, hvi]
  have e2 : emits s v (i + 1#5) = (v.slot (i + 1#5)).active := by
    unfold emits
    cases ha : (s.slot (i + 1#5)).active
    · have : (v.slot (i + 1#5)).active = false := by rw [x2, ha]; exact ha
      rw [this]; rfl
    · rw [not_attached_of_not_coupled ha hc]; simp
  refine ⟨fun j h3 h4 => by rw [o2 j h4, o1 j h3], hev, hodd, ?_, ?_⟩
  · rw [l2, l1, e1, e2, hvi, BitVec.add_assoc]
  · rw [r2, r1, e1, e2, hvi, BitVec.add_assoc]

/-- Deactivating an active slot (rule R280). -/
theorem deactivate_of_active {s : State} {i : SlotIx} (h : (s.slot i).active = true) :
    deactivate s i = match coupledSlot (clearActive s i) i with
      | none => clearActive s i
      | some t => clearActive (clearActive s i) t := by
  unfold deactivate
  exact if_neg (by simp [h])

/-- The pair passes when a slave is attached to an active master. -/
theorem tickPair_coupled (p : Params) {s : State} {i : SlotIx} (he : slotEven i = true)
    (hc : Coupled s i) : PairTicked p s (tickPair p s i) i := by
  obtain ⟨ha, hm, ht, hs⟩ := hc
  have hne := slot_succ_ne i
  have hatt := attached_of_coupled he ⟨ha, hm, ht, hs⟩
  have hna := even_not_attached (s := s) he
  have hmas : hasActiveSlave s i = true := by simp [hasActiveSlave, hm, ht, hs]
  have hsv : survives s i = (alive (s.slot i) &&
      (alive (s.slot (i + 1#5)) || (s.slot (i + 1#5)).mix != .ringOnly)) := by
    simp [survives, hna, hmas]
  have hsv' : survives s (i + 1#5) = (alive (s.slot (i + 1#5)) && alive (s.slot i)) := by
    simp [survives, hatt, no_slave_of_role (s := s) (j := i + 1#5) (by rw [hs]; simp)]
  -- both slots inactive at the end
  have both : ∀ v : State, (∀ j, j ≠ i → j ≠ i + 1#5 → v.slot j = s.slot j) →
      v.slot i = silenced (if alive (s.slot i) then envSample p (s.slot i) else s.slot i) →
      v.slot (i + 1#5) = silenced (s.slot (i + 1#5)) → survives s i = false → survives s (i + 1#5) = false →
      v.outL = s.outL → v.outR = s.outR → tickPair p s i = v → PairTicked p s (tickPair p s i) i := by
    intro v ho x1 x2 k1 k2 hl hr hv
    have h1 : (v.slot i).active = false := by rw [x1]; rfl
    have h2 : (v.slot (i + 1#5)).active = false := by rw [x2]; rfl
    rw [hv]
    refine ⟨ho, ?_, ?_, ?_, ?_⟩
    · exact ⟨(fun e => by rw [ha] at e; cases e), fun _ => h1.trans k1.symm,
        (fun _ _ => by rw [x1, hna]; simp), (fun e => by rw [h1] at e; cases e),
        (fun e => by rw [h1] at e; cases e)⟩
    · exact ⟨(fun e => by rw [ht] at e; cases e), fun _ => h2.trans k2.symm,
        (fun _ _ => by rw [x2, hatt]; simp), (fun e => by rw [h2] at e; cases e),
        (fun e => by rw [h2] at e; cases e)⟩
    · rw [hl]; simp [emits, h1, h2, share]
    · rw [hr]; simp [emits, h1, h2, share]
  have hprod : tickSlot p s i = produceSample p s i := by simp [tickSlot, ha, hna]
  cases hl : alive (s.slot i)
  · -- the master is dead: both end
    have hd : tickSlot p s i = clearActive (clearActive s i) (i + 1#5) := by
      rw [hprod]
      unfold produceSample
      rw [hl]
      simp only [Bool.not_false, if_true]
      rw [deactivate_of_active ha]
      have hcs : coupledSlot (clearActive s i) i = some (i + 1#5) := by
        unfold coupledSlot
        simp only [clearActive_slot_same, clearActive_slot_ne s hne]
        rw [show (silenced (s.slot i)).role = .ringMaster from hm]
        simp [ht, hs]
      rw [hcs]
    have h2 : ((clearActive (clearActive s i) (i + 1#5)).slot (i + 1#5)).active = false := by
      rw [clearActive_slot_same]; rfl
    refine both (clearActive (clearActive s i) (i + 1#5)) (fun j h3 h4 => ?_) ?_ ?_
      (by rw [hsv, hl]; rfl) (by rw [hsv', hl, Bool.and_false]) rfl rfl ?_
    · rw [clearActive_slot_ne _ h4, clearActive_slot_ne _ h3]
    · rw [clearActive_slot_ne _ hne.symm, clearActive_slot_same, hl]; rfl
    · rw [clearActive_slot_same, clearActive_slot_ne _ hne]
    · unfold tickPair; rw [hd]; exact tickSlot_skip p (.inl h2)
  · generalize hu : s.modSlot i (envSample p) = u
    have hui : u.slot i = envSample p (s.slot i) := by rw [← hu, slot_modSlot_same]
    have hus : u.slot (i + 1#5) = s.slot (i + 1#5) := by rw [← hu, slot_modSlot_ne _ _ hne]
    have huo : ∀ j, j ≠ i → u.slot j = s.slot j := fun j hj => by rw [← hu, slot_modSlot_ne _ _ hj]
    have hul : u.outL = s.outL := by rw [← hu]; rfl
    have hur : u.outR = s.outR := by rw [← hu]; rfl
    have hh : hasActiveSlave u i = true := by
      unfold hasActiveSlave
      rw [hui, hus, (envSample_frame p _).role]
      simp [hm, ht, hs]
    have hps : produceSample p s i = emitWithSlave p u i (i + 1#5) := by
      unfold produceSample; simp only [hl, Bool.not_true, Bool.false_eq_true, if_false, hu, hh, if_true]
    have hact : (envSample p (s.slot i)).active = true := (envSample_frame p _).active.trans ha
    have hregs : (envSample p (s.slot i)).regs = (s.slot i).regs := (envSample_frame p _).regs
    have hrole : (envSample p (s.slot i)).role = .ringMaster := (envSample_frame p _).role.trans hm
    cases hv : alive (s.slot (i + 1#5))
    · -- the slave is dead
      have hew : emitWithSlave p u i (i + 1#5) =
          if ((deactivate u (i + 1#5)).slot i).active then emitSample p (deactivate u (i + 1#5)) i
          else deactivate u (i + 1#5) := by
        unfold emitWithSlave; rw [hus, hv]; simp
      have hcs : coupledSlot (clearActive u (i + 1#5)) (i + 1#5) =
          if (s.slot (i + 1#5)).mix == .ringOnly then some i else none := by
        unfold coupledSlot
        rw [clearActive_slot_same, slot_succ_pred, hus]
        rw [show (silenced (s.slot (i + 1#5))).role = .ringSlave from hs]
        simp only [clearActive_slot_ne u hne.symm, hui, hact, hrole]
        rw [show (silenced (s.slot (i + 1#5))).mix = (s.slot (i + 1#5)).mix from rfl]
        simp
      have hd : deactivate u (i + 1#5) =
          match (if (s.slot (i + 1#5)).mix == .ringOnly then some i else none) with
          | none => clearActive u (i + 1#5)
          | some t => clearActive (clearActive u (i + 1#5)) t := by
        rw [deactivate_of_active (by rw [hus]; exact ht), hcs]
      cases hmix : ((s.slot (i + 1#5)).mix == .ringOnly)
      · -- the master goes on alone
        rw [hmix] at hd
        simp only [Bool.false_eq_true, if_false] at hd
        have hdi : (deactivate u (i + 1#5)).slot i = envSample p (s.slot i) := by
          rw [hd, clearActive_slot_ne _ hne.symm, hui]
        have hds : (deactivate u (i + 1#5)).slot (i + 1#5) = silenced (s.slot (i + 1#5)) := by
          rw [hd, clearActive_slot_same, hus]
        generalize hw : deactivate u (i + 1#5) = w at *
        have hfin : tickPair p s i = emitSample p w i := by
          unfold tickPair
          rw [hprod, hps, hew, hdi, hact, if_pos rfl]
          apply tickSlot_skip
          left
          rw [emitSample_slot, if_neg hne, hds]; rfl
        rw [hfin]
        have hpo : pairOut p w i = pairOutOf p (envSample p (s.slot i)) (silenced (s.slot (i + 1#5))) := by
          unfold pairOut; rw [hdi, hds]
        have hfi : (emitSample p w i).slot i = { envSample p (s.slot i) with
            pairOut := pairOutOf p (envSample p (s.slot i)) (silenced (s.slot (i + 1#5))) } := by
          rw [emitSample_slot, if_pos rfl, hpo, hdi]
        have hfs : (emitSample p w i).slot (i + 1#5) = silenced (s.slot (i + 1#5)) := by
          rw [emitSample_slot, if_neg hne, hds]
        have hwl : w.outL = s.outL := by rw [← hul, ← (deactivate_out u (i + 1#5)).1, hw]
        have hwr : w.outR = s.outR := by rw [← hur, ← (deactivate_out u (i + 1#5)).2, hw]
        refine ⟨fun j h3 h4 => ?_, ?_, ?_, ?_, ?_⟩
        · rw [emitSample_slot, if_neg h3, hd, clearActive_slot_ne _ h4, huo j h3]
        · refine ticked_of_alone p ha hna (fun _ => .inr (by simpa using hmix)) ?_
          rw [hfi, hl, if_pos rfl, hfs]
        · exact ⟨(fun e => by rw [ht] at e; cases e), (fun _ => by rw [hfs, hsv', hv]; rfl),
            (fun _ _ => by rw [hfs, hv]; rfl), (fun e => by rw [hfs] at e; cases e),
            (fun e => by rw [hfs] at e; cases e)⟩
        · have e1 : emits s (emitSample p w i) i = true := by
            unfold emits; rw [hfi, hna]; simp [hact]
          have e2 : emits s (emitSample p w i) (i + 1#5) = false := by
            unfold emits; rw [hfs]; simp [silenced]
          rw [e1, e2, hfi]
          show w.outL + panned p (pairOut p w i) (panL (w.slot i).regs) = _
          rw [hpo, hdi, hregs, hwl]
          simp [share]
        · have e1 : emits s (emitSample p w i) i = true := by
            unfold emits; rw [hfi, hna]; simp [hact]
          have e2 : emits s (emitSample p w i) (i + 1#5) = false := by
            unfold emits; rw [hfs]; simp [silenced]
          rw [e1, e2, hfi]
          show w.outR + panned p (pairOut p w i) (panR (w.slot i).regs) = _
          rw [hpo, hdi, hregs, hwr]
          simp [share]
      · -- the slave takes its master with it
        rw [hmix] at hd
        simp only [if_true] at hd
        have xi : (deactivate u (i + 1#5)).slot i = silenced (envSample p (s.slot i)) := by
          rw [hd, clearActive_slot_same, clearActive_slot_ne _ hne.symm, hui]
        have xs : (deactivate u (i + 1#5)).slot (i + 1#5) = silenced (s.slot (i + 1#5)) := by
          rw [hd, clearActive_slot_ne _ hne, clearActive_slot_same, hus]
        have hdi : ((deactivate u (i + 1#5)).slot i).active = false := by rw [xi]; rfl
        have hds : ((deactivate u (i + 1#5)).slot (i + 1#5)).active = false := by rw [xs]; rfl
        refine both (deactivate u (i + 1#5)) (fun j h3 h4 => ?_) (by rw [xi, hl, if_pos rfl]) xs
          (by rw [hsv, hv]; simp at hmix; simp [hmix]) (by rw [hsv', hv]; rfl) ?_ ?_ ?_
        · rw [hd, clearActive_slot_ne _ h3, clearActive_slot_ne _ h4, huo j h3]
        · rw [(deactivate_out u _).1, hul]
        · rw [(deactivate_out u _).2, hur]
        · unfold tickPair
          rw [hprod, hps, hew, hdi]
          simp only [Bool.false_eq_true, if_false]
          exact tickSlot_skip p (.inl hds)
    · -- both advance
      generalize hw : u.modSlot (i + 1#5) (envSample p) = w
      have hwi : w.slot i = envSample p (s.slot i) := by rw [← hw, slot_modSlot_ne _ _ hne.symm, hui]
      have hws : w.slot (i + 1#5) = envSample p (s.slot (i + 1#5)) := by rw [← hw, slot_modSlot_same, hus]
      have hwl : w.outL = s.outL := by rw [← hw, ← hul]; rfl
      have hwr : w.outR = s.outR := by rw [← hw, ← hur]; rfl
      have hew : emitWithSlave p u i (i + 1#5) = emitSample p w i := by
        unfold emitWithSlave; rw [hus, hv, if_pos rfl, hw]
      have hpo : pairOut p w i =
          pairOutOf p (envSample p (s.slot i)) (envSample p (s.slot (i + 1#5))) := by
        unfold pairOut; rw [hwi, hws]
      have hfi : (emitSample p w i).slot i = { envSample p (s.slot i) with
          pairOut := pairOutOf p (envSample p (s.slot i)) (envSample p (s.slot (i + 1#5))) } := by
        rw [emitSample_slot, if_pos rfl, hpo, hwi]
      have hfs : (emitSample p w i).slot (i + 1#5) = envSample p (s.slot (i + 1#5)) := by
        rw [emitSample_slot, if_neg hne, hws]
      have hfin : tickPair p s i = emitSample p w i := by
        unfold tickPair
        rw [hprod, hps, hew]
        apply tickSlot_skip
        right
        unfold attachedSlave
        rw [slot_succ_pred, hfi, hfs, slotEven_succ he, (envSample_frame p _).role, hs]
        simp [hact, hrole]
      rw [hfin]
      have e1 : emits s (emitSample p w i) i = true := by
        unfold emits; rw [hfi, hna]; simp [hact]
      have e2 : emits s (emitSample p w i) (i + 1#5) = false := by
        unfold emits; rw [hatt]; simp
      refine ⟨fun j h3 h4 => ?_, ?_, ?_, ?_, ?_⟩
      · rw [emitSample_slot, if_neg h3, ← hw, slot_modSlot_ne _ _ h4, huo j h3]
      · refine ticked_of_alone p ha hna (fun _ => .inl hv) ?_
        rw [hfi, hl, if_pos rfl, hfs]
      · have hsa : (envSample p (s.slot (i + 1#5))).active = true := (envSample_frame p _).active.trans ht
        refine ⟨(fun e => by rw [ht] at e; cases e), (fun _ => by rw [hfs, hsv', hv, hl, hsa]; rfl),
          (fun _ e => by rw [hfs, hsa] at e; cases e), fun _ _ => ?_, fun _ e => by rw [hatt] at e; cases e⟩
        rw [hfs]
        have : (envSample p (s.slot (i + 1#5))).pairOut = (s.slot (i + 1#5)).pairOut :=
          (envSample_frame p _).pairOut
        rw [← this]
      · rw [e1, e2, hfi]
        show w.outL + panned p (pairOut p w i) (panL (w.slot i).regs) = _
        rw [hpo, hwi, hregs, hwl]
        simp [share]
      · rw [e1, e2, hfi]
        show w.outR + panned p (pairOut p w i) (panR (w.slot i).regs) = _
        rw [hpo, hwi, hregs, hwr]
        simp [share]

/-- What the two passes over a pair do (rules R285-R289). -/
theorem tickPair_spec (p : Params) {s : State} {i : SlotIx} (he : slotEven i = true)
    (h1 : (s.slot i).role ≠ .ringSlave) (h2 : (s.slot (i + 1#5)).role ≠ .ringMaster) :
    PairTicked p s (tickPair p s i) i := by
  by_cases hc : Coupled s i
  · exact tickPair_coupled p he hc
  · exact tickPair_uncoupled p he h1 h2 hc

/-! ### The loop, pair by pair -/

/-- The even slots in ascending order. -/
def evenSlots : List SlotIx := (List.range 16).map fun k => BitVec.ofNat 5 (2 * k)

theorem foldl_pairs (p : Params) (l : List SlotIx) (s : State) :
    (l.flatMap fun i => [i, i + 1#5]).foldl (tickSlot p) s = l.foldl (tickPair p) s := by
  induction l generalizing s with
  | nil => rfl
  | cons i l ih => simp only [List.flatMap_cons, List.foldl_append, List.foldl_cons, ih]; rfl

theorem allSlots_pairs : allSlots = evenSlots.flatMap fun i => [i, i + 1#5] := by decide

/-- The TICK loop is 16 pair passes. -/
theorem passSlots_pairs (p : Params) (s : State) : passSlots p s = evenSlots.foldl (tickPair p) s := by
  unfold passSlots
  rw [allSlots_pairs, foldl_pairs]

/-- The roles a pair may have (rules R202, R271): no slave at the even slot, no master at the odd. -/
def PairRoles (s : State) (i : SlotIx) : Prop :=
  (s.slot i).role ≠ .ringSlave ∧ (s.slot (i + 1#5)).role ≠ .ringMaster

theorem Ticked.transfer {p : Params} {s t s' t' : State} {j : SlotIx} (h : Ticked p s t j)
    (h1 : s'.slot j = s.slot j) (h2 : attachedSlave s' j = attachedSlave s j)
    (hv : survives s' j = survives s j) (h3 : t'.slot j = t.slot j)
    (h4 : t'.slot (j + 1#5) = t.slot (j + 1#5) ∨ (s.slot j).role ≠ .ringMaster) : Ticked p s' t' j := by
  refine ⟨?_, ?_, ?_, ?_, ?_⟩ <;> rw [h1, h3] <;> try rw [h2]
  · exact h.inactive
  · rw [hv]; exact h.stays
  · exact h.ended
  · exact h.slave
  · intro a b
    rw [h.output a b]
    rcases h4 with h4 | h4
    · rw [h4]
    · have : (envSample p (s.slot j)).role ≠ .ringMaster := by rw [(envSample_frame p _).role]; exact h4
      rw [pairOutOf_nonmaster p this, pairOutOf_nonmaster p this]

/-- Whether a slot survives depends on its pair alone. -/
theorem survives_congr {s u : State} {i : SlotIx} (he : slotEven i = true)
    (h2 : (s.slot (i + 1#5)).role ≠ .ringMaster) (h3 : u.slot i = s.slot i)
    (h4 : u.slot (i + 1#5) = s.slot (i + 1#5)) :
    survives s i = survives u i ∧ survives s (i + 1#5) = survives u (i + 1#5) := by
  have ha : attachedSlave u (i + 1#5) = attachedSlave s (i + 1#5) := by
    unfold attachedSlave; rw [slot_succ_pred, h3, h4]
  have hh : hasActiveSlave u i = hasActiveSlave s i := by unfold hasActiveSlave; rw [h3, h4]
  unfold survives
  rw [even_not_attached he, even_not_attached he, hh, h3, h4, ha, slot_succ_pred, h3,
    no_slave_of_role h2, no_slave_of_role (s := u) (j := i + 1#5) (by rw [h4]; exact h2)]
  simp

/-- The sum of the shares of the pairs of l on a side with multipliers `pan`. -/
def pairShares (p : Params) (pan : SlotRegs → Byte) (s t : State) (l : List SlotIx) : Word :=
  (l.map fun i => share p (emits s t i) (t.slot i) (pan (s.slot i).regs) +
    share p (emits s t (i + 1#5)) (t.slot (i + 1#5)) (pan (s.slot (i + 1#5)).regs)).sum

/-- What the passes over a list of distinct pairs do. -/
structure PairsTicked (p : Params) (s t : State) (l : List SlotIx) : Prop where
  other : ∀ j, j ∉ l → (∀ i ∈ l, j ≠ i + 1#5) → t.slot j = s.slot j
  even : ∀ i ∈ l, Ticked p s t i
  odd : ∀ i ∈ l, Ticked p s t (i + 1#5)
  outL : t.outL = s.outL + pairShares p panL s t l
  outR : t.outR = s.outR + pairShares p panR s t l

theorem even_ne_succ {i j : SlotIx} (hi : slotEven i = true) (hj : slotEven j = true) : i ≠ j + 1#5 := by
  rintro rfl
  rw [slotEven_succ hj] at hi
  cases hi

theorem succ_inj {i j : SlotIx} (h : i + 1#5 = j + 1#5) : i = j := by
  have := congrArg (· - 1#5) h
  simpa using this

theorem pairs_ticked (p : Params) (l : List SlotIx) (hn : l.Nodup) (he : ∀ i ∈ l, slotEven i = true) :
    ∀ s : State, (∀ i ∈ l, PairRoles s i) → PairsTicked p s (l.foldl (tickPair p) s) l := by
  induction l with
  | nil => exact fun s _ => ⟨fun _ _ _ => rfl, nofun, nofun, by simp [pairShares], by simp [pairShares]⟩
  | cons i l ih =>
    intro s hr
    rw [List.foldl_cons]
    have hei := he i (by simp)
    have hel : ∀ j ∈ l, slotEven j = true := fun j hj => he j (by simp [hj])
    have hil : i ∉ l := (List.nodup_cons.mp hn).1
    have hne : ∀ j ∈ l, j ≠ i := fun j hj e => hil (e ▸ hj)
    have hp := tickPair_spec p hei (hr i (by simp)).1 (hr i (by simp)).2
    generalize tickPair p s i = u at hp
    have hue : ∀ j ∈ l, u.slot j = s.slot j := fun j hj => hp.other j (hne j hj) (even_ne_succ (hel j hj) hei)
    have huo : ∀ j ∈ l, u.slot (j + 1#5) = s.slot (j + 1#5) := fun j hj =>
      hp.other _ (even_ne_succ hei (hel j hj)).symm (fun e => hne j hj (succ_inj e))
    have hq := ih (List.nodup_cons.mp hn).2 hel u (fun j hj => by
      unfold PairRoles; rw [hue j hj, huo j hj]; exact hr j (by simp [hj]))
    generalize l.foldl (tickPair p) u = t at hq
    have hti : t.slot i = u.slot i := hq.other i hil (fun j hj => even_ne_succ hei (hel j hj))
    have hto : t.slot (i + 1#5) = u.slot (i + 1#5) :=
      hq.other _ (fun h => even_ne_succ (hel _ h) hei rfl) (fun j hj e => hne j hj (succ_inj e).symm)
    have hat : ∀ j ∈ l, attachedSlave s (j + 1#5) = attachedSlave u (j + 1#5) := by
      intro j hj
      unfold attachedSlave
      rw [slot_succ_pred, hue j hj, huo j hj]
    have hrole : ∀ j, j = i ∨ j ∈ l → (s.slot (j + 1#5)).role ≠ .ringMaster := by
      intro j hj
      rcases hj with rfl | hj
      · exact (hr j (by simp)).2
      · exact (hr j (by simp [hj])).2
    have hsu : ∀ j ∈ l, survives s j = survives u j ∧ survives s (j + 1#5) = survives u (j + 1#5) :=
      fun j hj => survives_congr (hel j hj) (hrole j (.inr hj)) (hue j hj) (huo j hj)
    have hem : ∀ j ∈ l, emits u t j = emits s t j ∧ emits u t (j + 1#5) = emits s t (j + 1#5) := by
      intro j hj
      unfold emits
      rw [even_not_attached (hel j hj), even_not_attached (hel j hj), hat j hj]
      exact ⟨rfl, rfl⟩
    have hsh : ∀ pan : SlotRegs → Byte, pairShares p pan u t l = pairShares p pan s t l := by
      intro pan
      unfold pairShares
      congr 1
      apply List.map_congr_left
      intro j hj
      rw [(hem j hj).1, (hem j hj).2, hue j hj, huo j hj]
    have hcons : ∀ pan : SlotRegs → Byte, pairShares p pan s t (i :: l) =
        (share p (emits s u i) (u.slot i) (pan (s.slot i).regs) +
          share p (emits s u (i + 1#5)) (u.slot (i + 1#5)) (pan (s.slot (i + 1#5)).regs)) +
          pairShares p pan s t l := by
      intro pan
      unfold pairShares
      rw [List.map_cons, List.sum_cons]
      unfold emits
      rw [hti, hto]
    refine ⟨?_, ?_, ?_, ?_, ?_⟩
    · intro j h1 h2
      simp only [List.mem_cons, not_or] at h1
      rw [hq.other j h1.2 (fun k hk => h2 k (by simp [hk])), hp.other j h1.1 (h2 i (by simp))]
    · intro j hj
      rcases List.mem_cons.mp hj with rfl | hj
      · exact hp.even.transfer rfl rfl rfl hti (.inl hto)
      · exact (hq.even j hj).transfer (hue j hj).symm
          (by rw [even_not_attached (hel j hj), even_not_attached (hel j hj)]) (hsu j hj).1 rfl (.inl rfl)
    · intro j hj
      rcases List.mem_cons.mp hj with rfl | hj
      · exact hp.odd.transfer rfl rfl rfl hto (.inr (hrole j (.inl rfl)))
      · exact (hq.odd j hj).transfer (huo j hj).symm (hat j hj) (hsu j hj).2 rfl (.inl rfl)
    · rw [hq.outL, hp.outL, hsh, hcons, BitVec.add_assoc]
    · rw [hq.outR, hp.outR, hsh, hcons, BitVec.add_assoc]

/-- Roles as PSTART gives them make legal pairs. -/
theorem pairRoles_of_roleOk {s : State} (h : ∀ i, (s.slot i).RoleOk i) {i : SlotIx} (he : slotEven i = true) :
    PairRoles s i := by
  refine ⟨?_, ?_⟩
  · rw [h i]
    unfold roleFor
    cases (s.slot i).mix <;> simp [he]
  · rw [h (i + 1#5)]
    unfold roleFor
    cases (s.slot (i + 1#5)).mix <;> simp [slotEven_succ he]

theorem evenSlots_nodup : evenSlots.Nodup := by decide
theorem evenSlots_even : ∀ i ∈ evenSlots, slotEven i = true := by decide
theorem evenSlots_cover (j : SlotIx) : j ∈ evenSlots ∨ ∃ i ∈ evenSlots, j = i + 1#5 := by
  revert j; decide

/-- TICK, said once for every slot and both frame sides (rules R285-R289). -/
theorem tick_spec (p : Params) {s : State} (h : ∀ i, (s.slot i).RoleOk i) :
    (∀ j, Ticked p s (tick p s) j) ∧
    (tick p s).outL = pairShares p panL s (tick p s) evenSlots ∧
    (tick p s).outR = pairShares p panR s (tick p s) evenSlots := by
  have q := pairs_ticked p evenSlots evenSlots_nodup evenSlots_even (clearFrame s)
    (fun i hi => pairRoles_of_roleOk (s := clearFrame s) h (evenSlots_even i hi))
  rw [← passSlots_pairs] at q
  have tr : ∀ {j}, Ticked p (clearFrame s) (passSlots p (clearFrame s)) j → Ticked p s (tick p s) j :=
    fun t => ⟨t.inactive, t.stays, t.ended, t.slave, t.output⟩
  refine ⟨fun j => ?_, ?_, ?_⟩
  · rcases evenSlots_cover j with hj | ⟨i, hi, rfl⟩
    · exact tr (q.even j hj)
    · exact tr (q.odd i hi)
  · have := q.outL
    rw [clearFrame_outL, BitVec.zero_add] at this
    exact this
  · have := q.outR
    rw [clearFrame_outR, BitVec.zero_add] at this
    exact this

/-! ### The frame -/

/-- A pan contribution lies in -2^23..2^23 and is exact in its 32 bits (rule R289). -/
theorem panned_exact (p : Params) (v : BitVec 16) (pan : Byte) :
    (panned p v pan).toInt = asr (v.toInt * pan.toNat) p.panShift ∧
      -2 ^ 23 ≤ (panned p v pan).toInt ∧ (panned p v pan).toInt ≤ 2 ^ 23 := by
  have hb : -2 ^ 23 ≤ asr (v.toInt * pan.toNat) p.panShift ∧ asr (v.toInt * pan.toNat) p.panShift ≤ 2 ^ 23 := by
    have h1 := BitVec.le_toInt v
    have h2 := BitVec.toInt_lt (x := v)
    have h3 := pan.isLt
    have h4 : (0 : Int) < (2 ^ p.panShift : Nat) := by exact_mod_cast Nat.two_pow_pos _
    have h5 : (1 : Int) ≤ (2 ^ p.panShift : Nat) := h4
    have h6 : (0 : Int) ≤ pan.toNat := Int.natCast_nonneg _
    have h7 : (pan.toNat : Int) ≤ 256 := by omega
    norm_num at h1 h2
    have l : -2 ^ 23 ≤ v.toInt * pan.toNat := by nlinarith
    have u : v.toInt * pan.toNat ≤ 2 ^ 23 := by nlinarith
    unfold asr
    constructor
    · rw [Int.le_ediv_iff_mul_le h4]; nlinarith
    · calc v.toInt * pan.toNat / (2 ^ p.panShift : Nat) ≤ 2 ^ 23 / (2 ^ p.panShift : Nat) :=
            Int.ediv_le_ediv h4 u
        _ ≤ 2 ^ 23 := Int.ediv_le_self _ (by norm_num)
  have e : (panned p v pan).toInt = asr (v.toInt * pan.toNat) p.panShift := by
    unfold panned
    rw [BitVec.toInt_ofInt, Int.bmod_def]
    omega
  exact ⟨e, by rw [e]; exact hb.1, by rw [e]; exact hb.2⟩

theorem share_bound (p : Params) (b : Bool) (y : Slot) (pan : Byte) :
    -2 ^ 23 ≤ (share p b y pan).toInt ∧ (share p b y pan).toInt ≤ 2 ^ 23 := by
  unfold share
  split
  · exact (panned_exact p y.pairOut pan).2
  · decide

/-- A 32-bit sum of few small terms is exact. -/
theorem toInt_add_exact {x y : Word} (h1 : -2 ^ 31 ≤ x.toInt + y.toInt) (h2 : x.toInt + y.toInt < 2 ^ 31) :
    (x + y).toInt = x.toInt + y.toInt := by
  rw [BitVec.toInt_add, Int.bmod_def]
  omega

theorem toInt_sum_exact (B : Int) (hB : 0 ≤ B) (l : List Word) (hl : (l.length : Int) * B < 2 ^ 31)
    (h : ∀ x ∈ l, -B ≤ x.toInt ∧ x.toInt ≤ B) :
    l.sum.toInt = (l.map BitVec.toInt).sum ∧ -(l.length * B) ≤ l.sum.toInt ∧ l.sum.toInt ≤ l.length * B := by
  induction l with
  | nil => simp
  | cons x l ih =>
    have hx := h x (by simp)
    have hlen : ((x :: l).length : Int) * B = l.length * B + B := by
      rw [List.length_cons]; push_cast; ring
    rw [hlen] at hl ⊢
    obtain ⟨e, b1, b2⟩ := ih (by omega) (fun y hy => h y (by simp [hy]))
    rw [List.sum_cons, List.map_cons, List.sum_cons, toInt_add_exact (by omega) (by omega), e]
    rw [e] at b1 b2
    omega

/-- The sum of the pairs' shares is exact, and at most 2^28 (rule R289). -/
theorem pairShares_exact (p : Params) (pan : SlotRegs → Byte) (s t : State) :
    (pairShares p pan s t evenSlots).toInt =
      (evenSlots.map fun i => (share p (emits s t i) (t.slot i) (pan (s.slot i).regs)).toInt +
        (share p (emits s t (i + 1#5)) (t.slot (i + 1#5)) (pan (s.slot (i + 1#5)).regs)).toInt).sum ∧
    -2 ^ 28 ≤ (pairShares p pan s t evenSlots).toInt ∧ (pairShares p pan s t evenSlots).toInt ≤ 2 ^ 28 := by
  have two : ∀ i, (share p (emits s t i) (t.slot i) (pan (s.slot i).regs) +
      share p (emits s t (i + 1#5)) (t.slot (i + 1#5)) (pan (s.slot (i + 1#5)).regs)).toInt =
      (share p (emits s t i) (t.slot i) (pan (s.slot i).regs)).toInt +
        (share p (emits s t (i + 1#5)) (t.slot (i + 1#5)) (pan (s.slot (i + 1#5)).regs)).toInt := by
    intro i
    have a := share_bound p (emits s t i) (t.slot i) (pan (s.slot i).regs)
    have b := share_bound p (emits s t (i + 1#5)) (t.slot (i + 1#5)) (pan (s.slot (i + 1#5)).regs)
    exact toInt_add_exact (by omega) (by omega)
  have k := toInt_sum_exact (2 ^ 24) (by norm_num)
    (evenSlots.map fun i => share p (emits s t i) (t.slot i) (pan (s.slot i).regs) +
      share p (emits s t (i + 1#5)) (t.slot (i + 1#5)) (pan (s.slot (i + 1#5)).regs))
    (by rw [List.length_map]; decide) (by
      intro x hx
      obtain ⟨i, _, rfl⟩ := List.mem_map.mp hx
      have a := share_bound p (emits s t i) (t.slot i) (pan (s.slot i).regs)
      have b := share_bound p (emits s t (i + 1#5)) (t.slot (i + 1#5)) (pan (s.slot (i + 1#5)).regs)
      rw [two]
      omega)
  rw [List.length_map, show evenSlots.length = 16 from rfl] at k
  refine ⟨?_, ?_, ?_⟩
  · unfold pairShares
    rw [k.1, List.map_map]
    congr 1
    apply List.map_congr_left
    intro i _
    exact two i
  · have := k.2.1; unfold pairShares; norm_num at this ⊢; exact this
  · have := k.2.2; unfold pairShares; norm_num at this ⊢; exact this

end Sys2Proof.Machine
end

