-- ==== Sys2Proof/Tests/Slice0.lean ====
section
/-! SUPPORT. Tests of the model, and witnesses for the statements that have hypotheses. Every expected
value is copied from spec/95_test_vectors.md (its identifiers E-1 to T-11 are in the names) or from the
rule named beside it; none was read off the model. Where a value needs an OPEN parameter the tests use
`pTest`, the spec's P_test (rule R15). -/

open Sys2Proof Sys2Proof.Machine Sys2Proof.Stated

namespace Sys2Proof.Tests

/-! ### Parameters and helpers -/

/-- UNLOG of the tests: the log value read as a magnitude below 2^15, so that a test can name linear
values; only a test's assumption. -/
def testUnlog (v : LogSample) : BitVec 16 :=
  BitVec.ofInt 16 (if v.logValue.toNat < 0x8000 then
    (if v.sign then -(v.logValue.toNat : Int) else v.logValue.toNat) else 0)

/-- P_test of rule R15, with a 0x1000-word PCM ROM (vectors W-1 to W-4), PCM_STEP(pitch) = pitch and the
plain-sample PCM_MIX. Rule R15 fixes RAMP_INC at the multiples of 8 only; in between it is a step
function here. -/
def pTest : Params where
  rampInc := fun m => 2 ^ (m.toNat / 8 + 3)
  rampInc_pos := fun m => Nat.pos_of_ne_zero (by positivity)
  rampInc_mono := fun m n h =>
    Nat.pow_le_pow_right (by decide) (Nat.add_le_add_right (Nat.div_le_div_right h) 3)
  rampInc_not_linear := by
    rintro ⟨a, b, h⟩
    have h0 := h 0#7
    have h1 := h 1#7
    have h8 := h 8#7
    simp at h0 h1 h8
    omega
  descBonus := 1
  inc_fits := by decide
  unlog := testUnlog
  unlog_neg := by
    intro v
    unfold testUnlog
    by_cases h : v.toNat < 0x8000
    · simp only [h, if_true, BitVec.toInt_ofInt, Int.bmod_def]
      simp
      omega
    · simp [h]
  unlog_silence := by decide
  pcmRomWords := 0x1000
  pcmRomWords_pos := by decide
  pcmRomWords_le := by decide
  pcmRom := fun a => BitVec.ofNat 16 a
  pcmToLog := fun w => ⟨w, false⟩
  pcmFracBits := 8
  pcmFracBits_pos := by decide
  pcmFracBits_le := by decide
  pcmStep := fun pitch => pitch.zeroExtend 32
  pcmMix := fun w0 w1 _ _ interp => (w0, if interp then w1 else LogSample.silence)
  pcmMix_plain := fun _ _ _ _ => rfl
  ringShift := 13
  ringShift_le := by decide
  panShift := 7
  panShift_le := by decide
  releaseZeroCode := 0x01#8
  releaseZeroCode_ne := by decide
  abortCode := 0xF8#8
  abortCode_desc := by decide

/-- The state after reset with slot i replaced. -/
def withSlot (i : SlotIx) (x : Slot) : State := (State.resetWith pTest).setSlot i x

/-- A slot after reset. -/
def slot0 : Slot := Slot.reset pTest

/-- The slot with this amplitude ramp. -/
def ampSlot (r : Ramp) : Slot := { slot0 with ramp := { slot0.ramp with tva := r } }

/-- An idle ramp at a value. -/
def rampAt (cur : BitVec 26) : Ramp := { Ramp.reset with cur := cur }

/-- What a command leads to. -/
def after (o : Host.Outcome State Fault Refusal) : State :=
  match o with
  | .next t => t
  | _ => State.reset

/-- The host's next access writes v to address a, after reset. -/
def writing (a : HostAddr) (v : Word) : State := { State.resetWith pTest with host := [.write a v] }

/-! ### Well-formedness: one ill-formed term for each command that reads UNIT -/

theorem test_wf_rstart : (Instr.rstart 0 3 2 0x78).wf = false := by decide
theorem test_wf_rnext : (Instr.rnext 0 3).wf = false := by decide
theorem test_wf_rchki : (Instr.rchki 0 3).wf = false := by decide
theorem test_wf_rreset : (Instr.rreset 0 3).wf = false := by decide
theorem test_wf_estart : (Instr.estart 0 3).wf = false := by decide
theorem test_wf_edecay : (Instr.edecay 0 3).wf = false := by decide
theorem test_wf_eintr : (Instr.eintr 0 3).wf = false := by decide

/-! ### Decoding: words written out in spec/95_test_vectors.md §2.1, or bit by bit from rule R101 -/

theorem test_decode_nop_E1 : decode 0x00000000#32 = .ok .nop := by rfl
theorem test_decode_rstart_E2 : decode 0x01000278#32 = .ok (.rstart 0 0 2 0x78) := by rfl
theorem test_decode_rstart_E3 : decode 0x010000F8#32 = .ok (.rstart 0 0 0 0xF8) := by rfl
theorem test_decode_rstart_E4 : decode 0x01FCFF80#32 = .ok (.rstart 31 2 0xFF 0x80) := by rfl
theorem test_decode_rnext_E5 : decode 0x022A0000#32 = .ok (.rnext 5 1) := by rfl
/-- OPC 0x03, SLOT 10110, UNIT 01, RSV 0, A 0, B 0. -/
theorem test_decode_rchki : decode 0b00000011101100100000000000000000#32 = .ok (.rchki 22 1) := by rfl
theorem test_decode_rreset_E6 : decode 0x043C0000#32 = .ok (.rreset 7 2) := by rfl
theorem test_decode_winit_E7 : decode 0x10080000#32 = .ok (.winit 1) := by rfl
theorem test_decode_wgen_E7 : decode 0x11080000#32 = .ok (.wgen 1) := by rfl
theorem test_decode_wdeact_E7 : decode 0x12180000#32 = .ok (.wdeact 3) := by rfl
theorem test_decode_pairout_E7 : decode 0x18100000#32 = .ok (.pairout 2) := by rfl
theorem test_decode_estart_E8 : decode 0x20040000#32 = .ok (.estart 0 2) := by rfl
theorem test_decode_edecay_E8 : decode 0x214A0000#32 = .ok (.edecay 9 1) := by rfl
theorem test_decode_eabort_E8 : decode 0x22000000#32 = .ok (.eabort 0) := by rfl
theorem test_decode_eintr_E8 : decode 0x23000000#32 = .ok (.eintr 0 0) := by rfl
theorem test_decode_pstart_E9 : decode 0x30180000#32 = .ok (.pstart 3) := by rfl
theorem test_decode_pstop_E9 : decode 0x31180000#32 = .ok (.pstop 3) := by rfl
theorem test_decode_pdecay_E9 : decode 0x32000000#32 = .ok (.pdecay 0) := by rfl
theorem test_decode_pabort_E9 : decode 0x33F80000#32 = .ok (.pabort 31) := by rfl
theorem test_decode_tick_E9 : decode 0x40000000#32 = .ok .tick := by rfl

theorem test_decode_opcode_E10 : decode 0x05000000#32 = .error .reservedOpcode := by rfl
theorem test_decode_unit_E11 : decode 0x02060000#32 = .error .illegalUnit := by rfl
theorem test_decode_a_E12 : decode 0x02000100#32 = .error .reservedField := by rfl
theorem test_decode_eabort_unit_E13 : decode 0x22020000#32 = .error .reservedField := by rfl
theorem test_decode_tick_slot_E14 : decode 0x40080000#32 = .error .reservedField := by rfl
theorem test_decode_rsv_E15 : decode 0x10010000#32 = .error .reservedField := by rfl
theorem test_decode_nop_bit_E16 : decode 0x00000001#32 = .error .reservedField := by rfl

/-- E-4 as the opcode table numbers its bits. -/
theorem test_table_word : decodeTableWord 32 0x01FCFF80 = some (.rstart 31 2 0xFF 0x80) := by rfl
/-- E-10: the step runs the placed word; ERR = 0x00000101. -/
theorem test_fetch_word_E10 :
    readReg (after (step (State.reset.withFetchWord 32 0x05000000))) 0x802#12 = 0x101#32 := by decide

/-! ### Ramps (§2.2) -/

theorem test_codes : codeInc pTest 0x00 = 0 ∧ codeInc pTest 0x80 = 9 ∧ codeInc pTest 0x08 = 16 ∧
    codeInc pTest 0x40 = 2048 ∧ codeInc pTest 0x78 = 0x40000 ∧ codeInc pTest 0xF8 = 0x40001 := by decide

/-- What one step after RSTART leaves of a ramp: CUR and RAMP_STAT. -/
def stepped1 (cur : BitVec 26) (tgt code : Byte) : BitVec 26 × Word :=
  let r := rampStep (startRamp pTest (rampAt cur) tgt code)
  (r.cur, rampStat r)

theorem test_rstart_R1 : stepped1 0 2 0x78 = (0x40000#26, 0x001#32) := by decide
theorem test_rstart_R2 : stepped1 0x80000 0 0xF8 = (0x3FFFF#26, 0x005#32) := by decide
theorem test_ramp_below_R3 : stepped1 0x80000 1 0x78 = (0x40000#26, 0x702#32) := by decide
theorem test_ramp_above_R4 : stepped1 0 2 0xF8 = (0x80000#26, 0x706#32) := by decide
theorem test_ramp_top_R5 : stepped1 0x3F80000 255 0x78 = (0x3FC0000#26, 0x702#32) := by decide
theorem test_ramp_frozen_R9 : stepped1 0x1234 5 0x00 = (0x1234#26, 0x000#32) := by decide
/-- R-1: the step from STAT 0x102 raises the flag, STAT 0x00B. -/
theorem test_rnext_R1_irq :
    readReg (after (exec (.rnext 0 0) (withSlot 0 (ampSlot
      { rampAt 0x80000 with tgt := 2, inc := 0x40000, cnt := 1, rstate := .counting })))) 0x033#12 =
      0x00B#32 := by decide
/-- R-1, second step: RESULT 0x80000. -/
theorem test_rnext_R1_result :
    (after (exec (.rnext 0 0) (withSlot 0 (ampSlot
      { rampAt 0x40000 with tgt := 2, inc := 0x40000, rstate := .moving })))).result = 0x80000#32 := by
  decide
/-- R-11: RESULT 1, STAT 0x003. -/
theorem test_rchki_R11 :
    let t := after (exec (.rchki 0 0) (withSlot 0 (ampSlot { rampAt 0x80000 with irq := true, rstate := .done })))
    t.result = 1#32 ∧ readReg t 0x033#12 = 0x003#32 := by decide
theorem test_rreset_R12 :
    let t := after (exec (.rreset 0 0) (withSlot 0 (ampSlot
      { rampAt 0x80000 with tgt := 2, inc := 9, desc := true, irq := true, rstate := .done })))
    readReg t 0x030#12 = 0#32 ∧ readReg t 0x031#12 = 0#32 ∧ readReg t 0x032#12 = 0#32 ∧
      readReg t 0x033#12 = 0#32 := by decide

/-! ### Wave generator (§2.3) -/

/-- The slot with WG_CFG, PCM_BASE and PCM_LEN. -/
def waveSlot (cfg base len : Word) : Slot :=
  { slot0 with regs := { slot0.regs with wgCfg := cfg, pcmBase := base, pcmLen := len } }

theorem test_winit_W1 : readReg (doWinit pTest 1 (withSlot 1 (waveSlot 1 0 0))) 0x802#12 = 0x401#32 ∧
    readReg (doWinit pTest 1 (withSlot 1 (waveSlot 1 0xFFF 2))) 0x802#12 = 0x401#32 := by decide
theorem test_winit_W3 :
    let t := doWinit pTest 1 (withSlot 1 (waveSlot 1 0xFFE 2))
    readReg t 0x07D#12 = 0x06#32 ∧ readReg t 0x06D#12 = 0xFFFF#32 ∧ readReg t 0x06E#12 = 0xFFFF#32 ∧
      readReg t 0x802#12 = 0#32 := by decide
/-- W-5: SILENCE in both latches, WG_POS left. -/
theorem test_wgen_W5 :
    let t := after (exec (.wgen 1) (withSlot 1 { slot0 with wave := { slot0.wave with pcm := true, pos := 0x123 } }))
    readReg t 0x06D#12 = 0xFFFF#32 ∧ readReg t 0x06E#12 = 0xFFFF#32 ∧ readReg t 0x07E#12 = 0x123#32 := by
  decide
theorem test_wdeact :
    readReg (after (exec (.wdeact 3) (withSlot 3 { slot0 with active := true, wave := { slot0.wave with active := true } })))
      0x0FD#12 = 0x01#32 := by decide

/-- A PCM step of a 4-sample wave at BASE 0x10 (sample k is the word 0x10 + k): the two output samples,
the new WG_POS and WG_ACTIVE. -/
def pcmStepped1 (pos : Word) (s : BitVec 16) (loop : Bool) : BitVec 16 × BitVec 16 × Word × Bool :=
  let w := pcmStep pTest { slot0.wave with
    active := true, pcm := true, interp := true, loop := loop, base := 0x10, len := 4, pos := pos } 0 s
  (w.out1.logValue, w.out2.logValue, w.pos, w.active)

theorem test_pcm_W6 : pcmStepped1 0x000 0x100 false = (0x10, 0x11, 0x100, true) := by decide
theorem test_pcm_W7 : pcmStepped1 0x380 0x100 true = (0x13, 0x10, 0x080, true) := by decide
theorem test_pcm_W8 : pcmStepped1 0x380 0x100 false = (0x13, 0xFFFF, 0x400, false) := by decide
theorem test_pcm_W9 : pcmStepped1 0x000 0x900 true = (0x10, 0x11, 0x100, true) := by decide

/-! ### Partial pair (§2.4) -/

theorem test_ring_Q1_Q5 : (ringMul pTest 1000 2000).toInt = 244 ∧
    (ringMul pTest (BitVec.ofInt 16 (-1000)) 2000).toInt = -245 ∧ (ringMul pTest 8191 8191).toInt = 8190 ∧
    (ringMul pTest 8192 8191).toInt = -8191 ∧
    (ringMul pTest (BitVec.ofInt 16 (-8192)) (BitVec.ofInt 16 (-8192))).toInt = 8192 := by decide
theorem test_ring_Q6_Q10 : (ringMul pTest (BitVec.ofInt 16 (-8193)) 100).toInt = 99 ∧
    (ringMul pTest 16383 1).toInt = -1 ∧ (ringMul pTest 32767 32767).toInt = 0 ∧
    (ringMul pTest 0x8000 8191).toInt = 0 ∧ (ringMul pTest 4096 4096).toInt = 2048 := by decide

/-- A slot whose wave generator holds the linear samples a and -b. -/
def samples (a b : BitVec 16) : Slot :=
  { slot0 with active := true, wave := { slot0.wave with active := true, out1 := ⟨a, false⟩, out2 := ⟨b, true⟩ } }

/-- Q-11: 100 and -30 give 70. -/
theorem test_pairout_Q11 : (doPairout pTest 4 (withSlot 4 (samples 100 30))).result = 70#32 := by decide
/-- Q-14, Q-15: the master mix 1000 and the synthetic slave mix 2000. -/
theorem test_pairout_Q14_Q15 :
    let master (m : MixType) : Slot := { samples 1000 0 with role := .ringMaster, mix := m }
    let slave : Slot := { samples 2000 0 with role := .ringSlave, mix := .ringOnly }
    (doPairout pTest 2 ((withSlot 2 (master .ringAndMix)).setSlot 3 slave)).result = 1244#32 ∧
      (doPairout pTest 2 ((withSlot 2 (master .ringOnly)).setSlot 3 slave)).result = 244#32 := by decide
/-- Q-16: a PCM slave with 2000 and 500 gives the slave term 2000. -/
theorem test_slave_Q16 :
    slaveSample pTest { samples 2000 0x1F4 with
      role := .ringSlave, wave := { (samples 2000 0x1F4).wave with pcm := true } } = 2000#16 := by decide
/-- Q-12: 30000 + 10000 wraps to -25536. -/
theorem test_mix_Q12 :
    (mixOut pTest { slot0.wave with active := true, out1 := ⟨30000, false⟩, out2 := ⟨10000, false⟩ }).toInt =
      -25536 := by decide

/-! ### Envelope controllers (§2.5) -/

/-- The slot with its TVA in a phase and its amplitude ramp at a value. -/
def tvaSlot (ph : Phase) (cur : BitVec 26) : Slot :=
  { ampSlot (rampAt cur) with phase := { slot0.phase with tva := ph } }

/-- V-1 to V-5: the direction and distance that MakeCode takes. -/
theorem test_make_code_V1_V5 :
    (targetDist (rampAt 0x80000) 0 = 2#8 ∧ targetDist (rampAt 0x80000) 2 = 0#8 ∧
      targetDist (rampAt 0x80000) 5 = 3#8 ∧ targetDist (rampAt 0x80001) 2 = 0#8 ∧
      targetDist (rampAt 0) 0 = 0#8) ∧
    ((makeCode pTest (tvaSlot .p0 0x80000) .tva 0 1).msb = true ∧
      (makeCode pTest (tvaSlot .p0 0x80000) .tva 2 1).msb = false ∧
      (makeCode pTest (tvaSlot .p0 0x80000) .tva 5 1).msb = false ∧
      (makeCode pTest (tvaSlot .p0 0x80001) .tva 2 1).msb = true ∧
      (makeCode pTest (tvaSlot .p0 0) .tva 0 1).msb = false) := by decide

theorem test_eintr_V6 : (handleInterrupt pTest (tvaSlot .p0 0) .tva).phase.tva = .p1 := by decide
/-- V-7 and V-8: PHASE4 goes to SUSTAIN, frozen, when the note can sustain, else to RELEASE. -/
theorem test_eintr_V7_V8 :
    let ok : Slot := { tvaSlot .p3 0x80000 with regs := { slot0.regs with note := 0x10000 } }
    (handleInterrupt pTest ok .tva).phase.tva = .p4 ∧
      (handleInterrupt pTest ok .tva).ramp.tva.rstate = .idle ∧
      (handleInterrupt pTest (tvaSlot .p3 0x80000) .tva).phase.tva = .release ∧
      (handleInterrupt pTest (tvaSlot .p3 0x80000) .tva).ramp.tva.tgt = 0#8 := by decide
/-- V-9: note-off from SUSTAIN with LT4 = 0 releases toward 0 with code 0x01. -/
theorem test_edecay_V9 :
    let x := decayEnv pTest (tvaSlot .p4 0x1000000) .tva
    x.phase.tva = .release ∧ x.ramp.tva.tgt = 0#8 ∧ x.ramp.tva.desc = false ∧
      x.ramp.tva.inc.toNat = codeInc pTest 0x01 ∧ x.ramp.tva.rstate = .moving := by decide
/-- V-12: no restart of a release. -/
theorem test_edecay_V12 : decayEnv pTest (tvaSlot .release 0x1234) .tva = tvaSlot .release 0x1234 := by rfl
/-- V-10, V-11 and V-19: the interrupt of a releasing TVA, and what changes nothing. -/
theorem test_phases_V10_V19 :
    (handleInterrupt pTest (tvaSlot .release 0) .tva).phase.tva = .dead ∧
      abortEnv pTest (tvaSlot .dead 0x1234) = tvaSlot .dead 0x1234 ∧
      handleInterrupt pTest (tvaSlot .p4 0x1234) .tva = tvaSlot .p4 0x1234 := ⟨rfl, rfl, rfl⟩
/-- V-13: an abort ramps toward 0 with code 0xF8. -/
theorem test_eabort_V13 :
    let x := abortEnv pTest (tvaSlot .p2 0x80000)
    x.phase.tva = .release ∧ x.ramp.tva.tgt = 0#8 ∧ x.ramp.tva.inc = 0x40001#32 ∧ x.ramp.tva.desc = true := by
  decide
/-- V-14 and V-15: the vibrato pair. -/
theorem test_vibrato_V14_V15 :
    (handleInterrupt pTest { slot0 with phase := { slot0.phase with tvp := .p2 } } .tvp).phase.tvp = .p3 ∧
      (handleInterrupt pTest { slot0 with phase := { slot0.phase with tvp := .p4 } } .tvp).phase.tvp = .p3 := by
  decide
/-- V-18: all levels 0, so RELEASE; with L0 = 0x40 the first phase is ATTACK (rule R228). -/
theorem test_estart_V18 :
    (startEnv pTest slot0 .tva).phase.tva = .release ∧
      (startEnv pTest { slot0 with regs := { slot0.regs with env := { slot0.regs.env with
        tva := { EnvRegs.reset with l := 0x40 } } } } .tva).phase.tva = .p0 := by decide

/-! ### Partial slots and TICK (§2.6) -/

/-- Slots 2 and 3 started as a ring pair under slot 2's PAIR_CFG. -/
def ringPair (pairCfg : Word) : State :=
  doPstart pTest 3 (doPstart pTest 2 (withSlot 2 { slot0 with regs := { slot0.regs with pairCfg := pairCfg } }))

theorem test_pstart_T5 : readReg (ringPair 2) 0x0BD#12 = 0x93#32 ∧ readReg (ringPair 2) 0x0FD#12 = 0xA3#32 := by
  decide
/-- T-9: ERR = 0x501, IRQ_PEND bit 0, the slot active again. -/
theorem test_pstart_T9 :
    let t := doPstart pTest 0 (withSlot 0 { slot0 with active := true })
    readReg t 0x802#12 = 0x501#32 ∧ t.irqPend = 1#32 ∧ (t.slot 0).active = true := by decide
theorem test_pstop_T6 :
    let t := after (exec (.pstop 3) (ringPair 2))
    t.irqPend = 0xC#32 ∧ readReg t 0x0BD#12 = 0x90#32 ∧ readReg t 0x0FD#12 = 0xA0#32 := by decide
theorem test_pstop_T7 :
    let t := after (exec (.pstop 3) (ringPair 1))
    t.irqPend = 0x8#32 ∧ (t.slot 2).active = true := by decide
/-- T-2: no command on an inactive slot changes anything. -/
theorem test_inactive_T2 :
    exec (.pstop 5) (State.resetWith pTest) = .next (State.resetWith pTest) ∧
      decaySlot pTest slot0 = slot0 ∧ abortSlot pTest slot0 = slot0 := ⟨rfl, rfl, rfl⟩
/-- The example of rule R273: TVA_PH becomes 5. -/
theorem test_pdecay :
    (decaySlot pTest { tvaSlot .p4 0x80000 with active := true }).phase.tva = .release := by decide
/-- The example of rule R274. -/
theorem test_pabort :
    (abortSlot pTest { tvaSlot .p1 0x80000 with active := true }).ramp.tva.inc = 0x40001#32 := by decide
/-- T-3: a dead wave generator ends its slot at the next TICK. -/
theorem test_tick_T3 :
    let t := tick pTest (withSlot 3 { slot0 with active := true })
    t.irqPend = 0x8#32 ∧ (t.slot 3).active = false ∧ t.outL = 0#32 ∧ t.sampleCnt = 1#32 := by
  decide +kernel
/-- T-4: asr(1000 * 128, 7) = 1000. -/
theorem test_pan_T4 : panned pTest 1000 128 = 1000#32 := by decide
/-- T-1: a TICK after reset. -/
theorem test_tick_T1 :
    let t := tick pTest (State.resetWith pTest)
    t.outL = 0#32 ∧ t.outR = 0#32 ∧ t.sampleCnt = 1#32 ∧ t.irqPend = 0#32 := by decide +kernel

/-! ### Host accesses -/

/-- P5's last line: a write of OUT_L records 0x06. -/
theorem test_bus_ro : readReg (after (step (writing 0x805 1))) 0x802#12 = 0x601#32 := by decide
/-- Rule R50: the reserved bits of WG_CFG of slot 2 read 0. -/
theorem test_bus_mask : readReg (after (step (writing 0x080 0xFFFFFFFF))) 0x080#12 = 0x00FFFF0F#32 := by decide
/-- Rule R48. -/
theorem test_bus_id : readReg State.reset 0x809#12 = 0x4C413332#32 := by decide

/-! ### Witnesses: for every statement with hypotheses, a state and operands that meet them together -/

theorem witness_DecodeReadsBackEveryEncodedCommand : (Instr.rstart 31 2 0xFF 0x80).wf = true := by decide

theorem witness_DecodedWordIsItsCommandsWord : decode 0x01FCFF80#32 = .ok (.rstart 31 2 0xFF 0x80) := by rfl

/-- Every branch of the decoder's checks is some word's. -/
theorem witness_DecoderChecksOpcodeThenFieldsThenUnit :
    (opcodeMasks.lookup ((0x05000000#32).toNat / 2 ^ 24) = none) ∧
    (opcodeMasks.lookup ((0x02010000#32).toNat / 2 ^ 24) = some 0xFF01FFFF ∧
      0x02010000#32 &&& 0xFF01FFFF#32 ≠ 0x02000000#32) ∧
    (0x02060000#32 &&& 0xFF01FFFF#32 = 0x02000000#32 ∧ 0x02 ∈ unitOpcodes ∧
      (0x02060000#32).toNat / 2 ^ 17 % 4 = 3) ∧
    (0x022A0000#32 &&& 0xFF01FFFF#32 = 0x02000000#32 ∧ (0x022A0000#32).toNat / 2 ^ 17 % 4 = 1) := by decide

theorem witness_StepRunsTheDecodedCommand :
    decode 0x022A0000#32 = .ok (.rnext 5 1) ∧
      (writing 0x800 0x022A0000).host = .write 0x800#12 0x022A0000#32 :: [] := ⟨rfl, rfl⟩

/-- A word of each of the three errors. -/
theorem witness_ErroneousCommandChangesOnlyErr :
    (∀ w, (writing 0x800 w).host = .write 0x800#12 w :: []) ∧ decode 0x05000000#32 = .error .reservedOpcode ∧
      decode 0x02000100#32 = .error .reservedField ∧ decode 0x02060000#32 = .error .illegalUnit :=
  ⟨fun _ => rfl, rfl, rfl, rfl⟩

theorem witness_StepWaitsForTheHost : State.reset.host = [] := by rfl

theorem witness_HostReadHasNoSideEffect :
    ({ State.reset with host := [.read 0x801#12] } : State).host = .read 0x801#12 :: [] := by rfl

/-- The first and the last parameter register of each range, in the first and the last slot. -/
theorem witness_ParameterWriteReadsBackMasked :
    isParam 0x00 ∧ isParam 0x07 ∧ isParam 0x10 ∧ isParam 0x27 ∧ ¬isParam 0x08 ∧ ¬isParam 0x0F ∧ ¬isParam 0x28 ∧
      (writing (slotAddr 0 0x00) 1).host = .write (slotAddr 0 0x00) 1#32 :: [] ∧
      (writing (slotAddr 31 0x27) 1).host = .write (slotAddr 31 0x27) 1#32 :: [] := by
  unfold isParam; decide

/-- The read-only and reserved addresses of the statement, at the edges of its ranges. -/
def refused (a : HostAddr) : Prop :=
  blockOf a < 32 ∧ ¬isParam (indexOf a) ∨
    blockOf a = 32 ∧ indexOf a ≠ 0 ∧ indexOf a ≠ 2 ∧ indexOf a ≠ 3 ∧ indexOf a ≠ 4 ∨ 33 ≤ blockOf a

/-- The reserved addresses of the statement. -/
def readsZero (a : HostAddr) : Prop :=
  33 ≤ blockOf a ∨ blockOf a = 32 ∧ 10 ≤ indexOf a ∨
    blockOf a < 32 ∧ (indexOf a < 0x10 ∨ 0x28 ≤ indexOf a ∧ indexOf a < 0x2C ∨ indexOf a = 0x3F)

/-- Read-only registers: the first and the last of the slot blocks and of the global block. -/
theorem witness_ReadOnlyAddresses : ∀ a ∈ [0x02C#12, 0x03E#12, 0x7EC#12, 0x7FE#12, 0x801#12, 0x805#12, 0x809#12],
    refused a ∧ ¬readsZero a := by
  unfold refused readsZero isParam
  intro a ha
  fin_cases ha <;> decide

/-- Reserved addresses, at the edges of every range. -/
theorem witness_ReservedAddresses : ∀ a ∈ [0x008#12, 0x00F#12, 0x028#12, 0x02B#12, 0x03F#12, 0x7FF#12, 0x80A#12,
    0x83F#12, 0x840#12, 0xFFF#12], refused a ∧ readsZero a := by
  unfold refused readsZero isParam
  intro a ha
  fin_cases ha <;> decide

theorem witness_ReadOnlyAndReservedAddressesRefuseWrites :
    (writing 0x02C 1).host = .write 0x02C#12 1#32 :: [] ∧ (writing 0x809 1).host = .write 0x809#12 1#32 :: [] ∧
      (writing 0x840 1).host = .write 0x840#12 1#32 :: [] := by decide

theorem witness_ErrIrqPendAndIrqEnWrites :
    (writing 0x802 1).host = .write 0x802#12 1#32 :: [] ∧ (writing 0x803 0xC).host = .write 0x803#12 0xC#32 :: [] ∧
      (writing 0x804 1).host = .write 0x804#12 1#32 :: [] := by decide

/-- UNIT 0, 1 and 2, for the statements of RSTART, RNEXT, RCHKI, RRESET, ESTART, EDECAY and EINTR. -/
theorem witness_unitNames : unitNames 0 .tva ∧ unitNames 1 .tvp ∧ unitNames 2 .tvf := by
  unfold unitNames; decide

theorem witness_EstartOrderIsNotObservable : unitNames 2 .tvf ∧ unitNames 0 .tva :=
  ⟨witness_unitNames.2.2, witness_unitNames.1⟩

theorem witness_MovingRampNeverPassesItsTarget :
    (startRamp pTest (rampAt 0x80000) 0 0xF8).rstate = .moving ∧
      (startRamp pTest (rampAt 0x80000) 0 0xF8).cur.toNat ≤ maxCur := by decide

theorem witness_IdleRampIsFrozenForever : (rampAt 0x1234).rstate = .idle := by rfl

theorem witness_RampReachesItsTargetAndInterruptsExactlyOnce :
    (rampAt 0x3FC0000).cur.toNat ≤ maxCur ∧ (0x01#8 ≠ 0#8) ∧ (0x00#8 = 0#8) := by decide

/-- A PCM wave of length 0 is out of range for every parameter set; a synthetic wave is not, and
neither is a PCM wave of one word at 0. -/
theorem witness_outOfRange :
    outOfRange hw (waveSlot 1 0 0).regs ∧ ¬outOfRange hw (waveSlot 0 0 0).regs ∧
      ¬outOfRange hw (waveSlot 1 0 1).regs := by
  refine ⟨⟨by decide, fun h => absurd h.1 (by decide)⟩, fun h => absurd h.1 (by decide), fun h => h.2 ?_⟩
  have h2 : 2 ^ hw.pcmFracBits ≤ 2 ^ 31 := Nat.pow_le_pow_right (by decide) hw.pcmFracBits_le
  have h1 := hw.pcmRomWords_pos
  refine ⟨by decide, ?_, ?_⟩
  · show 0 % 2 ^ 24 + 1 % 2 ^ 24 ≤ _
    omega
  · show 1 % 2 ^ 24 * _ < _
    omega

/-- WINIT and PSTART in and out of range, and PSTART of a slot that is inactive or active. -/
theorem witness_WinitAndPstart :
    outOfRange hw ((withSlot 1 (waveSlot 1 0 0)).slot 1).regs ∧
    (¬outOfRange hw ((withSlot 1 (waveSlot 1 0 1)).slot 1).regs ∧
      ((withSlot 1 (waveSlot 1 0 1)).slot 1).active = false) ∧
    (¬outOfRange hw ((withSlot 1 { waveSlot 1 0 1 with active := true }).slot 1).regs ∧
      ((withSlot 1 { waveSlot 1 0 1 with active := true }).slot 1).active = true) := by
  unfold withSlot
  rw [slot_setSlot_same, slot_setSlot_same, slot_setSlot_same]
  exact ⟨witness_outOfRange.1, ⟨witness_outOfRange.2.2, rfl⟩, witness_outOfRange.2.2, rfl⟩

/-- A looped wave of the last two words of the ROM, one step before its end; and a ROM that differs from
it outside the wave. -/
theorem witness_PcmStepStaysInsideTheRom :
    let w : Wave := { slot0.wave with active := true, pcm := true, loop := true, base := 0xFFE, len := 2, pos := 0x1FF }
    w.Ok pTest ∧ w.active = true ∧ w.pcm = true ∧
      ∃ rom : Nat → BitVec 16, rom ≠ pTest.pcmRom ∧ ∀ a, 0xFFE ≤ a → a < 0xFFE + 2 → rom a = pTest.pcmRom a := by
  refine ⟨⟨fun _ _ => by decide, fun _ _ => by decide⟩, rfl, rfl,
    fun a => if a = 0 then ~~~pTest.pcmRom 0 else pTest.pcmRom a, fun e => ?_, fun a h _ => if_neg (by omega)⟩
  exact absurd (congrFun e 0) (by decide)

theorem witness_ReleaseAlwaysEndsSevenStepsAfterItsTarget :
    ((tvaSlot .p4 0x1000000).ramp.get .tva).cur.toNat ≤ maxCur ∧
      (tvaSlot .p4 0x1000000).phase.get .tva ≠ .release ∧ (tvaSlot .p4 0x1000000).phase.get .tva ≠ .dead := by
  decide

theorem witness_AllLevelsZeroEndsInEightSteps :
    slot0.ramp.tva.cur = 0#26 ∧ (latched slot0.regs.env.tva).ll0 = 0#8 ∧ (latched slot0.regs.env.tva).ll1 = 0#8 ∧
      (latched slot0.regs.env.tva).ll2 = 0#8 ∧ (latched slot0.regs.env.tva).ll3 = 0#8 := by decide

theorem witness_AbortEndsSevenStepsAfterReachingZero :
    (tvaSlot .p2 0x3FC0000).ramp.tva.cur.toNat ≤ maxCur ∧ (tvaSlot .p2 0x3FC0000).phase.tva ≠ .dead := by decide

/-- The two exceptions of the statement, and a forward move. -/
theorem witness_PhasesOnlyMoveForward :
    (∃ t, exec (.eabort 0) (withSlot 0 (tvaSlot .p2 0x80000)) = .next t) ∧
    (∃ t, exec (.eintr 0 1) (withSlot 0 { slot0 with phase := { slot0.phase with tvp := .p4 } }) = .next t) ∧
    (∃ t, exec (.estart 0 0) (withSlot 0 (tvaSlot .dead 0)) = .next t) ∧
    (∃ t, exec (.pstart 0) (withSlot 0 (tvaSlot .dead 0)) = .next t) := ⟨⟨_, rfl⟩, ⟨_, rfl⟩, ⟨_, rfl⟩, ⟨_, rfl⟩⟩

theorem witness_TickWithNoActiveSlotOnlyCounts : ∀ i, (State.reset.slot i).active = false := by
  intro i; rw [State.reset, reset_slot]; rfl

/-- The amplitude ramp of a release from 0x100000 by 0x1000 a sample. -/
def releaseRamp : Ramp := { rampAt 0x100000 with inc := 0x1000, desc := true, rstate := .moving }

/-- An active slot whose TVA is in RELEASE. -/
def releasingSlot : Slot :=
  { Slot.reset Config.hardware with
    ramp := ⟨releaseRamp, Ramp.reset, Ramp.reset⟩
    phase := ⟨.release, .p0, .p0⟩
    wave := { Wave.reset Config.hardware with active := true }
    active := true }

/-- The block after reset with slot 0 in its release. -/
def releasing : State := State.reset.setSlot 0 releasingSlot

theorem releaseRamp_ok : releaseRamp.Ok := by constructor <;> decide

theorem slotRegs_reset_ok : SlotRegs.reset.Ok := by
  intro n
  cases n with
  | env c j => cases c <;> revert j <;> decide
  | _ => decide

theorem releasingSlot_ok : releasingSlot.Ok Config.hardware 0 where
  regs := slotRegs_reset_ok
  ramps c := by
    cases c
    · exact releaseRamp_ok
    · exact ramp_reset_ok
    · exact ramp_reset_ok
  wave := ⟨fun _ h => (nomatch h), fun _ h => (nomatch h)⟩
  role := by rfl

/-- A safe state with an active slot, for the statements about safe states. -/
theorem releasing_safe : releasing.Inv := by
  refine ⟨fun i => ?_, fun _ => rfl, fun h => (nomatch h), by decide, by decide⟩
  unfold releasing
  rw [slot_setSlot]
  split
  · rename_i e; subst e; exact releasingSlot_ok
  · rw [State.reset, reset_slot]
    exact ⟨slotRegs_reset_ok, fun c => by cases c <;> exact ramp_reset_ok,
      ⟨fun h => (nomatch h), fun h => (nomatch h)⟩, rfl⟩

/-- A slot of a ring pair, its TVA in the phase ph. -/
def ringSlot (mix : MixType) (role : Role) (ph : Phase) : Slot :=
  { releasingSlot with phase := ⟨ph, .p0, .p0⟩, role := role, mix := mix }

/-- The block after reset with slots 2 and 3 a ring pair, the TVA of its master in phase a and that of
its slave in phase b. -/
def ringing (mix : MixType) (a b : Phase) : State :=
  (State.reset.setSlot 2 (ringSlot mix .ringMaster a)).setSlot 3 (ringSlot mix .ringSlave b)

@[simp] theorem ringing_slot2 (mix : MixType) (a b : Phase) :
    (ringing mix a b).slot 2#5 = ringSlot mix .ringMaster a :=
  (slot_setSlot_ne _ _ (by decide)).trans (slot_setSlot_same _ _ _)

@[simp] theorem ringing_slot3 (mix : MixType) (a b : Phase) :
    (ringing mix a b).slot 3#5 = ringSlot mix .ringSlave b := slot_setSlot_same _ _ _

theorem ringing_safe {mix : MixType} (h : mix = .ringAndMix ∨ mix = .ringOnly) (a b : Phase) :
    (ringing mix a b).Inv := by
  have ok : ∀ i role ph, role = roleFor mix i → (ringSlot mix role ph).Ok Config.hardware i :=
    fun _ _ _ e => ⟨slotRegs_reset_ok, releasingSlot_ok.ramps, releasingSlot_ok.wave, e⟩
  have frame : -frameBound ≤ (0#32).toInt ∧ (0#32).toInt ≤ frameBound := by decide
  refine ⟨fun i => ?_, fun _ => rfl, fun h => (nomatch h), frame, frame⟩
  unfold ringing
  rw [slot_setSlot]
  split
  · rename_i e; subst e; exact ok _ _ _ (by rcases h with rfl | rfl <;> rfl)
  · rw [slot_setSlot]
    split
    · rename_i e; subst e; exact ok _ _ _ (by rcases h with rfl | rfl <;> rfl)
    · rw [State.reset, reset_slot]
      exact ⟨slotRegs_reset_ok, fun c => by cases c <;> exact ramp_reset_ok,
        ⟨fun h => (nomatch h), fun h => (nomatch h)⟩, rfl⟩

/-- An active slot on its own that stays active. -/
theorem witness_TickAdvancesEveryActiveSlotOnce :
    releasing.Inv ∧ (releasing.slot 0).active = true ∧ isAlive (releasing.slot 0) := by
  refine ⟨releasing_safe, ?_⟩
  unfold releasing isAlive
  rw [slot_setSlot_same]
  exact ⟨rfl, nofun, rfl⟩

/-- The cases of a ring pair: both slots stay; a dead master takes its slave with it; a dead slave takes
its master with it under L_MIX 2 and not under L_MIX 1. -/
theorem witness_TickAdvancesEveryActiveSlotOnce_pair :
    (let s := ringing .ringOnly .p1 .p2
     s.Inv ∧ leads s 2#5 ∧ attached s 3#5 ∧ staysActive s 2#5 ∧ staysActive s 3#5) ∧
    (let s := ringing .ringAndMix .dead .p2
     s.Inv ∧ isAlive (s.slot 3#5) ∧ attached s 3#5 ∧ ¬staysActive s 2#5 ∧ ¬staysActive s 3#5) ∧
    (let s := ringing .ringOnly .p1 .dead
     s.Inv ∧ isAlive (s.slot 2#5) ∧ ¬attached s 2#5 ∧ ¬staysActive s 2#5 ∧ ¬staysActive s 3#5) ∧
    (let s := ringing .ringAndMix .p1 .dead
     s.Inv ∧ staysActive s 2#5 ∧ ¬staysActive s 3#5) := by
  refine ⟨⟨ringing_safe (.inr rfl) _ _, ?_⟩, ⟨ringing_safe (.inl rfl) _ _, ?_⟩,
    ⟨ringing_safe (.inr rfl) _ _, ?_⟩, ringing_safe (.inl rfl) _ _, ?_⟩ <;>
    simp [staysActive, leads, attached, isAlive, ringSlot, releasingSlot]

theorem witness_TickFrameIsTheSumOfItsSlots : releasing.Inv ∧ ∃ t, exec .tick releasing = .next t :=
  ⟨releasing_safe, _, rfl⟩

theorem witness_ReleasedSlotIsDeactivatedByTicks :
    ∃ f : Nat → State, releasing.Inv ∧ (releasing.slot 0).active = true ∧
      (releasing.slot 0).phase.tva = .release ∧ (releasing.slot 0).ramp.tva.rstate = .moving ∧
      f 0 = releasing ∧ ∀ n, exec .tick (f n) = .next (f (n + 1)) := by
  refine ⟨fun n => (Sys2Proof.Machine.tick Config.hardware)^[n] releasing, releasing_safe, ?_, ?_, ?_, rfl, fun n => ?_⟩
  · unfold releasing; rw [slot_setSlot_same]; rfl
  · unfold releasing; rw [slot_setSlot_same]; rfl
  · unfold releasing; rw [slot_setSlot_same]; rfl
  · show _ = Host.Outcome.next ((Sys2Proof.Machine.tick Config.hardware)^[n + 1] releasing)
    rw [exec_tick, Function.iterate_succ_apply']

/-- WG_CFG rewritten in every slot, a register that TICK does not see. -/
def rewritten (s : State) : State :=
  { s with slots := s.slots.map fun x => { x with regs := { x.regs with wgCfg := 0x00FFFF0F } } }

theorem witness_TickIgnoresUnlatchedParameters :
    ∃ (g : SlotIx → SlotRegs) (t s' : State),
      (∀ i, (g i).pan = (releasing.slot i).regs.pan ∧ (g i).note = (releasing.slot i).regs.note ∧
        (g i).ctrlIn = (releasing.slot i).regs.ctrlIn ∧ (g i).bendIn = (releasing.slot i).regs.bendIn) ∧
      exec .tick releasing = .next t ∧ (∀ i, s'.slot i = { releasing.slot i with regs := g i }) ∧
      { s' with slots := releasing.slots } = releasing :=
  ⟨fun i => { (releasing.slot i).regs with wgCfg := 0x00FFFF0F }, _, rewritten releasing,
    fun _ => ⟨rfl, rfl, rfl, rfl⟩, rfl, fun i => by unfold rewritten State.slot; simp, rfl⟩

theorem witness_CommandsWriteOnlyTheirState :
    (∃ t, exec (.rnext 5 1) State.reset = .next t) ∧ (∃ t, exec (.pstop 0) releasing = .next t) ∧
      (∃ t, exec .tick releasing = .next t) ∧ (∃ t, exec (.pstart 0) releasing = .next t) :=
  ⟨⟨_, rfl⟩, ⟨_, rfl⟩, ⟨_, rfl⟩, ⟨_, rfl⟩⟩

/-- A slot deactivated by PSTOP, and a stale PSTART. -/
theorem witness_IrqPendRecordsEveryDeactivation :
    (releasing.slot 0).active = true ∧ (∃ t, exec (.pstop 0) releasing = .next t) ∧
      ∃ t, exec (.pstart 0) releasing = .next t := by
  refine ⟨?_, ⟨_, rfl⟩, ⟨_, rfl⟩⟩
  unfold releasing; rw [slot_setSlot_same]; rfl

theorem witness_OnlyPstartActivatesASlot :
    ∃ t, exec (.pstart 4) State.reset = .next t ∧ (State.reset.slot 4).active = false ∧
      (t.slot 4).active = true :=
  ⟨_, rfl, by rw [State.reset, reset_slot]; rfl, rfl⟩

/-- An error kept over a TICK, and an error cleared by the host. -/
theorem witness_ErrorStaysUntilTheHostClearsIt :
    let s : State := { State.reset with err := true, errCode := 0x05, host := [.write 0x800 0x40000000] }
    let u : State := { State.reset with err := true, errCode := 0x05, host := [.write 0x802 1] }
    (s.err = true ∧ ∃ t, step s = .next t) ∧ (u.err = true ∧ ∃ t, step u = .next t) :=
  ⟨⟨rfl, _, rfl⟩, rfl, _, rfl⟩

theorem witness_EveryStepKeepsTheStateSafe : releasing.Inv ∧ ∃ t, step releasing = .next t :=
  ⟨releasing_safe, _, rfl⟩

end Sys2Proof.Tests
end

section
/-! The step in every case of the queue of host accesses: nothing waiting, a read, a register write,
a command. -/

namespace Sys2Proof.Machine

/-- Rules R5, R340: with no access waiting the block stands still. -/
theorem step_idle {s : State} (h : s.host = []) : step s = .next s := by
  unfold step
  rw [h]

/-- Rules R105, R310: a word written to CMD never faults, since a rejected word is only logged and every
command answers a next state. -/
theorem runCommand_answers (w : Word) (s : State) : ∃ t, runCommand w s = .next t := by
  unfold runCommand
  cases decode w with
  | error e => exact ⟨s.logError e, rfl⟩
  | ok i =>
    obtain ⟨t, ht, -⟩ := exec_shape i s
    exact ⟨t, ht⟩

/-- Rules R13, R310: the step by the head of the queue. -/
theorem step_answers (s : State) : ∃ t, step s = .next t := by
  cases h : s.host with
  | nil => exact ⟨s, step_idle h⟩
  | cons a rest =>
    cases a with
    | read addr => exact ⟨_, step_read h⟩
    | write addr v =>
      by_cases ha : addr = cmdAddr
      · subst ha
        rw [step_command h]
        exact runCommand_answers v _
      · exact ⟨_, step_write h ha⟩

/-- Settles O7: the step's branch for the empty queue. -/
theorem stepWaitsForTheHost : Obligations.StepWaitsForTheHost := fun _ h => step_idle h

/-- Settles O9, by the head of the queue of accesses. -/
theorem everyStepAnswersANextState : Obligations.EveryStepAnswersANextState := step_answers

end Sys2Proof.Machine
end

section
/-! Rule R351: what TICK reads of the parameter registers. Registers that agree with a slot's own in PAN,
NOTE, CTRL_IN and BEND_IN can be put in their place before a sample or after it; the same then holds of
every operation of the TICK loop. -/

namespace Sys2Proof.Machine

/-- The registers r agree with q in the four that a sounding slot reads live (rules R36-R38, R351). -/
structure SlotRegs.LiveAgree (r q : SlotRegs) : Prop where
  pan : r.pan = q.pan
  note : r.note = q.note
  ctrlIn : r.ctrlIn = q.ctrlIn
  bendIn : r.bendIn = q.bendIn

/-- The slot with its parameter registers replaced. -/
def Slot.withRegs (x : Slot) (r : SlotRegs) : Slot := { x with regs := r }

/-! ### The live fields -/

theorem inputs_live {r q : SlotRegs} (h : r.LiveAgree q) : inputs r = inputs q := by
  unfold inputs
  rw [h.note, h.ctrlIn, h.bendIn]

theorem sustainOk_live {r q : SlotRegs} (h : r.LiveAgree q) : sustainOk r = sustainOk q := by
  unfold sustainOk
  rw [h.note]

theorem panL_live {r q : SlotRegs} (h : r.LiveAgree q) : panL r = panL q := by
  unfold panL
  rw [h.pan]

theorem panR_live {r q : SlotRegs} (h : r.LiveAgree q) : panR r = panR q := by
  unfold panR
  rw [h.pan]

/-! ### One slot's sample -/

@[simp] theorem withRegs_regs (x : Slot) (r : SlotRegs) : (x.withRegs r).regs = r := rfl
@[simp] theorem withRegs_ramp (x : Slot) (r : SlotRegs) : (x.withRegs r).ramp = x.ramp := rfl
@[simp] theorem withRegs_phase (x : Slot) (r : SlotRegs) : (x.withRegs r).phase = x.phase := rfl
@[simp] theorem withRegs_active (x : Slot) (r : SlotRegs) : (x.withRegs r).active = x.active := rfl
@[simp] theorem withRegs_role (x : Slot) (r : SlotRegs) : (x.withRegs r).role = x.role := rfl
@[simp] theorem withRegs_mix (x : Slot) (r : SlotRegs) : (x.withRegs r).mix = x.mix := rfl
@[simp] theorem alive_withRegs (x : Slot) (r : SlotRegs) : alive (x.withRegs r) = alive x := rfl

theorem modRamp_withRegs (x : Slot) (r : SlotRegs) (c : Ctl) (f : Ramp → Ramp) :
    (x.withRegs r).modRamp c f = (x.modRamp c f).withRegs r := rfl

section
variable (p : Params) {x : Slot} {r : SlotRegs} (h : r.LiveAgree x.regs)
include h

theorem enterTimed_withRegs (c : Ctl) (ph : Phase) (j : Fin 4) :
    enterTimed p (x.withRegs r) c ph j = (enterTimed p x c ph j).withRegs r := by
  simp only [enterTimed, phaseTime, setPhase_regs, withRegs_regs, inputs_live h]
  rfl

theorem startRelease_withRegs (c : Ctl) :
    startRelease p (x.withRegs r) c = (startRelease p x c).withRegs r := by
  unfold startRelease
  rw [withRegs_regs, inputs_live h]
  rfl

theorem enterSustain_withRegs (c : Ctl) :
    enterSustain p (x.withRegs r) c = (enterSustain p x c).withRegs r := by
  unfold enterSustain
  rw [withRegs_regs, sustainOk_live h]
  split
  · rfl
  · exact startRelease_withRegs p h c

theorem handleAmpFilter_withRegs (c : Ctl) :
    handleAmpFilter p (x.withRegs r) c = (handleAmpFilter p x c).withRegs r := by
  unfold handleAmpFilter
  rw [withRegs_phase]
  cases x.phase.get c with
  | p0 => exact enterTimed_withRegs p h c .p1 1
  | p1 => exact enterTimed_withRegs p h c .p2 2
  | p2 => exact enterTimed_withRegs p h c .p3 3
  | p3 => exact enterSustain_withRegs p h c
  | p4 => rfl
  | release => rfl
  | dead => rfl

theorem handlePitch_withRegs : handlePitch p (x.withRegs r) = (handlePitch p x).withRegs r := by
  unfold handlePitch
  rw [withRegs_phase]
  cases x.phase.tvp with
  | p0 => exact enterTimed_withRegs p h .tvp .p1 1
  | p1 => exact enterTimed_withRegs p h .tvp .p2 2
  | p2 => exact enterTimed_withRegs p h .tvp .p3 3
  | p3 => exact enterTimed_withRegs p h .tvp .p4 3
  | p4 => exact enterTimed_withRegs p h .tvp .p3 3
  | release => rfl
  | dead => rfl

theorem handleInterrupt_withRegs (c : Ctl) :
    handleInterrupt p (x.withRegs r) c = (handleInterrupt p x c).withRegs r := by
  cases c with
  | tva => exact handleAmpFilter_withRegs p h .tva
  | tvp => exact handlePitch_withRegs p h
  | tvf => exact handleAmpFilter_withRegs p h .tvf

theorem envStep_withRegs (c : Ctl) : envStep p (x.withRegs r) c = (envStep p x c).withRegs r := by
  have hcleared : r.LiveAgree ((x.modRamp c rampStep).modRamp c clearIrq).regs := h
  cases hirq : (rampStep (x.ramp.get c)).irq with
  | false => simp [envStep, modRamp_withRegs, hirq]
  | true => simp [envStep, modRamp_withRegs, hirq, handleInterrupt_withRegs p hcleared]

theorem generate_withRegs : generate p (x.withRegs r) = (generate p x).withRegs r := by
  unfold generate wavePitch
  rw [withRegs_regs, inputs_live h]
  rfl

theorem envSteps_withRegs : envSteps p (x.withRegs r) = (envSteps p x).withRegs r := by
  have hp : r.LiveAgree (envStep p x .tvp).regs := by rwa [(envStep_frame p x .tvp).regs]
  have hf : r.LiveAgree (envStep p (envStep p x .tvp) .tvf).regs := by rwa [(envStep_frame p _ .tvf).regs]
  unfold envSteps
  rw [envStep_withRegs p h, envStep_withRegs p hp, envStep_withRegs p hf]

theorem envSample_withRegs : envSample p (x.withRegs r) = (envSample p x).withRegs r := by
  have hg : r.LiveAgree (envSteps p x).regs := by rwa [(envSteps_frame p x).1]
  rw [envSample_eq, envSample_eq, envSteps_withRegs p h, generate_withRegs p hg]

end

/-! ### Two runs of the TICK loop -/

/-- The state s' is s with the parameter registers g, which agree with those of s in what is read live. -/
structure Rewritten (g : SlotIx → SlotRegs) (s s' : State) : Prop where
  live : ∀ i, (g i).LiveAgree (s.slot i).regs
  slot : ∀ i, s'.slot i = (s.slot i).withRegs (g i)
  rest : ∃ v, s' = { s with slots := v }

section
variable {g : SlotIx → SlotRegs} {s s' : State} (h : Rewritten g s s')
include h

/-- A change of slot i that keeps its registers, and that commutes with a change of them, keeps the
relation. -/
theorem Rewritten.modSlot {i : SlotIx} {f : Slot → Slot} (hregs : (f (s.slot i)).regs = (s.slot i).regs)
    (hf : f ((s.slot i).withRegs (g i)) = (f (s.slot i)).withRegs (g i)) :
    Rewritten g (s.modSlot i f) (s'.modSlot i f) := by
  refine ⟨fun k => ?_, fun k => ?_, ?_⟩
  · rw [slot_modSlot]
    split
    · rename_i hk
      subst hk
      rw [hregs]
      exact h.live k
    · exact h.live k
  · rw [slot_modSlot, slot_modSlot]
    split
    · rename_i hk
      subst hk
      rw [h.slot, hf]
    · exact h.slot k
  · obtain ⟨v, rfl⟩ := h.rest
    exact ⟨_, rfl⟩

theorem Rewritten.envSample (p : Params) (i : SlotIx) :
    Rewritten g (s.modSlot i (envSample p)) (s'.modSlot i (envSample p)) :=
  h.modSlot (envSample_frame p _).regs (envSample_withRegs p (h.live i))

theorem Rewritten.clearActive (i : SlotIx) : Rewritten g (clearActive s i) (clearActive s' i) := by
  have hm : Rewritten g (s.modSlot i silenced) (s'.modSlot i silenced) := h.modSlot rfl rfl
  obtain ⟨v, rfl⟩ := h.rest
  exact ⟨hm.live, hm.slot, _, rfl⟩

theorem Rewritten.coupledSlot_eq (i : SlotIx) : coupledSlot s' i = coupledSlot s i := by
  simp [coupledSlot, h.slot]

theorem Rewritten.deactivate (i : SlotIx) : Rewritten g (deactivate s i) (deactivate s' i) := by
  have hc := h.clearActive i
  simp only [Machine.deactivate, h.slot, withRegs_active, hc.coupledSlot_eq]
  split
  · exact h
  · cases coupledSlot (Machine.clearActive s i) i with
    | none => exact hc
    | some t => exact hc.clearActive t

theorem Rewritten.pairOut_eq (p : Params) (i : SlotIx) : pairOut p s' i = pairOut p s i := by
  unfold pairOut
  rw [h.slot, h.slot]
  rfl

theorem Rewritten.emitSample (p : Params) (i : SlotIx) :
    Rewritten g (emitSample p s i) (emitSample p s' i) := by
  have hm : Rewritten g (s.modSlot i fun x => { x with pairOut := pairOut p s i })
      (s'.modSlot i fun x => { x with pairOut := pairOut p s i }) := h.modSlot rfl rfl
  have hl : panL (s'.slot i).regs = panL (s.slot i).regs := by rw [h.slot]; exact panL_live (h.live i)
  have hr : panR (s'.slot i).regs = panR (s.slot i).regs := by rw [h.slot]; exact panR_live (h.live i)
  simp only [Machine.emitSample, h.pairOut_eq, hl, hr]
  obtain ⟨v, rfl⟩ := h.rest
  exact ⟨hm.live, hm.slot, _, rfl⟩

theorem Rewritten.hasActiveSlave_eq (i : SlotIx) : hasActiveSlave s' i = hasActiveSlave s i := by
  simp [hasActiveSlave, h.slot]

theorem Rewritten.attachedSlave_eq (i : SlotIx) : attachedSlave s' i = attachedSlave s i := by
  simp [attachedSlave, h.slot]

theorem Rewritten.emitWithSlave (p : Params) (i t : SlotIx) :
    Rewritten g (emitWithSlave p s i t) (emitWithSlave p s' i t) := by
  have hd := h.deactivate t
  simp only [Machine.emitWithSlave, h.slot, alive_withRegs, hd.slot, withRegs_active]
  split
  · exact (h.envSample p t).emitSample p i
  · split
    · exact hd.emitSample p i
    · exact hd

theorem Rewritten.produceSample (p : Params) (i : SlotIx) :
    Rewritten g (produceSample p s i) (produceSample p s' i) := by
  have he := h.envSample p i
  simp only [Machine.produceSample, h.slot, alive_withRegs, he.hasActiveSlave_eq]
  split
  · exact h.deactivate i
  · split
    · exact he.emitWithSlave p i (i + 1#5)
    · exact he.emitSample p i

theorem Rewritten.tickSlot (p : Params) (i : SlotIx) : Rewritten g (tickSlot p s i) (tickSlot p s' i) := by
  simp only [Machine.tickSlot, h.slot, withRegs_active, h.attachedSlave_eq]
  split
  · exact h.produceSample p i
  · exact h

theorem Rewritten.foldl_tickSlot (p : Params) (l : List SlotIx) :
    Rewritten g (l.foldl (Machine.tickSlot p) s) (l.foldl (Machine.tickSlot p) s') := by
  induction l generalizing s s' with
  | nil => exact h
  | cons i l ih => exact ih (h.tickSlot p i)

theorem Rewritten.clearFrame : Rewritten g (clearFrame s) (clearFrame s') := by
  obtain ⟨v, rfl⟩ := h.rest
  exact ⟨h.live, h.slot, _, rfl⟩

theorem Rewritten.countSample : Rewritten g (countSample s) (countSample s') := by
  obtain ⟨v, rfl⟩ := h.rest
  exact ⟨h.live, h.slot, _, rfl⟩

theorem Rewritten.tick (p : Params) : Rewritten g (tick p s) (tick p s') := by
  unfold Machine.tick passSlots
  exact (h.clearFrame.foldl_tickSlot p allSlots).countSample

end

/-- Settles O50: TICK keeps the relation of the two states. -/
theorem tickIgnoresUnlatchedParameters : Obligations.TickIgnoresUnlatchedParameters := by
  intro s t g hlive ht s' hslot hrest
  have h : Rewritten g s s' :=
    { live := fun i =>
        let ⟨hpan, hnote, hctrl, hbend⟩ := hlive i
        ⟨hpan, hnote, hctrl, hbend⟩
      slot := hslot
      rest := ⟨s'.slots, by rw [← hrest]⟩ }
  obtain rfl : tick Config.hardware s = t := by simpa using ht
  have hticked := h.tick Config.hardware
  obtain ⟨v, hv⟩ := hticked.rest
  exact ⟨_, exec_tick s', hticked.slot, by rw [hv]⟩

end Sys2Proof.Machine
end

section
/-! Rules R47, R51, R107, R280, R312: what a command writes outside its slots, by the shapes of
`ExecShape`. -/

namespace Sys2Proof.Machine

/-- The state a command leads to has one of the shapes. -/
theorem execShape_of_next {i : Instr} {s t : State} (ht : exec i s = .next t) : ExecShape i s t := by
  obtain ⟨t', ht', hshape⟩ := exec_shape i s
  obtain rfl : t' = t := Host.Outcome.next.inj (ht'.symm.trans ht)
  exact hshape

/-! ### Operations that write neither a register nor a result -/

/-- What errors, deactivations and slot changes leave alone: the parameter registers and everything outside
the slots but ERR and IRQ_PEND (rule R51). -/
structure RegistersKept (s t : State) : Prop where
  regs : ∀ k, (t.slot k).regs = (s.slot k).regs
  irqEn : t.irqEn = s.irqEn
  host : t.host = s.host
  readData : t.readData = s.readData
  result : t.result = s.result
  outL : t.outL = s.outL
  outR : t.outR = s.outR
  sampleCnt : t.sampleCnt = s.sampleCnt

theorem RegistersKept.refl (s : State) : RegistersKept s s :=
  ⟨fun _ => rfl, rfl, rfl, rfl, rfl, rfl, rfl, rfl⟩

theorem RegistersKept.trans {s t u : State} (h : RegistersKept s t) (k : RegistersKept t u) :
    RegistersKept s u :=
  ⟨fun i => (k.regs i).trans (h.regs i), k.irqEn.trans h.irqEn, k.host.trans h.host,
    k.readData.trans h.readData, k.result.trans h.result, k.outL.trans h.outL, k.outR.trans h.outR,
    k.sampleCnt.trans h.sampleCnt⟩

theorem record_registersKept (s : State) (e : ErrCode) : RegistersKept s (s.record e) :=
  ⟨fun _ => rfl, rfl, rfl, rfl, rfl, rfl, rfl, rfl⟩

theorem modSlot_registersKept {s : State} {i : SlotIx} {f : Slot → Slot}
    (h : (f (s.slot i)).regs = (s.slot i).regs) : RegistersKept s (s.modSlot i f) :=
  ⟨modSlot_slots (P := fun k x => x.regs = (s.slot k).regs) (fun _ => rfl) h,
    rfl, rfl, rfl, rfl, rfl, rfl, rfl⟩

theorem deactivate_regs (s : State) (i k : SlotIx) : ((deactivate s i).slot k).regs = (s.slot k).regs := by
  rcases deactivate_slot s i k with e | ⟨-, e⟩ <;> rw [e]
  rfl

theorem deactivate_registersKept (s : State) (i : SlotIx) : RegistersKept s (deactivate s i) :=
  have hq := deactivate_quiet s i
  have ⟨hl, hr⟩ := deactivate_out s i
  ⟨deactivate_regs s i, hq.irqEn, hq.host, hq.readData, hq.result, hl, hr, hq.sampleCnt⟩

theorem doPstart_registersKept {p : Params} {k : SlotIx} {s : State} (h : pcmRefused p (s.slot k) = false) :
    RegistersKept s (doPstart p k s) := by
  obtain ⟨u, e, hu⟩ := pstart_shape h
  rw [e]
  have hstart : RegistersKept u (u.modSlot k (startSlot p (mixTypeField (u.slot (evenSlot k)).regs) k)) :=
    modSlot_registersKept (startSlot_frame p _ k _).1
  rcases hu with ⟨-, rfl⟩ | ⟨-, rfl⟩
  · exact hstart
  · exact ((record_registersKept s .staleState).trans (deactivate_registersKept _ k)).trans hstart

/-- Settles O51, by the shape of the command's effect. -/
theorem commandsWriteOnlyTheirState : Obligations.CommandsWriteOnlyTheirState := by
  intro i s t ht
  cases execShape_of_next ht with
  | error e herr =>
    have hk := record_registersKept s e
    refine ⟨hk.regs, hk.irqEn, hk.host, hk.readData, fun _ _ _ => hk.result,
      fun _ => ⟨hk.outL, hk.outR, hk.sampleCnt⟩, fun _ _ _ => rfl, fun hwf hwinit hpstart => ?_⟩
    rcases herr with hill | ⟨k, hk⟩ | ⟨k, hk⟩
    · exact absurd hwf (by simp [hill])
    · exact absurd hk (hwinit k)
    · exact absurd hk (hpstart k)
  | oneSlot k f w hregs _ _ hw =>
    have hk := modSlot_registersKept hregs
    refine ⟨hk.regs, hk.irqEn, hk.host, hk.readData, fun hrnext hrchki hpairout => ?_,
      fun _ => ⟨hk.outL, hk.outR, hk.sampleCnt⟩, fun _ _ _ => rfl, fun _ _ _ => ⟨rfl, rfl⟩⟩
    rcases hw with hw | ⟨k, u, hi⟩ | ⟨k, u, hi⟩ | ⟨k, hi⟩
    · exact hw
    · exact absurd hi (hrnext k u)
    · exact absurd hi (hrchki k u)
    · exact absurd hi (hpairout k)
  | start k hi h =>
    have hk := doPstart_registersKept h
    exact ⟨hk.regs, hk.irqEn, hk.host, hk.readData, fun _ _ _ => hk.result,
      fun _ => ⟨hk.outL, hk.outR, hk.sampleCnt⟩, fun hpstart => absurd hi (hpstart k),
      fun _ _ hpstart => absurd hi (hpstart k)⟩
  | stop k hi =>
    have hk := deactivate_registersKept s k
    have hq := deactivate_quiet s k
    exact ⟨hk.regs, hk.irqEn, hk.host, hk.readData, fun _ _ _ => hk.result,
      fun _ => ⟨hk.outL, hk.outR, hk.sampleCnt⟩, fun _ hpstop => absurd hi (hpstop k),
      fun _ _ _ => ⟨hq.err, hq.errCode⟩⟩
  | tick hi =>
    obtain ⟨hresult, herr, hcode, hen, hhost, hdata, -⟩ := tick_frame Config.hardware s
    exact ⟨tick_regs _ s, hen, hhost, hdata, fun _ _ _ => hresult, fun hne => absurd hi hne,
      fun _ _ hne => absurd hi hne, fun _ _ _ => ⟨herr, hcode⟩⟩

/-! ### IRQ_PEND -/

/-- A change of one slot that keeps its ACTIVE keeps every slot's. -/
theorem modSlot_active {s : State} {i : SlotIx} {f : Slot → Slot}
    (h : (f (s.slot i)).active = (s.slot i).active) (k : SlotIx) :
    ((s.modSlot i f).slot k).active = (s.slot k).active :=
  modSlot_slots (P := fun k x => x.active = (s.slot k).active) (fun _ => rfl) h k

/-- A PSTART that is not refused tells the host of the slots it deactivated; of its own slot, which ends
active, it tells it if the slot was active (the stale restart, rules R271, R280). -/
theorem doPstart_pending {p : Params} {j : SlotIx} {s : State} (h : pcmRefused p (s.slot j) = false)
    (k : SlotIx) :
    (doPstart p j s).irqPend.getLsbD k.toNat =
      (s.irqPend.getLsbD k.toNat || ((s.slot k).active && !((doPstart p j s).slot k).active)) ∨
    (k = j ∧ (s.slot k).active = true ∧ (doPstart p j s).irqPend.getLsbD k.toNat = true) := by
  obtain ⟨u, e, hu⟩ := pstart_shape h
  rw [e, modSlot_irqPend]
  have told : PendingTold s u := by
    rcases hu with ⟨-, rfl⟩ | ⟨-, rfl⟩
    · exact PendingTold.refl u
    · exact (deactivate_told (s.record .staleState) j).1
  by_cases hk : k = j
  · subst hk
    rcases hu with ⟨hs, rfl⟩ | ⟨hs, rfl⟩
    · exact .inl (by simp [hs])
    · refine .inr ⟨rfl, hs, ?_⟩
      rw [told k, hs, deactivate_self_inactive]
      simp
  · rw [slot_modSlot_ne _ _ hk]
    exact .inl (told k)

/-- Settles O52, by the shape of the command's effect: `PendingTold` in every shape but PSTART. -/
theorem irqPendRecordsEveryDeactivation : Obligations.IrqPendRecordsEveryDeactivation := by
  intro i s t ht k
  cases execShape_of_next ht with
  | error e _ => exact .inl (pendingTold_of_eq (t := s.record e) rfl (fun _ => rfl) k)
  | oneSlot j f w _ hactive _ _ =>
    exact .inl (pendingTold_of_eq (s := s) (t := { s.modSlot j f with result := w }) rfl
      (modSlot_active hactive) k)
  | start j hi h =>
    rcases doPstart_pending h k with htold | ⟨rfl, hrestart⟩
    · exact .inl htold
    · exact .inr ⟨hi, hrestart⟩
  | stop j _ => exact .inl ((deactivate_told s j).1 k)
  | tick _ => exact .inl ((tick_told Config.hardware s).1 k)

/-! ### ERR -/

/-- A recorded error and its code stay (rule R312). -/
def ErrorKept (s t : State) : Prop := s.err = true → t.err = true ∧ t.errCode = s.errCode

theorem Quiet.errorKept {s t : State} (h : Quiet s t) : ErrorKept s t := fun he =>
  ⟨h.err.trans he, h.errCode⟩

theorem record_errorKept (s : State) (e : ErrCode) : ErrorKept s (s.record e) := fun he =>
  ⟨rfl, by rw [record_errCode, if_pos he]⟩

theorem ErrorKept.trans {s t u : State} (h : ErrorKept s t) (k : ErrorKept t u) : ErrorKept s u := fun he =>
  have ⟨ht, hcode⟩ := h he
  have ⟨hu, hcode'⟩ := k ht
  ⟨hu, hcode'.trans hcode⟩

theorem doPstart_errorKept {p : Params} {k : SlotIx} {s : State} (h : pcmRefused p (s.slot k) = false) :
    ErrorKept s (doPstart p k s) := by
  obtain ⟨u, e, ⟨-, rfl⟩ | ⟨-, rfl⟩⟩ := pstart_shape h <;> rw [e]
  · exact (modSlot_quiet _ k _).errorKept
  · exact (record_errorKept s .staleState).trans
      ((deactivate_quiet _ k).trans (modSlot_quiet _ k _)).errorKept

theorem exec_errorKept {i : Instr} {s t : State} (ht : exec i s = .next t) : ErrorKept s t := by
  cases execShape_of_next ht with
  | error e _ => exact record_errorKept s e
  | oneSlot k f w _ _ _ _ => exact fun he => ⟨he, rfl⟩
  | start k _ h => exact doPstart_errorKept h
  | stop k _ => exact (deactivate_quiet s k).errorKept
  | tick _ =>
    obtain ⟨-, herr, hcode, -⟩ := tick_frame Config.hardware s
    exact fun he => ⟨herr.trans he, hcode⟩

theorem runCommand_errorKept {w : Word} {s t : State} (ht : runCommand w s = .next t) : ErrorKept s t := by
  unfold runCommand at ht
  cases hd : decode w with
  | ok i =>
    rw [hd] at ht
    exact exec_errorKept ht
  | error e =>
    rw [hd] at ht
    cases ht
    exact record_errorKept s e

/-- A register write keeps a recorded error, unless it writes 1 to bit 0 of ERR (rules R46, R312). -/
theorem writeReg_errorKept (s : State) (a : HostAddr) (v : Word)
    (h : regName a = .global .err → v.getLsbD 0 = false) : ErrorKept s (writeReg s a v) := by
  unfold writeReg
  cases hn : regName a with
  | param i r => exact (modSlot_quiet s i _).errorKept
  | state i r => exact record_errorKept s .badRegisterWrite
  | reserved => exact record_errorKept s .badRegisterWrite
  | global r =>
    cases r with
    | err =>
      show ErrorKept s (if v.getLsbD 0 = true then _ else s)
      rw [h hn, if_neg Bool.false_ne_true]
      exact (Quiet.refl s).errorKept
    | cmd => exact (Quiet.refl s).errorKept
    | irqPend => exact fun he => ⟨he, rfl⟩
    | irqEn => exact fun he => ⟨he, rfl⟩
    | result => exact record_errorKept s .badRegisterWrite
    | outL => exact record_errorKept s .badRegisterWrite
    | outR => exact record_errorKept s .badRegisterWrite
    | sampleCnt => exact record_errorKept s .badRegisterWrite
    | activeMask => exact record_errorKept s .badRegisterWrite
    | id => exact record_errorKept s .badRegisterWrite

end Sys2Proof.Machine
end

section
/-! The host register space of rules R31-R50: the register at each address, and host writes of it. -/

namespace Sys2Proof.Machine

open Sys2Proof.Stated

/-! ### The register at an address -/

theorem regName_slotAddr (i : SlotIx) {k : Nat} (h : k < 64) : regName (slotAddr i k) = slotReg i k :=
  regName_slot i h

theorem slotAddr_ne_cmdAddr (i : SlotIx) {k : Nat} (h : k < 64) : slotAddr i k ≠ cmdAddr := by
  intro e
  have hnat : i.toNat * 64 + k = 2048 := (slotAddr_toNat i h).symm.trans (congrArg BitVec.toNat e)
  have := slotIx_lt i
  omega

/-- Every RW index of a slot block holds a parameter register, with the reserved bits of its rule (rules
R32-R39). -/
theorem slotReg_of_isParam (i : SlotIx) {k : Nat} (h : isParam k) :
    ∃ n, slotReg i k = .param i n ∧ paramMask n = paramBits k := by
  rcases h with h | ⟨h1, h2⟩ <;> interval_cases k <;> exact ⟨_, rfl, rfl⟩

/-- An index of a slot block that is not RW holds a state register at 0x2C-0x3E, else it is reserved (rule
R32). -/
theorem slotReg_of_not_isParam (i : SlotIx) {k : Nat} (h : ¬isParam k) :
    (0x2C ≤ k ∧ k ≤ 0x3E ∧ ∃ r, slotReg i k = .state i r) ∨ slotReg i k = .reserved := by
  by_cases hk : 0x2C ≤ k ∧ k ≤ 0x3E
  · obtain ⟨h1, h2⟩ := hk
    refine .inl ⟨h1, h2, ?_⟩
    interval_cases k <;> exact ⟨_, rfl⟩
  · right
    obtain ⟨hlow, henv⟩ := not_or.mp h
    have hramp : ¬(0x30 ≤ k ∧ k < 0x3C) := by omega
    unfold slotReg
    split
    case h_16 => rw [if_neg henv, if_neg hramp]
    all_goals omega

/-- The index of a global register (rule R45). -/
def GlobalReg.index : GlobalReg → Nat
  | .cmd => 0
  | .result => 1
  | .err => 2
  | .irqPend => 3
  | .irqEn => 4
  | .outL => 5
  | .outR => 6
  | .sampleCnt => 7
  | .activeMask => 8
  | .id => 9

theorem globalReg_index {k : Nat} {r : GlobalReg} (h : globalReg k = .global r) : k = r.index := by
  unfold globalReg at h
  split at h <;> cases h <;> rfl

theorem slotReg_ne_global (i : SlotIx) (k : Nat) (r : GlobalReg) : slotReg i k ≠ .global r := by
  unfold slotReg
  split
  case h_16 => split <;> [skip; split] <;> exact nofun
  all_goals exact nofun

/-- Every global register has one address (rules R31, R45). -/
theorem regName_global {a : HostAddr} {r : GlobalReg} (h : regName a = .global r) :
    a = BitVec.ofNat 12 (0x800 + r.index) := by
  unfold regName at h
  simp only at h
  split at h
  · exact absurd h (slotReg_ne_global _ _ r)
  · split at h
    · have hk := globalReg_index h
      apply BitVec.eq_of_toNat_eq
      rw [BitVec.toNat_ofNat, Nat.mod_eq_of_lt] <;> omega
    · exact nomatch h

/-- What a reserved index of the global block names (rule R53). -/
theorem globalReg_reserved {k : Nat} (h : 10 ≤ k) : globalReg k = .reserved := by
  unfold globalReg
  split
  case h_11 => rfl
  all_goals omega

theorem regName_of_slotBlock {a : HostAddr} (h : blockOf a < 32) :
    regName a = slotReg (BitVec.ofNat 5 (blockOf a)) (indexOf a) := if_pos h

theorem regName_of_globalBlock {a : HostAddr} (h : blockOf a = 32) : regName a = globalReg (indexOf a) := by
  unfold blockOf at h
  simp [regName, h, indexOf]

theorem regName_of_highBlock {a : HostAddr} (h : 33 ≤ blockOf a) : regName a = .reserved := by
  unfold blockOf at h
  simp only [regName]
  rw [if_neg (by omega), if_neg (by omega)]

/-! ### Parameter writes -/

theorem writeReg_slotAddr (s : State) (i : SlotIx) {k : Nat} {n : ParamReg} (hk : k < 64)
    (hn : slotReg i k = .param i n) (v : Word) :
    writeReg s (slotAddr i k) v = s.modSlot i fun x => { x with regs := writeParam x.regs n v } := by
  unfold writeReg
  rw [regName_slotAddr i hk, hn]

theorem readReg_slotAddr_param (s : State) (i : SlotIx) {k : Nat} {n : ParamReg} (hk : k < 64)
    (hn : slotReg i k = .param i n) : readReg s (slotAddr i k) = readParam (s.slot i).regs n := by
  unfold readReg
  rw [regName_slotAddr i hk, hn]

/-- A write of parameter register n of slot i shows at its own address only (rules R50, R52). -/
theorem readReg_writeParam_ne (s : State) (i : SlotIx) {k : Nat} {n : ParamReg} (hk : k < 64)
    (hn : slotReg i k = .param i n) (v : Word) {b : HostAddr} (hb : b ≠ slotAddr i k) :
    readReg (s.modSlot i fun x => { x with regs := writeParam x.regs n v }) b = readReg s b := by
  refine readReg_regs s i (writeParam · n v) b fun m hm => ?_
  obtain ⟨-, rfl⟩ := slotReg_param hk hn
  refine readParam_putParam_ne _ (fun e => hb ?_) _
  subst e
  exact regName_param hm

/-- Settles O10: the write changes the one register that `slotReg` gives for the index. -/
theorem parameterWriteReadsBackMasked : Obligations.ParameterWriteReadsBackMasked := by
  intro s rest i k v hk hhost
  obtain ⟨n, hn, hmask⟩ := slotReg_of_isParam i hk
  have hlt : k < 64 := by
    unfold isParam at hk
    omega
  refine ⟨writeParam (s.slot i).regs n v, ?_, ?_, fun b hb => ?_⟩
  · rw [step_write hhost (slotAddr_ne_cmdAddr i hlt), writeReg_slotAddr _ i hlt hn]
    rfl
  · rw [readReg_slotAddr_param _ i hlt hn, slot_modSlot_same, ← hmask]
    exact readParam_putParam_same _ n _
  · exact (readReg_writeParam_ne { s with host := rest } i hlt hn v hb).trans
      (readReg_host s rest s.readData b)

/-! ### Refused writes -/

/-- An address that names a read-only register, or none (rules R32, R45, R53). -/
def RefusesWrites (a : HostAddr) : Prop :=
  blockOf a < 32 ∧ ¬isParam (indexOf a) ∨
    blockOf a = 32 ∧ indexOf a ≠ 0 ∧ indexOf a ≠ 2 ∧ indexOf a ≠ 3 ∧ indexOf a ≠ 4 ∨ 33 ≤ blockOf a

/-- A name that a host write records error 0x06 for (rules R45, R50). -/
inductive ReadOnlyName : RegName → Prop where
  | state (i : SlotIx) (r : StateReg) : ReadOnlyName (.state i r)
  | global (r : GlobalReg) (h : r ∉ [.cmd, .err, .irqPend, .irqEn]) : ReadOnlyName (.global r)
  | reserved : ReadOnlyName .reserved

theorem regName_of_refuses {a : HostAddr} (h : RefusesWrites a) : ReadOnlyName (regName a) := by
  rcases h with ⟨hb, hk⟩ | ⟨hb, h0, h2, h3, h4⟩ | hb
  · rw [regName_of_slotBlock hb]
    rcases slotReg_of_not_isParam _ hk with ⟨-, -, r, e⟩ | e <;> rw [e]
    · exact .state _ r
    · exact .reserved
  · rw [regName_of_globalBlock hb]
    cases hg : globalReg (indexOf a) with
    | global r =>
      have hr := globalReg_index hg
      refine .global r fun hmem => ?_
      simp only [List.mem_cons, List.not_mem_nil, or_false] at hmem
      rcases hmem with rfl | rfl | rfl | rfl
      · exact h0 hr
      · exact h2 hr
      · exact h3 hr
      · exact h4 hr
    | reserved => exact .reserved
    | param i n => exact absurd hg (by unfold globalReg; split <;> exact nofun)
    | state i r => exact absurd hg (by unfold globalReg; split <;> exact nofun)
  · rw [regName_of_highBlock hb]
    exact .reserved

theorem writeReg_of_refuses {a : HostAddr} (h : RefusesWrites a) (s : State) (v : Word) :
    writeReg s a v = s.record .badRegisterWrite := by
  have hname := regName_of_refuses h
  unfold writeReg
  generalize regName a = name at hname
  cases hname with
  | state i r => rfl
  | reserved => rfl
  | global r hr =>
    cases r
    case cmd | err | irqPend | irqEn => simp at hr
    all_goals rfl

theorem refuses_ne_cmdAddr {a : HostAddr} (h : RefusesWrites a) : a ≠ cmdAddr := by
  rintro rfl
  rcases h with ⟨hb, -⟩ | ⟨-, hk, -⟩ | hb
  · exact absurd hb (by decide)
  · exact hk rfl
  · exact absurd hb (by decide)

/-- The addresses that rules R32, R45 and R53 leave without a register. -/
theorem regName_reserved {a : HostAddr} (h : RefusesWrites a)
    (hres : 33 ≤ blockOf a ∨ blockOf a = 32 ∧ 10 ≤ indexOf a ∨
      blockOf a < 32 ∧ (indexOf a < 0x10 ∨ 0x28 ≤ indexOf a ∧ indexOf a < 0x2C ∨ indexOf a = 0x3F)) :
    regName a = .reserved := by
  rcases hres with hb | ⟨hb, hk⟩ | ⟨hb, hk⟩
  · exact regName_of_highBlock hb
  · rw [regName_of_globalBlock hb, globalReg_reserved hk]
  · have hnot : ¬isParam (indexOf a) := by
      rcases h with ⟨-, hn⟩ | ⟨hb', -⟩ | hb'
      · exact hn
      · omega
      · omega
    rw [regName_of_slotBlock hb]
    rcases slotReg_of_not_isParam _ hnot with ⟨h1, h2, -⟩ | e
    · omega
    · exact e

/-- Settles O11, by the name of the address. -/
theorem readOnlyAndReservedAddressesRefuseWrites : Obligations.ReadOnlyAndReservedAddressesRefuseWrites := by
  intro s rest a v h hhost
  refine ⟨?_, fun hres => ?_⟩
  · rw [step_write hhost (refuses_ne_cmdAddr h), writeReg_of_refuses h]
    rfl
  · unfold readReg
    rw [regName_reserved h hres]

/-! ### Writes of ERR, IRQ_PEND and IRQ_EN -/

theorem clearWritten_bit (old written : Word) (k : Nat) :
    (clearWritten old written).getLsbD k = (old.getLsbD k && !written.getLsbD k) := by
  rw [clearWritten, BitVec.getLsbD_and, BitVec.getLsbD_not]
  by_cases hk : k < 32
  · simp [hk]
  · simp [BitVec.getLsbD_of_ge old k (by omega)]

theorem writeGlobal_err (s : State) (v : Word) :
    writeGlobal s .err v =
      { s with err := s.err && !v.getLsbD 0, errCode := if v.getLsbD 0 then 0#8 else s.errCode } := by
  show (if v.getLsbD 0 then _ else _) = _
  cases v.getLsbD 0 <;> simp

/-- Settles O12, one equation of `writeGlobal` for each register. -/
theorem errIrqPendAndIrqEnWrites : Obligations.ErrIrqPendAndIrqEnWrites := by
  intro s rest v
  refine ⟨fun hhost => ?_, fun hhost => ⟨clearWritten s.irqPend v, ?_, clearWritten_bit _ v⟩, fun hhost => ?_⟩
  · rw [step_write hhost (by decide)]
    exact congrArg _ (writeGlobal_err { s with host := rest } v)
  · rw [step_write hhost (by decide)]
    rfl
  · rw [step_write hhost (by decide)]
    rfl

/-- Settles O54, by the step's access. -/
theorem errorStaysUntilTheHostClearsIt : Obligations.ErrorStaysUntilTheHostClearsIt := by
  intro s t ht herr
  cases hhost : s.host with
  | nil =>
    rw [step_idle hhost] at ht
    cases ht
    exact .inl ⟨herr, rfl⟩
  | cons access rest =>
    cases access with
    | read a =>
      rw [step_read hhost] at ht
      cases ht
      exact .inl ⟨herr, rfl⟩
    | write a v =>
      by_cases hcmd : a = cmdAddr
      · subst hcmd
        rw [step_command hhost] at ht
        exact .inl (runCommand_errorKept (s := { s with host := rest }) ht herr)
      · rw [step_write hhost hcmd] at ht
        cases ht
        by_cases hclear : regName a = .global .err ∧ v.getLsbD 0 = true
        · obtain ⟨hname, hv⟩ := hclear
          obtain rfl := regName_global hname
          exact .inr ⟨v, rest, rfl, hv⟩
        · refine .inl (writeReg_errorKept { s with host := rest } a v (fun hname => ?_) herr)
          exact Bool.eq_false_iff.mpr fun hv => hclear ⟨hname, hv⟩

/-! ### Reads of the global registers -/

theorem errWord_toNat (s : State) : (errWord s).toNat = s.errCode.toNat * 2 ^ 8 + s.err.toNat := by
  simp only [errWord, toNat_concat, BitVec.toNat_ofNat, BitVec.toNat_ofBool]
  omega

/-- Settles O14: each address's register, and `activeMask_bit` for ACTIVE_MASK. -/
theorem globalRegistersRead : Obligations.GlobalRegistersRead := fun s =>
  ⟨rfl, rfl, errWord_toNat s, rfl, rfl, rfl, rfl, rfl, activeMask_bit s, rfl⟩

/-- Settles O13: a word is not 0 when one of its 32 bits is 1. -/
theorem interruptLineIsPendingAndEnabled : Obligations.InterruptLineIsPendingAndEnabled := by
  intro s
  simp only [irqLine, bne_iff_ne]
  constructor
  · intro hne
    by_contra hnone
    refine hne (BitVec.eq_of_getLsbD_eq fun k hk => ?_)
    have hbit := fun h => hnone ⟨BitVec.ofNat 5 k, h⟩
    simpa [Nat.mod_eq_of_lt hk] using hbit
  · rintro ⟨k, hpend, hen⟩ hzero
    have hbit : (s.irqPend &&& s.irqEn).getLsbD k.toNat = true := by rw [BitVec.getLsbD_and, hpend, hen]; rfl
    rw [hzero] at hbit
    simp at hbit

/-! ### Reads of a slot's state registers -/

theorem readReg_slotAddr_state (s : State) (i : SlotIx) {k : Nat} {r : StateReg} (hk : k < 64)
    (hr : slotReg i k = .state i r) : readReg s (slotAddr i k) = readState (s.slot i) r := by
  unfold readReg
  rw [regName_slotAddr i hk, hr]

theorem logSampleWord_toNat (v : LogSample) :
    (logSampleWord v).toNat = v.logValue.toNat + 2 ^ 16 * v.sign.toNat := by
  simp only [logSampleWord, toNat_concat, BitVec.toNat_ofNat, BitVec.toNat_ofBool]
  omega

/-- The number of RSTATE (rule R40). -/
def rstateNo : RampState → Nat
  | .idle => 0
  | .moving => 1
  | .counting => 2
  | .done => 3

theorem rstateCode_toNat (r : RampState) : (rstateCode r).toNat = rstateNo r := by cases r <;> rfl

theorem rampStat_toNat (r : Ramp) :
    (rampStat r).toNat = rstateNo r.rstate + 4 * r.desc.toNat + 8 * r.irq.toNat + 2 ^ 8 * r.cnt.toNat := by
  simp only [rampStat, toNat_concat, BitVec.toNat_ofNat, BitVec.toNat_ofBool, rstateCode_toNat]
  omega

theorem phaseCode_toNat (ph : Phase) : (phaseCode ph).toNat = phaseNo ph := by cases ph <;> rfl

theorem envStat_toNat (x : Slot) :
    (envStat x).toNat = phaseNo x.phase.tva + 2 ^ 4 * phaseNo x.phase.tvp + 2 ^ 8 * phaseNo x.phase.tvf +
      2 ^ 16 * x.baseCutoff.toNat := by
  simp only [envStat, toNat_concat, BitVec.toNat_ofNat, phaseCode_toNat]
  omega

theorem slotStat_toNat (x : Slot) :
    (slotStat x).toNat =
      x.active.toNat + 2 * x.wave.active.toNat + 4 * x.wave.pcm.toNat +
        2 ^ 4 * (match x.role with | .independent => 0 | .ringMaster => 1 | .ringSlave => 2) +
        2 ^ 6 * (match x.mix with
          | .independent => 0 | .ringAndMix => 1 | .ringOnly => 2 | .splitStereo => 3) := by
  simp only [slotStat, toNat_concat, BitVec.toNat_ofNat, BitVec.toNat_ofBool]
  cases x.role <;> cases x.mix <;> simp [roleCode, mixCode] <;> omega

/-- The four registers of ramp c, when they start at index k (rule R40). -/
theorem readReg_ramp (s : State) (i : SlotIx) (c : Ctl) {k : Nat} (hk : k + 3 < 64)
    (hcur : slotReg i k = .state i (.rampCur c)) (htgt : slotReg i (k + 1) = .state i (.rampTgt c))
    (hinc : slotReg i (k + 2) = .state i (.rampInc c)) (hstat : slotReg i (k + 3) = .state i (.rampStat c)) :
    (readReg s (slotAddr i k)).toNat = ((s.slot i).ramp.get c).cur.toNat ∧
      (readReg s (slotAddr i (k + 1))).toNat = ((s.slot i).ramp.get c).tgt.toNat ∧
      readReg s (slotAddr i (k + 2)) = ((s.slot i).ramp.get c).inc ∧
      (readReg s (slotAddr i (k + 3))).toNat =
        rstateNo ((s.slot i).ramp.get c).rstate + 4 * ((s.slot i).ramp.get c).desc.toNat +
          8 * ((s.slot i).ramp.get c).irq.toNat + 2 ^ 8 * ((s.slot i).ramp.get c).cnt.toNat := by
  rw [readReg_slotAddr_state s i (by omega) hcur, readReg_slotAddr_state s i (by omega) htgt,
    readReg_slotAddr_state s i (by omega) hinc, readReg_slotAddr_state s i hk hstat]
  exact ⟨BitVec.toNat_setWidth_of_le (by decide), BitVec.toNat_setWidth_of_le (by decide), rfl,
    rampStat_toNat _⟩

/-- Settles O15, register by register. -/
theorem slotStateRegistersRead : Obligations.SlotStateRegistersRead := by
  intro s i
  have read (k : Nat) (r : StateReg) (hk : k < 64) (hr : slotReg i k = .state i r) :
      readReg s (slotAddr i k) = readState (s.slot i) r := readReg_slotAddr_state s i hk hr
  refine ⟨fun c => ?_, ?_, ?_, ?_, ?_, ?_, ?_, ?_⟩
  · cases c with
    | tva => exact readReg_ramp s i .tva (k := 0x30) (by decide) rfl rfl rfl rfl
    | tvp => exact readReg_ramp s i .tvp (k := 0x34) (by decide) rfl rfl rfl rfl
    | tvf => exact readReg_ramp s i .tvf (k := 0x38) (by decide) rfl rfl rfl rfl
  · rw [read 0x3C .envStat (by decide) rfl]
    exact envStat_toNat _
  · rw [read 0x3D .slotStat (by decide) rfl]
    exact slotStat_toNat _
  · exact read 0x3E .wgPos (by decide) rfl
  · rw [read 0x2D .wgOut1 (by decide) rfl]
    exact logSampleWord_toNat _
  · rw [read 0x2E .wgOut2 (by decide) rfl]
    exact logSampleWord_toNat _
  · rw [read 0x2C .pairOut (by decide) rfl]
    exact BitVec.toInt_signExtend_of_le (by decide)
  · rw [read 0x2F .pitchOut (by decide) rfl]
    exact BitVec.toNat_setWidth_of_le (by decide)

end Sys2Proof.Machine
end

section
/-! The step on a command word and on a host read: what each does to the whole state. -/

namespace Sys2Proof.Machine

/-- Rule R105: a word that decodes runs as its command. -/
theorem runCommand_decoded {w : Word} {i : Instr} (h : decode w = .ok i) (s : State) :
    runCommand w s = exec i s := by
  unfold runCommand
  rw [h]

/-- Settles O5: the access at the front of the queue is a command, and its word decodes. -/
theorem stepRunsTheDecodedCommand : Obligations.StepRunsTheDecodedCommand := by
  intro s rest w i hdecode hhost
  calc step s = runCommand w { s with host := rest } := step_command hhost
    _ = exec i { s with host := rest } := runCommand_decoded hdecode _

/-- Settles O8: a read changes only the queue and the read data, and no register shows either. -/
theorem hostReadHasNoSideEffect : Obligations.HostReadHasNoSideEffect := by
  intro s rest a hhost
  have hdata : readReg { s with host := rest } a = readReg s a := readReg_host s rest s.readData a
  have hstep := step_read hhost
  rw [hdata] at hstep
  exact ⟨_, hstep, rfl, readReg_host s rest (readReg s a)⟩

end Sys2Proof.Machine
end

section
/-! The decoder of rules R101-R106: the outcomes of its three checks said once, the row of every command,
and that decoding and encoding are inverse to each other. -/

namespace Sys2Proof

open Sys2Proof.Stated Sys2Proof.Laws.OpcodeField

/-! ### The checks of the decoder -/

/-- The command that a row makes of the fields of a word. -/
def OpRow.command (row : OpRow) (w : Word) : Instr :=
  row.build (slotField w) (unitField w) (aField w) (bField w)

/-- What decoding w can answer, with the check of rule R105 that decides it. -/
inductive DecodeCase (w : Word) : Except ErrCode Instr → Prop where
  /-- The opcode is reserved. -/
  | reservedOpcode (hrow : opRow (opcField w) = none) : DecodeCase w (.error .reservedOpcode)
  /-- A bit outside the row's fields is 1. -/
  | reservedField {row : OpRow} (hrow : opRow (opcField w) = some row)
      (hmask : w &&& row.fields.mask ≠ opcField w ++ 0#24) : DecodeCase w (.error .reservedField)
  /-- The row reads UNIT, which is 3. -/
  | illegalUnit {row : OpRow} (hrow : opRow (opcField w) = some row)
      (hmask : w &&& row.fields.mask = opcField w ++ 0#24) (hread : row.fields.readsUnit = true)
      (hunit : ¬unitOk (unitField w) = true) : DecodeCase w (.error .illegalUnit)
  /-- Every check passes. -/
  | command {row : OpRow} (hrow : opRow (opcField w) = some row)
      (hmask : w &&& row.fields.mask = opcField w ++ 0#24)
      (hunit : row.fields.readsUnit = true → unitOk (unitField w) = true) :
      DecodeCase w (.ok (row.command w))

theorem decode_case (w : Word) : DecodeCase w (decode w) := by
  unfold decode
  cases hrow : opRow (opcField w) with
  | none => exact .reservedOpcode hrow
  | some row =>
    dsimp only
    split_ifs with hmask hunit
    · exact .reservedField hrow hmask
    · obtain ⟨hread, hthree⟩ : row.fields.readsUnit = true ∧ ¬unitOk (unitField w) = true := by
        simpa using hunit
      exact .illegalUnit hrow (not_not.mp hmask) hread hthree
    · exact .command hrow (not_not.mp hmask) (by simpa using hunit)

/-- A word that passes the three checks decodes to its row's command. -/
theorem decode_eq_ok {w : Word} {row : OpRow} (hrow : opRow (opcField w) = some row)
    (hmask : w &&& row.fields.mask = opcField w ++ 0#24)
    (hunit : row.fields.readsUnit = true → unitOk (unitField w) = true) :
    decode w = .ok (row.command w) := by
  unfold decode
  rw [hrow]
  dsimp only
  rw [if_neg (not_not.mpr hmask), if_neg (by simpa using hunit)]
  rfl

/-! ### The command of a row -/

/-- The word and the well-formedness of the command that a row makes: the fields that the row does not
read are 0 in the word, and a unit that it reads decides (rules R103, R104). -/
theorem opRow_command {o : Byte} {row : OpRow} (h : opRow o = some row) (w : Word) :
    encode (row.command w) =
        enc o (row.fields.slotOf w) (row.fields.unitOf w) (row.fields.aOf w) (row.fields.bOf w) ∧
      (row.command w).wf = (!row.fields.readsUnit || unitOk (unitField w)) := by
  rcases opRow_cases o with hnone | rfl | rfl | rfl | rfl | rfl | rfl | rfl | rfl | rfl | rfl | rfl | rfl |
    rfl | rfl | rfl | rfl | rfl | rfl
  · rw [hnone] at h
    cases h
  all_goals
    cases h
    exact ⟨rfl, rfl⟩

/-- Rule R105: a row's command is well formed when the row's check of UNIT passes. -/
theorem command_wf_iff {w : Word} {row : OpRow} (hrow : opRow (opcField w) = some row) :
    (row.command w).wf = true ↔ (row.fields.readsUnit = true → unitOk (unitField w) = true) := by
  rw [(opRow_command hrow w).2]
  cases row.fields.readsUnit <;> simp

/-! ### A command is read back from its word -/

/-- The laws of `OpcodeField`, for every command. -/
theorem encode_opcodeField (i : Instr) : Statement i := by
  cases i with
  | nop => exact nop
  | rstart s u a b => exact rstart s u a b
  | rnext s u => exact rnext s u
  | rchki s u => exact rchki s u
  | rreset s u => exact rreset s u
  | winit s => exact winit s
  | wgen s => exact wgen s
  | wdeact s => exact wdeact s
  | pairout s => exact pairout s
  | estart s u => exact estart s u
  | edecay s u => exact edecay s u
  | eabort s => exact eabort s
  | eintr s u => exact eintr s u
  | pstart s => exact pstart s
  | pstop s => exact pstop s
  | pdecay s => exact pdecay s
  | pabort s => exact pabort s
  | tick => exact tick

/-- Rule R103: the opcode of a command has that command's row, which builds the command again from its
word. -/
theorem opRow_rowOf (i : Instr) :
    ∃ row, opRow (rowOf i).1 = some row ∧ row.fields = (rowOf i).2 ∧ row.command (encode i) = i := by
  cases i <;> exact ⟨_, rfl, rfl, by simp [OpRow.command, encode]⟩

/-- Settles O1: the command word passes the three checks of the command's own row. -/
theorem decodeReadsBackEveryEncodedCommand : Obligations.DecodeReadsBackEveryEncodedCommand := by
  intro i hwf
  obtain ⟨hopc, hmask⟩ := encode_opcodeField i
  obtain ⟨row, hrow, hfields, hcommand⟩ := opRow_rowOf i
  rw [← hopc] at hrow hmask
  rw [← hfields] at hmask
  rw [← hcommand] at hwf
  have hdecode := decode_eq_ok hrow hmask ((command_wf_iff hrow).mp hwf)
  rwa [hcommand] at hdecode

/-! ### A word that decodes is its command's word -/

/-- Rule R104: a word that passes its row's mask check is the word of the row's command. -/
theorem encode_command {w : Word} {row : OpRow} (hrow : opRow (opcField w) = some row)
    (hmask : w &&& row.fields.mask = opcField w ++ 0#24) : encode (row.command w) = w :=
  (opRow_command hrow w).1.trans (enc_of_mask hmask)

/-- Settles O2: of the outcomes of the checks, only the last answers a command. -/
theorem decodedWordIsItsCommandsWord : Obligations.DecodedWordIsItsCommandsWord := by
  intro w i hdecode
  have hcase := decode_case w
  rw [hdecode] at hcase
  cases hcase with
  | command hrow hmask hunit =>
    exact ⟨(command_wf_iff hrow).mpr hunit, encode_command hrow hmask⟩

/-! ### The checks in the words of the spec's table -/

theorem opcField_toNat (w : Word) : (opcField w).toNat = w.toNat / 2 ^ 24 := by
  have hlt := w.isLt
  simp only [opcField, BitVec.extractLsb'_toNat, Nat.shiftRight_eq_div_pow]
  omega

theorem unitField_toNat (w : Word) : (unitField w).toNat = w.toNat / 2 ^ 17 % 4 := by
  simp [unitField, BitVec.extractLsb'_toNat, Nat.shiftRight_eq_div_pow]

/-- The match value of an opcode: the opcode in bits 31:24 (rule R103). -/
theorem ofNat_opcode (o : Byte) : BitVec.ofNat 32 (o.toNat * 2 ^ 24) = o ++ 0#24 := by
  apply BitVec.eq_of_toNat_eq
  have hlt := o.isLt
  rw [BitVec.toNat_ofNat, Machine.toNat_concat, BitVec.toNat_ofNat]
  omega

/-- The opcode map is the table of rule R103, reserved opcodes included. -/
theorem lookup_opcodeMasks (o : Byte) :
    opcodeMasks.lookup o.toNat = (opRow o).map fun row => row.fields.mask.toNat := by
  revert o
  decide

/-- The rows that read UNIT are those of the opcodes that the table lists. -/
theorem mem_unitOpcodes {o : Byte} {row : OpRow} (h : opRow o = some row) :
    o.toNat ∈ unitOpcodes ↔ row.fields.readsUnit = true := by
  have htable : ∀ o : Byte, o.toNat ∈ unitOpcodes ↔ ((opRow o).any fun row => row.fields.readsUnit) = true := by
    decide
  rw [htable, h, Option.any_some]

theorem unitOk_iff (u : BitVec 2) : unitOk u = true ↔ u.toNat ≠ 3 := by
  revert u
  decide

/-- Settles O3, by the check that decides. -/
theorem decoderChecksOpcodeThenFieldsThenUnit : Obligations.DecoderChecksOpcodeThenFieldsThenUnit := by
  intro w
  have hcase := decode_case w
  rw [← opcField_toNat, ← unitField_toNat, lookup_opcodeMasks, ofNat_opcode]
  generalize decode w = answer at hcase
  cases hcase with
  | reservedOpcode hrow =>
    rw [hrow]
    rfl
  | reservedField hrow hmask =>
    rw [hrow]
    simp [hmask]
  | illegalUnit hrow hmask hread hunit =>
    have hthree : (unitField w).toNat = 3 := by rwa [unitOk_iff, not_not] at hunit
    rw [hrow]
    simp [hmask, mem_unitOpcodes hrow, hread, hthree]
  | @command row hrow hmask hunit =>
    have hlegal : ¬(row.fields.readsUnit = true ∧ (unitField w).toNat = 3) := fun ⟨hread, hthree⟩ =>
      (unitOk_iff _).mp (hunit hread) hthree
    rw [hrow]
    simp [hmask, mem_unitOpcodes hrow, encode_command hrow hmask, hlegal]

/-- Settles O4: the decoder run on every word of the list. -/
theorem sampleWordsDecodeAsTheSpecLists : Obligations.SampleWordsDecodeAsTheSpecLists := by
  refine ⟨?_, ?_, ?_, ?_⟩ <;> decide

end Sys2Proof
end

section
/-! Rules R105, R311: a command word that does not decode, and a command term with UNIT = 3, record their
error and have no other effect. -/

namespace Sys2Proof.Machine

open Sys2Proof.Stated

theorem logError_eq_errored (s : State) (e : ErrCode) : s.logError e = errored s (codeOf e) := by
  cases e <;> rfl

/-- Settles O6: the decoder's error is one of its three checks', and the step only logs it. -/
theorem erroneousCommandChangesOnlyErr : Obligations.ErroneousCommandChangesOnlyErr := by
  intro s rest w e hhost hdecode
  constructor
  · rw [← logError_eq_errored]
    calc step s = runCommand w { s with host := rest } := step_command hhost
      _ = .next (State.logError { s with host := rest } e) := by rw [runCommand, hdecode]
  · have hcase := decode_case w
    rw [hdecode] at hcase
    cases hcase <;> simp

theorem withUnit_three (s : State) (f : Ctl → State) : withUnit 3 s f = errored s 0x03#8 := rfl

/-- Settles O21: UNIT = 3 names no controller, so no command that reads UNIT comes to its effect. -/
theorem unitThreeRecordsIllegalUnit : Obligations.UnitThreeRecordsIllegalUnit := by
  intro s i tgt code
  simp only [exec_rstart, exec_rnext, exec_rchki, exec_rreset, exec_estart, exec_edecay, exec_eintr,
    withUnit_three, and_self]

end Sys2Proof.Machine
end

section
/-! The Ramp Generator of rules R130-R143: the model's arithmetic against the spec's formulas, the four ramp
commands, and the life of a started ramp. -/

namespace Sys2Proof.Machine

open Sys2Proof.Stated

/-! ### The spec's formulas -/

theorem maxCur_eq : maxCur = maxCurrent := rfl

theorem bigTarget_eq (tgt : Byte) : bigTarget tgt = largeTarget tgt := rfl

theorem getLsbD_seven (code : Byte) : code.getLsbD 7 = code.msb := (BitVec.msb_eq_getLsbD_last code).symm

/-- Rule R131: the magnitude is the code's low 7 bits. -/
theorem magnitude_eq (code : Byte) : BitVec.ofNat 7 code.toNat = code.extractLsb' 0 7 := by
  apply BitVec.eq_of_toNat_eq
  simp [BitVec.extractLsb'_toNat]

theorem increment_eq (p : Params) (code : Byte) : increment p code = codeInc p code := by
  rw [increment, codeInc, magnitude_eq, getLsbD_seven]

theorem started_eq (p : Params) (r : Ramp) (tgt code : Byte) : started p r tgt code = startRamp p r tgt code := by
  rw [started, increment_eq, getLsbD_seven]
  rfl

/-- The countdown ends at CNT = 1 (rule R137). -/
theorem cnt_pred_eq_zero (cnt : Byte) : cnt - 1#8 = 0#8 ↔ cnt.toNat = 1 := by
  rw [BitVec.sub_eq_iff_eq_add, ← BitVec.toNat_inj]
  rfl

/-- Rule R135: the model's step of a moving ramp, on natural numbers, is the spec's on integers. -/
theorem stepped_moving {r : Ramp} (h : r.rstate = .moving) : stepped r = moveRamp r := by
  have hreach : BitVec.ofInt 26 (bigTarget r.tgt : Int) = BitVec.ofNat 26 (largeTarget r.tgt) :=
    BitVec.ofInt_natCast _ _
  simp only [stepped, h, moveRamp, hreach]
  by_cases hd : r.desc = true
  · have htest : (r.inc.toNat : Int) > r.cur.toNat ∨ (r.cur.toNat : Int) - r.inc.toNat ≤ bigTarget r.tgt ↔
        r.inc.toNat > r.cur.toNat ∨ r.cur.toNat - r.inc.toNat ≤ largeTarget r.tgt := by
      rw [bigTarget_eq]
      omega
    rw [if_pos hd, if_pos hd]
    simp only [htest]
    split
    · rfl
    · rw [← BitVec.ofInt_natCast, Int.natCast_sub (by omega)]
  · have htest : (maxCur : Int) - r.cur.toNat < r.inc.toNat ∨
          (r.cur.toNat : Int) + r.inc.toNat ≥ bigTarget r.tgt ↔
        maxCurrent < r.cur.toNat + r.inc.toNat ∨ r.cur.toNat + r.inc.toNat ≥ largeTarget r.tgt := by
      rw [bigTarget_eq, maxCur_eq]
      omega
    rw [if_neg hd, if_neg hd]
    simp only [htest]
    split
    · rfl
    · rw [← BitVec.ofInt_natCast, Int.natCast_add]

/-- Rule R135: the model's step is the spec's. -/
theorem stepped_eq (r : Ramp) : stepped r = rampStep r := by
  cases h : r.rstate with
  | idle => rw [rampStep_idle h, stepped, h]
  | done => rw [rampStep_done h, stepped, h]
  | counting => simp only [stepped, rampStep, h, countRamp, cnt_pred_eq_zero]
  | moving => rw [stepped_moving h, rampStep, h]

/-! ### The commands -/

/-- Rule R101: a command that reads UNIT acts on the ramp or controller that UNIT names. -/
theorem withUnit_named {u : BitVec 2} {c : Ctl} (h : unitNames u c) (s : State) (f : Ctl → State) :
    withUnit u s f = f c := by
  rcases h with ⟨rfl, rfl⟩ | ⟨rfl, rfl⟩ | ⟨rfl, rfl⟩ <;> rfl

/-- Settles O17: the named ramp is started, and `startRamp` is rule R133's start. -/
theorem rstartStartsItsRampAndNothingElse : Obligations.RstartStartsItsRampAndNothingElse := by
  intro s i u c tgt code hu
  rw [exec_rstart, withUnit_named hu]
  simp only [started_eq]
  rfl

/-- Settles O18: the named ramp is stepped, and `rampStep` is rule R135's step. -/
theorem rnextStepsItsRampAndReturnsItsValue : Obligations.RnextStepsItsRampAndReturnsItsValue := by
  intro s i u c hu r
  refine ⟨r.cur.zeroExtend 32, BitVec.toNat_setWidth_of_le (by decide), ?_⟩
  rw [exec_rnext, withUnit_named hu, doRnext, ← stepped_eq]
  rfl

theorem zeroExtend_ofBool (b : Bool) : (BitVec.ofBool b).zeroExtend 32 = if b then 1#32 else 0#32 := by
  cases b <;> rfl

/-- Settles O19: the flag of the named ramp is returned, and `clearIrq` clears it alone. -/
theorem rchkiReturnsAndClearsTheFlag : Obligations.RchkiReturnsAndClearsTheFlag := by
  intro s i u c hu
  rw [exec_rchki, withUnit_named hu, doRchki, zeroExtend_ofBool]
  rfl

/-- Settles O20: the named ramp becomes `resetRamp`, which is rule R141's. -/
theorem rresetZeroesItsRamp : Obligations.RresetZeroesItsRamp := by
  intro s i u c hu
  rw [exec_rreset, withUnit_named hu]
  rfl

/-! ### One step of a moving ramp -/

/-- Settles O22, by the two outcomes of a moving ramp's step. -/
theorem movingRampNeverPassesItsTarget : Obligations.MovingRampNeverPassesItsTarget := by
  intro r hmoving hcur q
  have hq : q = moveRamp r := by simp only [q, rampStep, hmoving]
  have htgt := largeTarget_le r.tgt
  rw [maxCur_eq] at hcur ⊢
  rw [hq, bigTarget_eq]
  rcases moveRamp_cases r hcur with e | ⟨hd, hfar, v, hv, e⟩ | ⟨hd, hfar, v, hv, e⟩ <;> rw [e]
  · rw [reachTarget_cur]
    exact ⟨htgt, .inl ⟨rfl, rfl, rfl⟩⟩
  · refine ⟨?_, .inr ⟨hmoving, .inl ⟨hd, ?_, ?_⟩⟩⟩ <;> simp only [hv] <;> omega
  · refine ⟨?_, .inr ⟨hmoving, .inr ⟨hd, ?_, hv⟩⟩⟩ <;> simp only [hv] <;> omega

/-! ### Ramps at rest -/

/-- Rule R138: an idle ramp is a fixed point. -/
theorem iterate_rampStep_idle {r : Ramp} (h : r.rstate = .idle) (n : Nat) : rampStep^[n] r = r :=
  Function.iterate_fixed (rampStep_idle h) n

/-- Rule R137: a ramp that is done is a fixed point. -/
theorem iterate_rampStep_done {r : Ramp} (h : r.rstate = .done) (n : Nat) : rampStep^[n] r = r :=
  Function.iterate_fixed (rampStep_done h) n

theorem startRamp_freeze (p : Params) (r : Ramp) (tgt : Byte) : (startRamp p r tgt 0#8).rstate = .idle := rfl

/-- Settles O23: no step changes an idle ramp. -/
theorem idleRampIsFrozenForever : Obligations.IdleRampIsFrozenForever :=
  ⟨fun _ n h => iterate_rampStep_idle h n, fun p r tgt => ⟨startRamp_freeze p r tgt, rfl, rfl⟩, rfl⟩

/-! ### The life of a ramp

The steps that a ramp still has to make before it is DONE fall by 1 with every step, and they tell its
RSTATE: 8 or more while it moves, 7 to 1 while it counts. -/

/-- How far the value still has to go in the ramp's direction. -/
def Ramp.distance (r : Ramp) : Nat :=
  if r.desc then r.cur.toNat - largeTarget r.tgt else largeTarget r.tgt - r.cur.toNat

/-- Rule R139's k for the ramp as it stands. -/
def Ramp.stepsLeft (r : Ramp) : Nat :=
  stepsToTarget r.cur.toNat (largeTarget r.tgt) r.inc.toNat r.desc

/-- Rule R139's table by the distance: its last row is the distance 0. -/
theorem stepsLeft_eq {r : Ramp} (hinc : 0 < r.inc.toNat) :
    r.stepsLeft = (r.distance - 1) / r.inc.toNat + 1 := by
  have htable : r.stepsLeft = if 0 < r.distance then (r.distance + r.inc.toNat - 1) / r.inc.toNat else 1 := by
    unfold Ramp.stepsLeft Ramp.distance stepsToTarget
    cases r.desc <;> simp
  rw [htable]
  split
  · rw [← Nat.add_div_right _ hinc, Nat.sub_add_comm (by omega)]
  · rw [show r.distance - 1 = 0 by omega, Nat.zero_div]

/-- Rule R139: a ramp within one increment of its target, or past it, reaches it in one step. -/
theorem stepsLeft_near {r : Ramp} (hinc : 0 < r.inc.toNat) (h : r.distance ≤ r.inc.toNat) : r.stepsLeft = 1 := by
  rw [stepsLeft_eq hinc, Nat.div_eq_of_lt (by omega)]

/-- Rule R139: a step of one increment is one step fewer to make. -/
theorem stepsLeft_far {r q : Ramp} (hinc : 0 < r.inc.toNat) (hq : q.inc = r.inc)
    (h : r.inc.toNat < r.distance) (hd : q.distance = r.distance - r.inc.toNat) :
    r.stepsLeft = q.stepsLeft + 1 := by
  rw [stepsLeft_eq hinc, stepsLeft_eq (hq ▸ hinc), hq, hd, Nat.div_eq_sub_div hinc (by omega), Nat.sub_right_comm]

/-- Rule R143: every increment is at least 1, so the steps to the target are at most MAX_CURRENT. -/
theorem stepsLeft_le {r : Ramp} (hinc : 0 < r.inc.toNat) (hcur : r.cur.toNat ≤ maxCurrent) :
    r.stepsLeft ≤ maxCurrent := by
  have hdist : r.distance ≤ maxCurrent := by
    have := largeTarget_le r.tgt
    unfold Ramp.distance
    split <;> omega
  have hdiv := Nat.div_le_self (r.distance - 1) r.inc.toNat
  have hmax : 1 ≤ maxCurrent := by decide
  rw [stepsLeft_eq hinc]
  omega

/-- Rule R135 by the distance: a step ends at the target, or goes one increment nearer. -/
theorem moveRamp_distance {r : Ramp} (hcur : r.cur.toNat ≤ maxCurrent) :
    r.distance ≤ r.inc.toNat ∧ moveRamp r = reachTarget r ∨
    r.inc.toNat < r.distance ∧ ∃ v : BitVec 26, moveRamp r = { r with cur := v } ∧
      Ramp.distance { r with cur := v } = r.distance - r.inc.toNat := by
  have htgt := largeTarget_le r.tgt
  simp only [moveRamp, Ramp.distance]
  by_cases hd : r.desc = true
  · rw [if_pos hd, if_pos hd]
    split
    · exact .inl ⟨by omega, rfl⟩
    · refine .inr ⟨by omega, _, rfl, ?_⟩
      rw [toNat_ofNat_26 (by omega)]
      omega
  · rw [if_neg hd, if_neg hd]
    split
    · exact .inl ⟨by omega, rfl⟩
    · refine .inr ⟨by omega, _, rfl, ?_⟩
      rw [toNat_ofNat_26 (by omega)]
      omega

/-- The steps that a ramp still makes until it is DONE (rules R137, R139). -/
def Ramp.remaining (r : Ramp) : Nat :=
  match r.rstate with
  | .idle => 0
  | .moving => r.stepsLeft + 7
  | .counting => r.cnt.toNat
  | .done => 0

theorem remaining_moving {r : Ramp} (h : r.rstate = .moving) : r.remaining = r.stepsLeft + 7 := by
  rw [Ramp.remaining, h]

theorem remaining_counting {r : Ramp} (h : r.rstate = .counting) : r.remaining = r.cnt.toNat := by
  rw [Ramp.remaining, h]

theorem remaining_done {r : Ramp} (h : r.rstate = .done) : r.remaining = 0 := by
  rw [Ramp.remaining, h]

/-- A ramp on its way from a start to its interrupt, or past it with the flag still set: a reachable state
that is not IDLE, with IRQ set as soon as it is DONE (rules R130, R137). -/
structure Ramp.Running (r : Ramp) : Prop where
  ok : r.Ok
  notIdle : r.rstate ≠ .idle
  raised : r.rstate = .done → r.irq = true

theorem startRamp_running (p : Params) {r : Ramp} (hcur : r.cur.toNat ≤ maxCurrent) (tgt : Byte) {code : Byte}
    (hcode : code ≠ 0#8) : (startRamp p r tgt code).Running := by
  have hmoving : (startRamp p r tgt code).rstate = .moving := if_neg hcode
  refine ⟨startRamp_ok p hcur tgt code, ?_, ?_⟩ <;> rw [hmoving] <;> exact nofun

/-- Rules R135, R137: a step of a running ramp leaves it running, with one step fewer to make. -/
theorem rampStep_running {r : Ramp} (h : r.Running) :
    (rampStep r).Running ∧ (rampStep r).remaining = r.remaining - 1 := by
  have hok := rampStep_ok h.ok
  cases hr : r.rstate with
  | idle => exact absurd hr h.notIdle
  | done =>
    rw [rampStep_done hr, remaining_done hr]
    exact ⟨h, rfl⟩
  | counting =>
    have hstep : rampStep r = countRamp r := by rw [rampStep, hr]
    rw [hstep] at hok ⊢
    rw [remaining_counting hr]
    rcases countRamp_cases r (h.ok.cnt_range hr).1 with ⟨hone, e⟩ | ⟨htwo, v, hv, e⟩ <;> rw [e] at hok ⊢
    · exact ⟨⟨hok, nofun, fun _ => rfl⟩, by rw [hone]; rfl⟩
    · exact ⟨⟨hok, h.notIdle, h.raised⟩, (remaining_counting (r := { r with cnt := v }) hr).trans hv⟩
  | moving =>
    have hstep : rampStep r = moveRamp r := by rw [rampStep, hr]
    have hinc := h.ok.moving hr
    rw [hstep] at hok ⊢
    rw [remaining_moving hr]
    rcases moveRamp_distance h.ok.cur_le with ⟨hnear, e⟩ | ⟨hfar, v, e, hd⟩ <;> rw [e] at hok ⊢
    · rw [stepsLeft_near hinc hnear]
      exact ⟨⟨hok, nofun, nofun⟩, rfl⟩
    · rw [stepsLeft_far (q := { r with cur := v }) hinc rfl hfar hd]
      exact ⟨⟨hok, h.notIdle, h.raised⟩, remaining_moving (r := { r with cur := v }) hr⟩

theorem iterate_rampStep_running {r : Ramp} (h : r.Running) (n : Nat) :
    (rampStep^[n] r).Running ∧ (rampStep^[n] r).remaining = r.remaining - n := by
  induction n with
  | zero => exact ⟨h, rfl⟩
  | succ n ih =>
    obtain ⟨hrun, hrem⟩ := ih
    obtain ⟨hrun', hrem'⟩ := rampStep_running hrun
    rw [Function.iterate_succ_apply', hrem', hrem, Nat.sub_sub]
    exact ⟨hrun', rfl⟩

theorem iterate_rampStep_tgt (r : Ramp) (n : Nat) : (rampStep^[n] r).tgt = r.tgt := by
  induction n with
  | zero => rfl
  | succ n ih => rw [Function.iterate_succ_apply', rampStep_tgt, ih]

section
variable {r : Ramp} (h : r.Running)
include h

/-- The steps left tell where a running ramp is in its life. -/
theorem Ramp.Running.rstate_by_remaining :
    8 ≤ r.remaining ∧ r.rstate = .moving ∨
    1 ≤ r.remaining ∧ r.remaining ≤ 7 ∧ r.rstate = .counting ∨ r.remaining = 0 ∧ r.rstate = .done := by
  cases hr : r.rstate with
  | idle => exact absurd hr h.notIdle
  | moving =>
    rw [remaining_moving hr, stepsLeft_eq (h.ok.moving hr)]
    exact .inl ⟨Nat.le_add_left 8 _, rfl⟩
  | counting =>
    rw [remaining_counting hr]
    exact .inr (.inl ⟨(h.ok.cnt_range hr).1, (h.ok.cnt_range hr).2, rfl⟩)
  | done => exact .inr (.inr ⟨remaining_done hr, rfl⟩)

theorem Ramp.Running.moving_of_remaining (hn : 8 ≤ r.remaining) : r.rstate = .moving := by
  rcases h.rstate_by_remaining with ⟨-, e⟩ | ⟨-, hle, -⟩ | ⟨hzero, -⟩
  · exact e
  · omega
  · omega

/-- Rule R137: a running ramp holds its target from 7 steps before its interrupt on. -/
theorem Ramp.Running.at_target_of_remaining (hn : r.remaining ≤ 7) : r.cur.toNat = largeTarget r.tgt := by
  rcases h.rstate_by_remaining with ⟨hge, -⟩ | ⟨-, -, e⟩ | ⟨-, e⟩
  · omega
  · exact h.ok.at_target (.inl e)
  · exact h.ok.at_target (.inr e)

theorem Ramp.Running.done_iff : r.rstate = .done ↔ r.remaining = 0 := by
  rcases h.rstate_by_remaining with ⟨hge, e⟩ | ⟨hge, -, e⟩ | ⟨hzero, e⟩ <;> simp only [e]
  · simp only [reduceCtorEq, false_iff]
    omega
  · simp only [reduceCtorEq, false_iff]
    omega
  · simp only [hzero]

/-- Rules R130, R137: a running ramp shows its flag exactly when it has no step left. -/
theorem Ramp.Running.irq_iff : r.irq = true ↔ r.remaining = 0 := by
  rw [← h.done_iff]
  exact ⟨h.ok.irq_done, h.raised⟩

end

/-- Settles O24: the started ramp has k + 7 steps left, with k of rule R139. -/
theorem rampReachesItsTargetAndInterruptsExactlyOnce :
    Obligations.RampReachesItsTargetAndInterruptsExactlyOnce := by
  intro p r tgt code hcur
  constructor
  · rintro rfl n
    rw [iterate_rampStep_idle (startRamp_freeze p r tgt)]
    rfl
  · intro hcode k
    have hmoving : (startRamp p r tgt code).rstate = .moving := if_neg hcode
    have hrun := startRamp_running p hcur tgt hcode
    have hk : (startRamp p r tgt code).stepsLeft = k := by
      rw [Ramp.stepsLeft, startRamp_inc, ← increment_eq, startRamp_desc, ← getLsbD_seven]
      rfl
    refine ⟨hk ▸ stepsLeft_le (hrun.ok.moving hmoving) hcur, ?_⟩
    intro n q
    obtain ⟨hq, hleft⟩ : q.Running ∧ q.remaining = k + 7 - n := by
      rw [← hk, ← remaining_moving hmoving]
      exact iterate_rampStep_running hrun n
    have htgt : q.tgt = tgt := iterate_rampStep_tgt _ n
    refine ⟨fun hn => hq.moving_of_remaining (by omega), fun hn => ?_, ?_, fun hn m => ?_⟩
    · rw [hq.at_target_of_remaining (by omega), htgt]
      rfl
    · rw [hq.irq_iff]
      omega
    · have hdone : q.rstate = .done := hq.done_iff.mpr (by omega)
      rw [iterate_rampStep_done (r := { q with irq := false }) hdone]

end Sys2Proof.Machine
end

section
/-! The invariant `State.Inv` of rules R50, R130, R168, R202, R289, R311: the state after reset has it, and
every operation, every command and every access keep it. -/

namespace Sys2Proof.Machine

/-! ### Reset -/

theorem readParam_reset (n : ParamReg) : readParam SlotRegs.reset n = 0#32 := by
  cases n with
  | env c j =>
    show readEnv (Trio.get ⟨EnvRegs.reset, EnvRegs.reset, EnvRegs.reset⟩ c) j = 0#32
    rw [show Trio.get ⟨EnvRegs.reset, EnvRegs.reset, EnvRegs.reset⟩ c = EnvRegs.reset by cases c <;> rfl]
    revert j
    decide
  | _ => rfl

theorem slot_reset_ok (p : Params) (i : SlotIx) : (Slot.reset p).Ok p i where
  regs n := by
    show readParam SlotRegs.reset n &&& _ = _
    rw [readParam_reset, BitVec.zero_and]
  ramps c := by cases c <;> exact ramp_reset_ok
  wave := wave_ok_of_inactive p rfl
  role := rfl

/-- The frame sums after reset and at the start of a TICK. -/
theorem frameBound_zero : -frameBound ≤ (0#32).toInt ∧ (0#32).toInt ≤ frameBound := by decide

/-- Settles O55: every register is 0 and every slot is `Slot.reset`. -/
theorem resetStateIsSafe : Obligations.ResetStateIsSafe where
  slots i := by
    rw [State.reset, reset_slot]
    exact slot_reset_ok _ i
  noCode _ := rfl
  code h := nomatch h
  outL := frameBound_zero
  outR := frameBound_zero

/-! ### Changes of one slot -/

section
variable {p : Params} {i : SlotIx} {x y : Slot} (h : x.Ok p i)
include h

/-- A slot operation that keeps the registers, the wave generator and the role, and leaves the ramps in
reachable states. -/
theorem Slot.Ok.of_ramps (hregs : y.regs = x.regs) (hwave : y.wave = x.wave) (hrole : y.role = x.role)
    (hmix : y.mix = x.mix) (hramps : y.RampsOk) : y.Ok p i where
  regs := hregs ▸ h.regs
  ramps := hramps
  wave := hwave ▸ h.wave
  role := by
    unfold Slot.RoleOk
    rw [hrole, hmix]
    exact h.role

theorem Slot.Ok.of_frame {c : Ctl} (hframe : EnvFrame c x y) (hramps : y.RampsOk) : y.Ok p i :=
  h.of_ramps hframe.regs hframe.wave hframe.role hframe.mix hramps

theorem Slot.Ok.modRamp {c : Ctl} {f : Ramp → Ramp} (hf : (f (x.ramp.get c)).Ok) : (x.modRamp c f).Ok p i :=
  h.of_frame (modRamp_frame x c f) (modRamp_rampsOk h.ramps c f hf)

theorem Slot.Ok.startEnv (c : Ctl) : (startEnv p x c).Ok p i :=
  have ⟨hregs, hwave, _, hrole, hmix, _⟩ := startEnv_frame p x c
  h.of_ramps hregs hwave hrole hmix (startEnv_rampsOk p h.ramps c)

theorem Slot.Ok.decayEnv (c : Ctl) : (decayEnv p x c).Ok p i :=
  h.of_frame (decayEnv_frame p x c) (decayEnv_rampsOk p h.ramps c)

theorem Slot.Ok.abortEnv : (abortEnv p x).Ok p i :=
  h.of_frame (abortEnv_frame p x) (abortEnv_rampsOk p h.ramps)

theorem Slot.Ok.handleInterrupt (c : Ctl) : (handleInterrupt p x c).Ok p i :=
  h.of_frame (handleInterrupt_frame p x c) (handleInterrupt_rampsOk p h.ramps c)

theorem Slot.Ok.decaySlot : (decaySlot p x).Ok p i := by
  unfold Machine.decaySlot
  split
  · exact ((h.decayEnv .tva).decayEnv .tvp).decayEnv .tvf
  · exact h

theorem Slot.Ok.abortSlot : (abortSlot p x).Ok p i := by
  unfold Machine.abortSlot
  split
  · exact h.abortEnv
  · exact h

theorem Slot.Ok.withWave {w : Wave} (hw : w.Ok p) : Slot.Ok p i { x with wave := w } :=
  ⟨h.regs, h.ramps, hw, h.role⟩

theorem Slot.Ok.generate : (generate p x).Ok p i := by
  obtain ⟨w, e, -, hw⟩ := generate_eq p x
  rw [e]
  exact h.withWave (hw h.wave)

theorem Slot.Ok.deactivateWave : (deactivateWave x).Ok p i := h.withWave (wave_ok_of_inactive p rfl)

theorem Slot.Ok.initWave (hrange : pcmRefused p x = false) : (initWave p x).Ok p i :=
  h.withWave (initWave_ok p hrange)

theorem Slot.Ok.withPairOut (v : BitVec 16) : Slot.Ok p i { x with pairOut := v } :=
  ⟨h.regs, h.ramps, h.wave, h.role⟩

theorem Slot.Ok.writeParam (n : ParamReg) (v : Word) :
    Slot.Ok p i { x with regs := writeParam x.regs n v } :=
  ⟨fun m => writeParam_masked x.regs n m v (h.regs m), h.ramps, h.wave, h.role⟩

end

/-! ### Changes of the state -/

theorem toByte_range (e : ErrCode) : 1 ≤ e.toByte.toNat ∧ e.toByte.toNat ≤ 6 := by cases e <;> decide

section
variable {p : Params} {s : State} (h : s.InvWith p)
include h

theorem State.InvWith.modSlot {i : SlotIx} {f : Slot → Slot} (hf : (f (s.slot i)).Ok p i) :
    (s.modSlot i f).InvWith p :=
  ⟨modSlot_slots (P := fun k x => x.Ok p k) h.slots hf, h.noCode, h.code, h.outL, h.outR⟩

theorem State.InvWith.withResult (v : Word) : State.InvWith p { s with result := v } :=
  ⟨h.slots, h.noCode, h.code, h.outL, h.outR⟩

theorem State.InvWith.withHost (rest : List HostAccess) : State.InvWith p { s with host := rest } :=
  ⟨h.slots, h.noCode, h.code, h.outL, h.outR⟩

theorem State.InvWith.withReadData (v : Word) : State.InvWith p { s with readData := v } :=
  ⟨h.slots, h.noCode, h.code, h.outL, h.outR⟩

/-- Rules R311, R312: the code kept or recorded is one of the six. -/
theorem State.InvWith.record (e : ErrCode) : (s.record e).InvWith p := by
  refine ⟨h.slots, nofun, fun _ => ?_, h.outL, h.outR⟩
  rw [record_errCode]
  split
  · rename_i herr
    exact h.code herr
  · exact toByte_range e

theorem State.InvWith.withUnit {u : BitVec 2} {f : Ctl → State} (hf : ∀ c, (f c).InvWith p) :
    (withUnit u s f).InvWith p := by
  rcases withUnit_cases u s f with ⟨c, -, e⟩ | ⟨-, e⟩ <;> rw [e]
  · exact hf c
  · exact h.record _

theorem State.InvWith.deactivate (i : SlotIx) : (deactivate s i).InvWith p := by
  have hq := deactivate_quiet s i
  obtain ⟨hl, hr⟩ := deactivate_out s i
  refine ⟨fun k => ?_, ?_, ?_, hl ▸ h.outL, hr ▸ h.outR⟩
  · rcases deactivate_slot s i k with e | ⟨-, e⟩ <;> rw [e]
    · exact h.slots k
    · exact silenced_ok p (h.slots k)
  · rw [hq.err, hq.errCode]
    exact h.noCode
  · rw [hq.err, hq.errCode]
    exact h.code

theorem State.InvWith.doWinit (i : SlotIx) : (doWinit p i s).InvWith p := by
  unfold Machine.doWinit
  split
  · exact h.record _
  · rename_i hrange
    exact h.modSlot ((h.slots i).initWave (Bool.eq_false_iff.mpr hrange))

theorem State.InvWith.doPstart (i : SlotIx) : (doPstart p i s).InvWith p := by
  cases hrange : pcmRefused p (s.slot i) with
  | true =>
    rw [Machine.doPstart, if_pos hrange]
    exact h.record _
  | false =>
    obtain ⟨u, e, hu⟩ := pstart_shape hrange
    rw [e]
    suffices u.InvWith p ∧ (u.slot i).regs = (s.slot i).regs by
      obtain ⟨hinv, hregs⟩ := this
      refine hinv.modSlot (startSlot_ok p (hinv.slots i) ?_ _)
      rwa [pcmRefused, hregs]
    rcases hu with ⟨-, rfl⟩ | ⟨-, rfl⟩
    · exact ⟨h, rfl⟩
    · exact ⟨(h.record _).deactivate i, deactivate_regs _ i i⟩

/-- Rule R289: TICK leaves the frame sums in range, since they are the sums of the slots' shares. -/
theorem State.InvWith.tick : (tick p s).InvWith p := by
  obtain ⟨-, herr, hcode, -⟩ := tick_frame p s
  obtain ⟨-, hl, hr⟩ := tick_spec p fun i => (h.slots i).role
  refine ⟨tick_slots_ok p h.slots, ?_, ?_, ?_, ?_⟩
  · rw [herr, hcode]
    exact h.noCode
  · rw [herr, hcode]
    exact h.code
  · rw [hl]
    exact (pairShares_exact p panL s _).2
  · rw [hr]
    exact (pairShares_exact p panR s _).2

theorem State.InvWith.writeGlobal (r : GlobalReg) (v : Word) : (writeGlobal s r v).InvWith p := by
  cases r with
  | cmd => exact h
  | err =>
    simp only [Machine.writeGlobal]
    split
    · exact ⟨h.slots, fun _ => rfl, nofun, h.outL, h.outR⟩
    · exact h
  | irqPend => exact ⟨h.slots, h.noCode, h.code, h.outL, h.outR⟩
  | irqEn => exact ⟨h.slots, h.noCode, h.code, h.outL, h.outR⟩
  | result | outL | outR | sampleCnt | activeMask | id => exact h.record _

theorem State.InvWith.writeReg (a : HostAddr) (v : Word) : (writeReg s a v).InvWith p := by
  unfold Machine.writeReg
  cases regName a with
  | param i n => exact h.modSlot ((h.slots i).writeParam n v)
  | state i n => exact h.record _
  | global r => exact h.writeGlobal r v
  | reserved => exact h.record _

end

/-! ### Commands, accesses, steps -/

/-- Every command answers a safe state from a safe state. -/
theorem exec_safe {s : State} (h : s.Inv) (i : Instr) : ∃ t, exec i s = .next t ∧ t.Inv := by
  have hslot := h.slots
  cases i with
  | nop => exact ⟨_, rfl, h⟩
  | rstart k u tgt code =>
    exact ⟨_, rfl, h.withUnit fun c =>
      h.modSlot ((hslot k).modRamp (startRamp_ok _ ((hslot k).ramps c).cur_le tgt code))⟩
  | rnext k u =>
    exact ⟨_, rfl, h.withUnit fun c =>
      (h.modSlot ((hslot k).modRamp (rampStep_ok ((hslot k).ramps c)))).withResult _⟩
  | rchki k u =>
    exact ⟨_, rfl, h.withUnit fun c =>
      (h.modSlot ((hslot k).modRamp (clearIrq_ok ((hslot k).ramps c)))).withResult _⟩
  | rreset k u => exact ⟨_, rfl, h.withUnit fun c => h.modSlot ((hslot k).modRamp resetRamp_ok)⟩
  | winit k => exact ⟨_, rfl, h.doWinit k⟩
  | wgen k => exact ⟨_, rfl, h.modSlot (hslot k).generate⟩
  | wdeact k => exact ⟨_, rfl, h.modSlot (hslot k).deactivateWave⟩
  | pairout k => exact ⟨_, rfl, (h.modSlot ((hslot k).withPairOut _)).withResult _⟩
  | estart k u => exact ⟨_, rfl, h.withUnit fun c => h.modSlot ((hslot k).startEnv c)⟩
  | edecay k u => exact ⟨_, rfl, h.withUnit fun c => h.modSlot ((hslot k).decayEnv c)⟩
  | eabort k => exact ⟨_, rfl, h.modSlot (hslot k).abortEnv⟩
  | eintr k u => exact ⟨_, rfl, h.withUnit fun c => h.modSlot ((hslot k).handleInterrupt c)⟩
  | pstart k => exact ⟨_, rfl, h.doPstart k⟩
  | pstop k => exact ⟨_, rfl, h.deactivate k⟩
  | pdecay k => exact ⟨_, rfl, h.modSlot (hslot k).decaySlot⟩
  | pabort k => exact ⟨_, rfl, h.modSlot (hslot k).abortSlot⟩
  | tick => exact ⟨_, rfl, h.tick⟩

/-- A word that decodes runs as its command, and any other is only logged (rule R105). -/
theorem runCommand_safe {s : State} (h : s.Inv) (w : Word) : ∃ t, runCommand w s = .next t ∧ t.Inv := by
  cases hd : decode w with
  | ok i =>
    rw [runCommand_decoded hd]
    exact exec_safe h i
  | error e => exact ⟨s.record e, by rw [runCommand, hd]; rfl, h.record e⟩

/-- From a safe state the host's next access leads to a safe state. -/
theorem step_safe {s : State} (h : s.Inv) : ∃ t, step s = .next t ∧ t.Inv := by
  cases hhost : s.host with
  | nil => exact ⟨s, step_idle hhost, h⟩
  | cons access rest =>
    have hrest : State.Inv { s with host := rest } := h.withHost rest
    cases access with
    | read a => exact ⟨_, step_read hhost, hrest.withReadData _⟩
    | write a v =>
      by_cases hcmd : a = cmdAddr
      · subst hcmd
        rw [step_command hhost]
        exact runCommand_safe hrest v
      · exact ⟨_, step_write hhost hcmd, hrest.writeReg a v⟩

/-- Settles O56: the step's answer is the safe state of `step_safe`. -/
theorem everyStepKeepsTheStateSafe : Obligations.EveryStepKeepsTheStateSafe := by
  intro s t h ht
  obtain ⟨t', ht', hsafe⟩ := step_safe h
  obtain rfl : t' = t := Host.Outcome.next.inj (ht'.symm.trans ht)
  exact hsafe

end Sys2Proof.Machine
end

section
/-! The Wave Generator of rules R160-R174: the model's fields and steps against the spec's formulas, the three
wave commands, and the words that a PCM step reads. -/

namespace Sys2Proof.Machine

open Sys2Proof.Stated

/-! ### Fields of a register -/

/-- A field is the quotient by the place of its lowest bit, cut to its width. -/
theorem extractLsb'_eq_ofNat_div {n : Nat} (w : BitVec n) (start len : Nat) :
    w.extractLsb' start len = BitVec.ofNat len (w.toNat / 2 ^ start) := by
  rw [← Nat.shiftRight_eq_div_pow]
  rfl

theorem byteOf_eq (w : Word) (n : Nat) : byteOf w n = w.extractLsb' (8 * n) 8 :=
  (extractLsb'_eq_ofNat_div w _ _).symm

/-- Rules R37, R38: the live inputs. -/
theorem seen_eq (r : SlotRegs) : seen r = inputs r := by
  simp only [seen, inputs, extractLsb'_eq_ofNat_div, pow_zero, Nat.div_one]

/-! ### WINIT -/

/-- Rule R161: the three conditions of PcmRangeOk. -/
theorem pcmRangeOk_iff {p : Params} {base len : BitVec 24} :
    pcmRangeOk p base len = true ↔
      1 ≤ len.toNat ∧ base.toNat + len.toNat ≤ p.pcmRomWords ∧ len.toNat * 2 ^ p.pcmFracBits < 2 ^ 32 := by
  simp only [pcmRangeOk, Bool.and_eq_true, decide_eq_true_eq, and_assoc]

/-- Rules R160, R161: the waves that WINIT and PSTART refuse are those out of range. -/
theorem pcmRefused_iff {p : Params} {x : Slot} : pcmRefused p x = true ↔ outOfRange p x.regs := by
  simp only [pcmRefused, Bool.and_eq_true, Bool.not_eq_true', ← Bool.not_eq_true, pcmRangeOk_iff]
  rfl

/-- Rule R160. -/
theorem waveStarted_eq (p : Params) (x : Slot) : waveStarted p x = initWave p x := by
  simp only [waveStarted, byteOf_eq]
  rfl

/-- Settles O25, by the check of `doWinit`. -/
theorem winitLatchesTheWaveOrRecordsPcmRange : Obligations.WinitLatchesTheWaveOrRecordsPcmRange := by
  intro s i
  rw [exec_winit, doWinit, funext (waveStarted_eq hw)]
  constructor
  · intro hout
    rw [if_pos (pcmRefused_iff.mpr hout), logError_eq_errored]
    rfl
  · intro hin
    rw [if_neg (mt pcmRefused_iff.mp hin)]

/-! ### WGEN -/

/-- Rule R167, by the three outcomes for the position: inside the wave, looped, at its end. -/
theorem pcmStepped_eq (p : Params) (w : Wave) (amp : BitVec 26) (pitch : BitVec 16) :
    pcmStepped p w amp pitch = pcmStep p w amp pitch := by
  simp only [pcmStepped, pcmStep, pcmNeighbour]
  by_cases hinside : w.pos.toNat + (p.pcmStep pitch).toNat < w.len.toNat * 2 ^ p.pcmFracBits
  · rw [if_pos hinside, if_neg (Nat.not_le.mpr hinside), decide_eq_true hinside, Bool.true_or, Bool.and_true]
    rfl
  · rw [if_neg hinside, if_pos (Nat.not_lt.mp hinside), decide_eq_false hinside, Bool.false_or]
    cases w.loop with
    | true =>
      rw [Bool.and_true]
      rfl
    | false =>
      rw [Bool.and_false]
      rfl

/-- Rules R165, R166, R169, by the kind of the wave generator. -/
theorem waveStepped_eq (p : Params) (w : Wave) (amp : BitVec 26) (pitch : BitVec 16) (cutoff : BitVec 26) :
    waveStepped p w amp pitch cutoff = waveStep p w amp pitch cutoff := by
  simp only [waveStepped, waveStep, synthWaveStep, pcmStepped_eq]
  cases w.active with
  | false => rfl
  | true => rfl

/-- Rules R162, R163. -/
theorem generated_eq (p : Params) (x : Slot) : generated p x = generate p x := by
  simp only [generated, seen_eq, waveStepped_eq]
  rfl

/-- Settles O26: `generate` is the spec's sample. -/
theorem wgenGeneratesOneSample : Obligations.WgenGeneratesOneSample := by
  intro s i
  rw [exec_wgen, funext (generated_eq hw)]

/-! ### WDEACT -/

/-- Settles O27: `deactivateWave` clears WG_ACTIVE. -/
theorem wdeactClearsOnlyWgActive : Obligations.WdeactClearsOnlyWgActive := fun s i => exec_wdeact i s

/-! ### The reads of a PCM step -/

section
variable {p : Params} {w : Wave} {rom : Nat → BitVec 16}
  (hrom : ∀ a, w.base.toNat ≤ a → a < w.base.toNat + w.len.toNat → rom a = p.pcmRom a)
include hrom

/-- Rule R175: the samples of a wave are read inside it. -/
theorem pcmSample_rom {i : Nat} (hi : i < w.len.toNat) :
    pcmSample { p with pcmRom := rom } w i = pcmSample p w i :=
  congrArg p.pcmToLog (hrom _ (by omega) (by omega))

/-- Rule R167: the neighbour is a sample of the wave, or SILENCE. -/
theorem pcmNeighbour_rom (hlen : 1 ≤ w.len.toNat) (i : Nat) :
    pcmNeighbour { p with pcmRom := rom } w i = pcmNeighbour p w i := by
  unfold pcmNeighbour
  split
  · rename_i hnext
    exact pcmSample_rom hrom hnext
  · rw [pcmSample_rom hrom hlen]

/-- Rules R167, R168: a PCM step reads no word outside the wave. -/
theorem pcmStep_rom (hlen : 1 ≤ w.len.toNat) (hpos : w.pos.toNat < w.len.toNat * 2 ^ p.pcmFracBits)
    (amp : BitVec 26) (pitch : BitVec 16) :
    pcmStep { p with pcmRom := rom } w amp pitch = pcmStep p w amp pitch := by
  have hindex : w.pos.toNat / 2 ^ p.pcmFracBits < w.len.toNat :=
    (Nat.div_lt_iff_lt_mul (Nat.two_pow_pos _)).mpr hpos
  simp only [pcmStep, pcmSample_rom hrom hindex, pcmNeighbour_rom hrom hlen]

end

/-- Settles O28: where the step ends is `pcmStep_cases`, and what it reads is `pcmStep_rom`. -/
theorem pcmStepStaysInsideTheRom : Obligations.PcmStepStaysInsideTheRom := by
  intro p w amp pitch hok hactive hpcm
  have hrange := hok.range hactive hpcm
  obtain ⟨hlen, hbelow, -⟩ := pcmRangeOk_iff.mp hrange
  refine ⟨?_, hbelow, fun rom hrom => pcmStep_rom hrom hlen (hok.inside hactive hpcm) amp pitch⟩
  obtain ⟨_, _, v, act, hstep, hend⟩ := pcmStep_cases p w amp pitch
  rw [hstep]
  rcases hend hrange with ⟨hact, hinside⟩ | hended
  · exact .inl ⟨hact.trans hactive, hinside⟩
  · exact .inr hended

end Sys2Proof.Machine
end

section
/-! The envelope controllers of rules R221-R232 and the sample of rule R287: the model's operations
against the spec's formulas. -/

namespace Sys2Proof.Machine

open Sys2Proof.Stated

/-! ### Codes and phase entries -/

/-- Rule R222: the distance of MakeCode. -/
theorem targetDist_eq (r : Ramp) (tgt : Byte) :
    targetDist r tgt =
      BitVec.ofNat 8 (max tgt.toNat (r.cur.toNat / 2 ^ 18) - min tgt.toNat (r.cur.toNat / 2 ^ 18)) := by
  rw [targetDist, rampScale]
  congr 1
  omega

/-- Rule R222: the code's sign is bit 7 above the 7-bit magnitude. -/
theorem codeToward_eq (p : Params) (x : Slot) (c : Ctl) (tgt time : Byte) :
    codeToward p (x.ramp.get c) tgt time = makeCode p x c tgt time := by
  simp only [codeToward, makeCode, ← targetDist_eq]
  have hmag := (p.timeToInc time (targetDist (x.ramp.get c) tgt)).isLt
  apply BitVec.eq_of_toNat_eq
  rw [toNat_concat, BitVec.toNat_ofNat]
  by_cases hdesc : largeTarget tgt < (x.ramp.get c).cur.toNat
  · rw [if_pos (show bigTarget tgt < _ from hdesc), decide_eq_true hdesc, BitVec.toNat_ofBool, Bool.toNat_true]
    omega
  · rw [if_neg (show ¬bigTarget tgt < _ from hdesc), decide_eq_false hdesc, BitVec.toNat_ofBool, Bool.toNat_false]
    omega

/-- Rule R223. -/
theorem enters_eq (p : Params) (x : Slot) (c : Ctl) (ph : Phase) (tgt code : Byte) :
    enters p x c ph tgt code = startCtlRamp p (x.setPhase c ph) c tgt code := by
  rw [enters, started_eq]
  rfl

/-- Rules R221, R224, R225: the entry of a timed phase with the time and level of index j. -/
theorem entersTimed_eq (p : Params) (x : Slot) (c : Ctl) (ph : Phase) (j : Fin 4) :
    entersTimed p x c ph (timeOf (x.lp.get c) j) (levelOf (x.lp.get c) j) = enterTimed p x c ph j := by
  simp only [entersTimed, enters_eq, codeToward_eq, seen_eq]
  rfl

/-- Rule R227: the two replacements of the code 0x00 are one. -/
theorem releases_eq (p : Params) (x : Slot) (c : Ctl) : releases p x c = startRelease p x c := by
  simp only [releases, enters_eq, codeToward_eq, seen_eq]
  by_cases htime : (x.lp.get c).lt4 = 0#8
  · simp only [startRelease, htime, true_or, if_true, if_neg p.releaseZeroCode_ne]
    cases c <;> rfl
  · simp only [startRelease, htime, false_or, if_false]
    cases c <;> rfl

/-! ### Interrupts -/

/-- Rules R226, R229, by the phase of TVA or TVF. -/
theorem ampFilterInterrupt_eq (p : Params) (x : Slot) (c : Ctl) :
    ampFilterInterrupt p x c = handleAmpFilter p x c := by
  simp only [ampFilterInterrupt, handleAmpFilter]
  cases x.phase.get c with
  | p0 => exact entersTimed_eq p x c .p1 1
  | p1 => exact entersTimed_eq p x c .p2 2
  | p2 => exact entersTimed_eq p x c .p3 3
  | p3 => simp only [enters_eq, releases_eq]; rfl
  | p4 => rfl
  | release => rfl
  | dead => rfl

/-- Rules R225, R230, by the phase of TVP. -/
theorem pitchInterrupt_eq (p : Params) (x : Slot) : pitchInterrupt p x = handlePitch p x := by
  simp only [pitchInterrupt, handlePitch]
  cases x.phase.tvp with
  | p0 => exact entersTimed_eq p x .tvp .p1 1
  | p1 => exact entersTimed_eq p x .tvp .p2 2
  | p2 => exact entersTimed_eq p x .tvp .p3 3
  | p3 => exact entersTimed_eq p x .tvp .p4 3
  | p4 => exact entersTimed_eq p x .tvp .p3 3
  | release => rfl
  | dead => rfl

/-- Rule R231. -/
theorem interrupt_eq (p : Params) (x : Slot) (c : Ctl) : interrupt p x c = handleInterrupt p x c := by
  cases c with
  | tva => exact ampFilterInterrupt_eq p x .tva
  | tvp => exact pitchInterrupt_eq p x
  | tvf => exact ampFilterInterrupt_eq p x .tvf

/-! ### One sample -/

/-- Rule R232, by whether the ramp step raised its interrupt. -/
theorem envAdvanced_eq (p : Params) (x : Slot) (c : Ctl) : envAdvanced p x c = envStep p x c := by
  simp only [envAdvanced, envStep, stepped_eq, interrupt_eq, modRamp_ramp_same]
  split
  · simp only [Slot.modRamp, trio_get_set_same, trio_set_set]
    rfl
  · rfl

/-- Rule R287. -/
theorem sampled_eq (p : Params) (x : Slot) : sampled p x = envSample p x := by
  simp only [sampled, generated_eq, envAdvanced_eq]
  rfl

end Sys2Proof.Machine
end

section
/-! The Partial Pair of rules R200-R207: the mixer and the ring modulator against the spec's formulas, and
PAIROUT. -/

namespace Sys2Proof.Machine

open Sys2Proof.Stated

/-! ### The ring multiplier -/

/-- Rule R9: the low 14 bits as a signed number. -/
theorem t14_eq (v : BitVec 16) : t14 v = low14 v := by
  have hv : (v.toInt - v.toNat) % 16384 = 0 := by
    rw [BitVec.toInt_eq_toNat_bmod, Int.bmod_def]
    omega
  rw [t14, low14, extractLsb'_eq_ofNat_div, pow_zero, Nat.div_one, BitVec.toInt_ofNat', Int.bmod_def]
  omega

theorem low14_range (v : BitVec 16) : -8192 ≤ low14 v ∧ low14 v ≤ 8191 := by
  unfold low14
  omega

/-- Rule R204: the product of two 14-bit numbers is exact in 28 bits. -/
theorem low14_mul_range (m sl : BitVec 16) : -2 ^ 27 ≤ low14 m * low14 sl ∧ low14 m * low14 sl < 2 ^ 27 := by
  obtain ⟨hm, hm'⟩ := low14_range m
  obtain ⟨hs, hs'⟩ := low14_range sl
  constructor <;> nlinarith

/-- Rule R204. -/
theorem ringOf_eq (p : Params) (m sl : BitVec 16) : ringOf p m sl = ringMul p m sl := by
  rw [ringOf, ringMul, t14_eq, t14_eq, wrap16, asr, Nat.cast_pow]
  rfl

/-- Settles O30: `t14` is the low 14 bits as a signed number, and its ranges are arithmetic. -/
theorem ringMultiplierTruncatesTo14Bits : Obligations.RingMultiplierTruncatesTo14Bits := by
  intro p m sl
  obtain ⟨hlow, hhigh⟩ := low14_range m
  rw [t14_eq, t14_eq]
  refine ⟨(ringOf_eq p m sl).symm, hlow, hhigh, fun _ _ => ?_, fun _ => ?_, fun _ => ?_,
    low14_mul_range m sl⟩ <;> unfold low14 <;> omega

/-! ### The pair sample -/

/-- Rule R201. -/
theorem mixed_eq (p : Params) (w : Wave) : mixed p w = mixOut p w := by
  unfold mixed mixOut
  cases w.active <;> rfl

/-- Rule R203. -/
theorem slaveOf_eq (p : Params) (t : Slot) : slaveOf p t = slaveSample p t := by
  have hsilent : (t.active = false ∨ t.role ≠ .ringSlave) ↔
      (!t.active || t.role != .ringSlave) = true := by simp
  simp only [slaveOf, slaveSample, mixed_eq, hsilent, Bool.not_eq_true']

/-- Rule R202, by the role of the slot and the structure of a ring master. -/
theorem paired_eq (p : Params) (x t : Slot) : paired p x t = pairOutOf p x t := by
  simp only [paired, pairOutOf, mixed_eq, slaveOf_eq, ringOf_eq]
  cases x.role with
  | independent => rfl
  | ringSlave => rfl
  | ringMaster => cases x.mix <;> rfl

/-- Settles O29: `pairOut` is rule R202's pair sample, and RESULT is its sign extension. -/
theorem pairoutReturnsThePairSample : Obligations.PairoutReturnsThePairSample := by
  intro s i v
  refine ⟨v.signExtend 32, BitVec.toInt_signExtend_of_le (by decide), ?_⟩
  have hv : v = pairOut hw s i := paired_eq hw _ _
  rw [exec_pairout, doPairout, hv]

end Sys2Proof.Machine
end

section
/-! TICK slot by slot (rules R280-R289): the model's conditions on a pair against the spec's, what a TICK
keeps of every slot, and the frame as a sum over the 32 slots. -/

namespace Sys2Proof.Machine

open Sys2Proof.Stated

/-! ### Which slots stay active -/

/-- Rule R282. -/
theorem alive_iff {x : Slot} : alive x = true ↔ isAlive x := by
  simp [alive, isAlive]

theorem slotEven_eq_false_iff (i : SlotIx) : slotEven i = false ↔ i.toNat % 2 = 1 := by revert i; decide

/-- Rule R285. -/
theorem attachedSlave_iff {s : State} {i : SlotIx} : attachedSlave s i = true ↔ attached s i := by
  simp only [attachedSlave, attached, Bool.and_eq_true, beq_iff_eq, Bool.not_eq_true', slotEven_eq_false_iff,
    and_assoc]

theorem attachedSlave_eq_false_iff {s : State} {i : SlotIx} : attachedSlave s i = false ↔ ¬attached s i := by
  rw [← attachedSlave_iff, Bool.not_eq_true]

/-- Rules R285, R286: the slots whose sample advances before a deactivation can reach them. -/
theorem advances_iff {s : State} {i : SlotIx} :
    (alive (s.slot i) && !attachedSlave s i) = true ↔ isAlive (s.slot i) ∧ ¬attached s i := by
  rw [Bool.and_eq_true, alive_iff, Bool.not_eq_true', attachedSlave_eq_false_iff]

/-- Rule R286. -/
theorem hasActiveSlave_iff {s : State} {i : SlotIx} : hasActiveSlave s i = true ↔ leads s i := by
  simp only [hasActiveSlave, leads, Bool.and_eq_true, beq_iff_eq, and_assoc]

/-- Rules R281, R282, R286, R288. -/
theorem survives_iff {s : State} {i : SlotIx} : survives s i = true ↔ staysActive s i := by
  simp only [survives, staysActive, Bool.and_eq_true, Bool.or_eq_true, Bool.not_eq_true', alive_iff, bne_iff_ne,
    ← Bool.not_eq_true (attachedSlave s i), ← Bool.not_eq_true (hasActiveSlave s i), attachedSlave_iff,
    hasActiveSlave_iff, and_assoc, or_assoc, imp_iff_not_or]

/-! ### What a TICK keeps of a slot -/

/-- The slot y has the parameters, the role and the latched parameters of x. -/
structure BindingKept (x y : Slot) : Prop where
  regs : y.regs = x.regs
  role : y.role = x.role
  mix : y.mix = x.mix
  lp : y.lp = x.lp
  baseCutoff : y.baseCutoff = x.baseCutoff

theorem SampleFrame.bindingKept {x y : Slot} (h : SampleFrame x y) : BindingKept x y :=
  ⟨h.regs, h.role, h.mix, h.lp, h.baseCutoff⟩

theorem BindingKept.trans {x y z : Slot} (h : BindingKept x y) (k : BindingKept y z) : BindingKept x z :=
  ⟨k.regs.trans h.regs, k.role.trans h.role, k.mix.trans h.mix, k.lp.trans h.lp,
    k.baseCutoff.trans h.baseCutoff⟩

/-- A TICK binds no slot anew. -/
theorem tick_bindingKept (p : Params) (s : State) (i : SlotIx) :
    BindingKept (s.slot i) ((tick p s).slot i) :=
  tick_slots p (fun i x => BindingKept (s.slot i) x)
    (fun _ x h _ _ => h.trans (envSample_frame p x).bindingKept)
    (fun _ _ _ h => ⟨h.regs, h.role, h.mix, h.lp, h.baseCutoff⟩)
    (fun _ _ h _ => ⟨h.regs, h.role, h.mix, h.lp, h.baseCutoff⟩) s
    (fun _ => ⟨rfl, rfl, rfl, rfl, rfl⟩) i

theorem State.InvWith.roles {p : Params} {s : State} (h : s.InvWith p) (i : SlotIx) : (s.slot i).RoleOk i :=
  (h.slots i).role

/-- Settles O47: `tick_spec` says with `Ticked` what happens to each slot, in the model's terms. -/
theorem tickAdvancesEveryActiveSlotOnce : Obligations.TickAdvancesEveryActiveSlotOnce := by
  intro s hs
  obtain ⟨hresult, herr, hcode, hirqEn, hhost, hread, hcnt⟩ := tick_frame hw s
  obtain ⟨hticked, -, -⟩ := tick_spec hw hs.roles
  refine ⟨tick hw s, rfl, hcnt, hresult, herr, hcode, hirqEn, hhost, hread, fun i => ?_⟩
  have ht := hticked i
  have hb := tick_bindingKept hw s i
  simp only [sampled_eq, paired_eq]
  refine ⟨ht.inactive, fun ha => ?_, fun hy => ⟨fun hatt => ?_, fun hatt => ?_⟩, fun ha hy => ?_,
    hb.regs, hb.role, hb.mix, hb.lp, hb.baseCutoff⟩
  · rw [ht.stays ha, survives_iff]
  · exact ht.slave hy (attachedSlave_iff.mpr hatt)
  · exact ht.output hy (attachedSlave_eq_false_iff.mpr hatt)
  · have hended := ht.ended ha hy
    constructor
    · intro hskip
      rw [if_neg fun hadv => have ⟨hl, hatt⟩ := advances_iff.mp hadv; hskip.elim (· hl) hatt] at hended
      exact hended
    · intro hl hatt
      rw [if_pos (advances_iff.mpr ⟨hl, hatt⟩)] at hended
      exact hended

/-! ### The frame as a sum over the slots -/

/-- A sum over the 32 slots is one over the 16 pairs. -/
theorem sum_slots_eq_sum_pairs (f : SlotIx → Int) :
    ((List.range 32).map fun k => f (BitVec.ofNat 5 k)).sum = (evenSlots.map fun i => f i + f (i + 1#5)).sum := by
  have hslots : ((List.range 32).map fun k => f (BitVec.ofNat 5 k)) = allSlots.map f := by
    rw [allSlots, List.map_map]
    rfl
  rw [hslots, allSlots_pairs]
  induction evenSlots with
  | nil => rfl
  | cons i l ih => simp [ih, add_assoc]

/-- Rule R289: a slot's share of a frame side is its exact contribution, or nothing. -/
theorem share_toInt (p : Params) (b : Bool) (y : Slot) (pan : Byte) :
    (share p b y pan).toInt = if b then contribution p y.pairOut pan.toNat else 0 := by
  cases b with
  | false => rfl
  | true =>
    have hexact := (panned_exact p y.pairOut pan).1
    rw [asr, Nat.cast_pow] at hexact
    exact hexact

/-- Rules R286, R289: a frame side is the exact sum of the slots' contributions. -/
theorem pairShares_toInt (p : Params) (pan : SlotRegs → Byte) (s t : State) :
    (pairShares p pan s t evenSlots).toInt = ((List.range 32).map fun k => let i := BitVec.ofNat 5 k
      if emits s t i then contribution p (t.slot i).pairOut (pan (s.slot i).regs).toNat else 0).sum := by
  rw [(pairShares_exact p pan s t).1]
  simp only [share_toInt]
  exact (sum_slots_eq_sum_pairs fun i =>
    if emits s t i then contribution p (t.slot i).pairOut (pan (s.slot i).regs).toNat else 0).symm

theorem panL_toNat (r : SlotRegs) : (panL r).toNat = r.pan.toNat % 2 ^ 8 := by
  rw [panL, extractLsb'_eq_ofNat_div, pow_zero, Nat.div_one, BitVec.toNat_ofNat]

theorem panR_toNat (r : SlotRegs) : (panR r).toNat = r.pan.toNat / 2 ^ 8 % 2 ^ 8 := by
  rw [panR, extractLsb'_eq_ofNat_div, BitVec.toNat_ofNat]

theorem emits_iff {s t : State} {i : SlotIx} :
    emits s t i = true ↔ (t.slot i).active = true ∧ ¬attached s i := by
  rw [emits, Bool.and_eq_true, Bool.not_eq_true', attachedSlave_eq_false_iff]

/-- Settles O48: `tick_spec` gives each side as the sum of the pairs' shares. -/
theorem tickFrameIsTheSumOfItsSlots : Obligations.TickFrameIsTheSumOfItsSlots := by
  intro s t hs ht
  obtain rfl : tick hw s = t := Host.Outcome.next.inj ht
  obtain ⟨-, hL, hR⟩ := tick_spec hw hs.roles
  refine ⟨emits s (tick hw s), fun _ => emits_iff, ?_, ?_⟩
  · rw [hL, pairShares_toInt]
    simp only [panL_toNat]
  · rw [hR, pairShares_toInt]
    simp only [panR_toNat]

end Sys2Proof.Machine
end

section
/-! The envelope commands of rules R228, R232, R235, R240, R243 against the spec's pseudocode, and the order of
the ESTARTs of a slot (rule R271). -/

namespace Sys2Proof.Machine

open Sys2Proof.Stated

/-! ### The commands -/

/-- Rules R39, R44: the latched copy of a register group, byte by byte. -/
theorem latched_eq (e : EnvRegs) : latched e = latch e := by
  simp only [latched, latch, byteOf_eq]

/-- Rule R228: the level test of ESTART. -/
theorem levelsZero_iff {lp : LatchedParams} :
    levelsZero lp = true ↔ lp.ll0 = 0#8 ∧ lp.ll1 = 0#8 ∧ lp.ll2 = 0#8 ∧ lp.ll3 = 0#8 := by
  simp only [levelsZero, Bool.and_eq_true, beq_iff_eq, and_assoc]

theorem startEnv_tva (p : Params) (x : Slot) :
    startEnv p x .tva = if levelsZero (latch (x.regs.env.get .tva)) then startRelease p (latchParams p x .tva) .tva
      else enterTimed p (latchParams p x .tva) .tva .p0 0 := rfl

/-- Rule R228. -/
theorem envStarted_eq (p : Params) (x : Slot) (c : Ctl) : envStarted p x c = startEnv p x c := by
  simp only [envStarted, latched_eq, seen_eq, releases_eq]
  cases c with
  | tva =>
    simp only [true_and, ← levelsZero_iff, startEnv_tva]
    exact if_congr Iff.rfl rfl (entersTimed_eq p (latchParams p x .tva) .tva .p0 0)
  | tvp => exact entersTimed_eq p (latchParams p x .tvp) .tvp .p0 0
  | tvf => exact entersTimed_eq p (latchParams p x .tvf) .tvf .p0 0

/-- Rule R240. -/
theorem envDecayed_eq (p : Params) (x : Slot) (c : Ctl) : envDecayed p x c = decayEnv p x c := by
  rw [envDecayed, releases_eq]
  rcases decayEnv_cases p x c with ⟨h, e⟩ | ⟨hrelease, hdead, e⟩ <;> rw [e]
  · exact if_pos h
  · exact if_neg (not_or.mpr ⟨hrelease, hdead⟩)

/-- Rule R243. -/
theorem envAborted_eq (p : Params) (x : Slot) : envAborted p x = abortEnv p x := by
  rw [envAborted, enters_eq]
  rfl

/-- Settles O31: the unit names the controller that ESTART starts. -/
theorem estartLatchesAndEntersTheFirstPhase : Obligations.EstartLatchesAndEntersTheFirstPhase := by
  intro s i u c hu
  simp only [exec_estart, withUnit_named hu, envStarted_eq]

/-- Settles O32: the unit names the controller that EDECAY releases. -/
theorem edecayReleasesUnlessReleasingOrDead : Obligations.EdecayReleasesUnlessReleasingOrDead := by
  intro s i u c hu
  simp only [exec_edecay, withUnit_named hu, envDecayed_eq]

/-- Settles O33: EABORT reads no unit, and `abortEnv` is rule R243's abort. -/
theorem eabortReleasesTheAmplitudeFast : Obligations.EabortReleasesTheAmplitudeFast := by
  intro s i
  rw [exec_eabort, funext (envAborted_eq hw)]

/-- Settles O34: the unit names the controller whose interrupt EINTR handles. -/
theorem eintrTakesThePhaseTransition : Obligations.EintrTakesThePhaseTransition := by
  intro s i u c hu
  simp only [exec_eintr, withUnit_named hu, interrupt_eq]

/-! ### The flag of an envelope step -/

/-- Rule R232: a step that raises no interrupt is the ramp's step. -/
theorem envStep_of_not_raised (p : Params) {x : Slot} {c : Ctl} (h : (rampStep (x.ramp.get c)).irq = false) :
    envStep p x c = x.modRamp c rampStep :=
  if_neg (by simp only [modRamp_ramp_same, h, Bool.false_eq_true, not_false_iff])

/-- Rule R232: a step that raises the interrupt clears the flag and handles it. -/
theorem envStep_of_raised (p : Params) {x : Slot} {c : Ctl} (h : (rampStep (x.ramp.get c)).irq = true) :
    envStep p x c = handleInterrupt p ((x.modRamp c rampStep).modRamp c clearIrq) c :=
  if_pos (by simp only [modRamp_ramp_same, h])

/-- Interrupt handling raises no flag. -/
theorem handleInterrupt_irq (p : Params) {x : Slot} {c : Ctl} (h : (x.ramp.get c).irq = false) :
    ((handleInterrupt p x c).ramp.get c).irq = false := by
  rcases handleInterrupt_cases p x c with ⟨-, e⟩ | ⟨-, e⟩ | ⟨ph, tgt, code, -, -, e⟩ <;> rw [e]
  · exact h
  · exact h
  · rw [entered_ramp, startRamp_irq]

/-- Settles O35: a raised flag is cleared before its interrupt is handled. -/
theorem envelopeStepConsumesItsInterrupt : Obligations.EnvelopeStepConsumesItsInterrupt := by
  intro p x c
  refine ⟨(envAdvanced_eq p x c).symm, ?_⟩
  cases hirq : (rampStep (x.ramp.get c)).irq
  · rw [envStep_of_not_raised p hirq, modRamp_ramp_same, hirq]
  · rw [envStep_of_raised p hirq]
    exact handleInterrupt_irq p (by rw [modRamp_ramp_same]; rfl)

/-! ### The order of ESTARTs -/

/-- What controller c reads when it enters a phase (rules R224, R227, R271) is the same in x and y. -/
structure EntryAgrees (c : Ctl) (x y : Slot) : Prop where
  regs : y.regs = x.regs
  lp : y.lp.get c = x.lp.get c
  ramp : y.ramp.get c = x.ramp.get c
  baseCutoff : c = .tvf → y.baseCutoff = x.baseCutoff

theorem enterTimed_agrees (p : Params) {x y : Slot} {c : Ctl} (h : EntryAgrees c x y) (ph : Phase) (j : Fin 4) :
    ∃ tgt code, enterTimed p x c ph j = entered p x c ph tgt code ∧
      enterTimed p y c ph j = entered p y c ph tgt code := by
  have htgt : ∀ lp level inp,
      p.targetFn c ph lp level inp y.baseCutoff = p.targetFn c ph lp level inp x.baseCutoff := by
    intro lp level inp
    by_cases hc : c = .tvf
    · rw [h.baseCutoff hc]
    · exact p.targetFn_cutoff c ph lp level inp _ _ hc
  refine ⟨_, _, rfl, ?_⟩
  simp only [enterTimed, makeCode, phaseTime, setPhase_lp, setPhase_ramp, setPhase_regs, h.regs, h.lp, h.ramp, htgt]
  rfl

theorem startRelease_tva_agrees (p : Params) {x y : Slot} (h : EntryAgrees .tva x y) :
    ∃ code, startRelease p x .tva = entered p x .tva .release 0#8 code ∧
      startRelease p y .tva = entered p y .tva .release 0#8 code := by
  refine ⟨_, rfl, ?_⟩
  simp only [startRelease, makeCode, h.lp, h.ramp]
  rfl

@[simp] theorem latchParams_lp_same (p : Params) (x : Slot) (c : Ctl) :
    (latchParams p x c).lp.get c = latch (x.regs.env.get c) := by
  cases c <;> rfl

/-- ESTART of controller c reads the parameter registers and ramp c only: BASE_CUTOFF, which TVF reads, is
latched first (rules R228, R236). -/
theorem startEnv_agrees (p : Params) {x y : Slot} {c : Ctl} (hregs : y.regs = x.regs)
    (hramp : y.ramp.get c = x.ramp.get c) :
    ∃ ph tgt code, startEnv p x c = entered p (latchParams p x c) c ph tgt code ∧
      startEnv p y c = entered p (latchParams p y c) c ph tgt code := by
  have hagree : EntryAgrees c (latchParams p x c) (latchParams p y c) := by
    refine ⟨by simp [hregs], by simp [hregs], by simp [hramp], ?_⟩
    rintro rfl
    simp only [latchParams, hregs]
    rfl
  obtain ⟨tgt, code, ex, ey⟩ := enterTimed_agrees p hagree .p0 0
  cases c with
  | tva =>
    simp only [startEnv_tva, hregs]
    cases levelsZero (latch (x.regs.env.get .tva))
    · exact ⟨.p0, tgt, code, ex, ey⟩
    · obtain ⟨code, ex, ey⟩ := startRelease_tva_agrees p hagree
      exact ⟨.release, 0#8, code, ex, ey⟩
  | tvp => exact ⟨.p0, tgt, code, ex, ey⟩
  | tvf => exact ⟨.p0, tgt, code, ex, ey⟩

/-- ESTARTs of two controllers commute: neither writes what the other reads. -/
theorem startEnv_comm (p : Params) (x : Slot) (c d : Ctl) :
    startEnv p (startEnv p x c) d = startEnv p (startEnv p x d) c := by
  by_cases hne : c = d
  · rw [hne]
  · obtain ⟨hregs, -, -, -, -, -, hramp, -⟩ := startEnv_frame p x c
    obtain ⟨hregs', -, -, -, -, -, hramp', -⟩ := startEnv_frame p x d
    obtain ⟨ph, tgt, code, e, e'⟩ := startEnv_agrees p hregs' (hramp' c hne)
    obtain ⟨ph', tgt', code', f, f'⟩ := startEnv_agrees p hregs (hramp d (Ne.symm hne))
    rw [e', f', e, f]
    cases c <;> cases d <;> first | exact absurd rfl hne | rfl

theorem modSlot_modSlot (s : State) (i : SlotIx) (f g : Slot → Slot) :
    (s.modSlot i f).modSlot i g = s.modSlot i fun x => g (f x) := by
  refine state_ext (fun j => ?_) rfl rfl rfl rfl rfl rfl rfl rfl rfl rfl
  simp only [slot_modSlot, if_true]
  split <;> rfl

/-- Settles O57: the two ESTARTs commute on the slot. -/
theorem estartOrderIsNotObservable : Obligations.EstartOrderIsNotObservable := by
  intro s i u v c d hu hv
  refine ⟨_, _, _, rfl, rfl, rfl, ?_⟩
  simp only [exec_estart, withUnit_named hu, withUnit_named hv, modSlot_modSlot, startEnv_comm]

end Sys2Proof.Machine
end

section
/-! The end of an envelope (rules R228, R229, R232, R233, R241-R243): a controller in RELEASE with a running ramp
counts its ramp's steps down to DEAD. -/

namespace Sys2Proof.Machine

open Sys2Proof.Stated

/-! ### One step of an ending envelope -/

theorem handleInterrupt_release (p : Params) {x : Slot} {c : Ctl} (h : x.phase.get c = .release) :
    handleInterrupt p x c = x.setPhase c .dead := by
  rcases handleInterrupt_cases p x c with ⟨hph, -⟩ | ⟨-, e⟩ | ⟨ph, _, _, hnext, -, -⟩
  · rw [h] at hph
    exact absurd hph (by simp)
  · exact e
  · rw [h] at hnext
    cases c <;> exact hnext.elim

theorem handleInterrupt_dead (p : Params) {x : Slot} {c : Ctl} (h : x.phase.get c = .dead) :
    handleInterrupt p x c = x := by
  rcases handleInterrupt_cases p x c with ⟨-, e⟩ | ⟨hph, -⟩ | ⟨ph, _, _, hnext, -, -⟩
  · exact e
  · rw [h] at hph
    exact absurd hph (by simp)
  · rw [h] at hnext
    cases c <;> exact hnext.elim

theorem envStep_of_raised_release (p : Params) {x : Slot} {c : Ctl} (hirq : (rampStep (x.ramp.get c)).irq = true)
    (h : x.phase.get c = .release) :
    envStep p x c = ((x.modRamp c rampStep).modRamp c clearIrq).setPhase c .dead :=
  (envStep_of_raised p hirq).trans (handleInterrupt_release p h)

theorem envStep_of_raised_dead (p : Params) {x : Slot} {c : Ctl} (hirq : (rampStep (x.ramp.get c)).irq = true)
    (h : x.phase.get c = .dead) : envStep p x c = (x.modRamp c rampStep).modRamp c clearIrq :=
  (envStep_of_raised p hirq).trans (handleInterrupt_dead p h)

/-- Rule R229: DEAD is the last phase, whatever its ramp does. -/
theorem envStep_dead (p : Params) {x : Slot} {c : Ctl} (h : x.phase.get c = .dead) :
    (envStep p x c).phase.get c = .dead := by
  cases hirq : (rampStep (x.ramp.get c)).irq
  · rw [envStep_of_not_raised p hirq]
    exact h
  · rw [envStep_of_raised_dead p hirq h]
    exact h

/-! ### Steps to DEAD -/

/-- Controller c of the slot is in DEAD (n = 0), or in RELEASE with a ramp that raises its interrupt in n
steps. -/
inductive Slot.EndsIn (x : Slot) (c : Ctl) : Nat → Prop where
  | dead (phase : x.phase.get c = .dead) : x.EndsIn c 0
  | releasing {n : Nat} (phase : x.phase.get c = .release) (running : (x.ramp.get c).Running)
      (left : (x.ramp.get c).remaining = n + 1) : x.EndsIn c (n + 1)

theorem Slot.EndsIn.phase_eq {x : Slot} {c : Ctl} {n : Nat} (h : x.EndsIn c n) :
    x.phase.get c = if 0 < n then .release else .dead := by
  cases h with
  | dead phase => exact phase
  | releasing phase _ _ => exact phase

/-- Only the controller's own phase and ramp count. -/
theorem Slot.EndsIn.congr {x y : Slot} {c : Ctl} {n : Nat} (h : x.EndsIn c n)
    (hphase : y.phase.get c = x.phase.get c) (hramp : y.ramp.get c = x.ramp.get c) : y.EndsIn c n := by
  cases h with
  | dead phase => exact .dead (hphase.trans phase)
  | releasing phase running left => exact .releasing (hphase.trans phase) (hramp ▸ running) (hramp ▸ left)

/-- Rules R229, R232: an envelope step is one step nearer to DEAD, and takes the last one with the interrupt. -/
theorem Slot.EndsIn.after_envStep {x : Slot} {c : Ctl} {n : Nat} (h : x.EndsIn c n) (p : Params) :
    (envStep p x c).EndsIn c (n - 1) := by
  cases h with
  | dead phase => exact .dead (envStep_dead p phase)
  | @releasing n phase running left =>
    obtain ⟨hrun, hleft⟩ := rampStep_running running
    rw [left] at hleft
    cases n with
    | zero =>
      rw [envStep_of_raised_release p (hrun.irq_iff.mpr hleft) phase]
      exact .dead (setPhase_phase_same _ c .dead)
    | succ n =>
      have hquiet : (rampStep (x.ramp.get c)).irq = false := by
        rw [← Bool.not_eq_true, hrun.irq_iff, hleft]
        exact Nat.succ_ne_zero n
      rw [envStep_of_not_raised p hquiet]
      exact .releasing phase (by rwa [modRamp_ramp_same]) (by rwa [modRamp_ramp_same])

theorem Slot.EndsIn.iterate_envStep {x : Slot} {c : Ctl} {n : Nat} (h : x.EndsIn c n) (p : Params) (m : Nat) :
    ((fun z => envStep p z c)^[m] x).EndsIn c (n - m) := by
  induction m with
  | zero => exact h
  | succ m ih =>
    rw [Function.iterate_succ_apply']
    exact ih.after_envStep p

/-- Rule R242: the phase of an envelope that ends in n steps. -/
theorem Slot.EndsIn.iterate_phase {x : Slot} {c : Ctl} {n : Nat} (h : x.EndsIn c n) (p : Params) (m : Nat) :
    ((fun z => envStep p z c)^[m] x).phase.get c = if m < n then .release else .dead := by
  rw [(h.iterate_envStep p m).phase_eq]
  simp only [Nat.sub_pos_iff_lt]

/-- A moving ramp in RELEASE ends the envelope seven steps after rule R139's step. -/
theorem Slot.EndsIn.of_moving {x : Slot} {c : Ctl} (hphase : x.phase.get c = .release)
    (hok : (x.ramp.get c).Ok) (hmoving : (x.ramp.get c).rstate = .moving) :
    x.EndsIn c ((x.ramp.get c).stepsLeft + 7) :=
  .releasing hphase ⟨hok, by simp [hmoving], by simp [hmoving]⟩ (remaining_moving hmoving)

/-! ### Starting the end -/

/-- The release that `entered` starts moves, so it ends, and the step of rule R139 is at most MAX_CURRENT (rules
R143, R241). -/
theorem entered_release_endsIn (p : Params) {x : Slot} {c : Ctl} (tgt : Byte) {code : Byte}
    (hcur : (x.ramp.get c).cur.toNat ≤ maxCurrent) (hcode : code ≠ 0#8) :
    ((entered p x c .release tgt code).ramp.get c).stepsLeft ≤ maxCurrent ∧
    (entered p x c .release tgt code).EndsIn c
      (((entered p x c .release tgt code).ramp.get c).stepsLeft + 7) := by
  have hramp := entered_ramp p x c .release tgt code
  have hok := startRamp_ok p hcur tgt code
  have hmoving : (startRamp p (x.ramp.get c) tgt code).rstate = .moving := if_neg hcode
  refine ⟨?_, .of_moving (entered_phase p x c .release tgt code) ?_ ?_⟩ <;> rw [hramp]
  · exact stepsLeft_le (hok.moving hmoving) hcur
  · exact hok
  · exact hmoving

theorem abortCode_ne_zero (p : Params) : p.abortCode ≠ 0#8 := fun h => by
  have := p.abortCode_desc
  rw [h] at this
  exact absurd this (by decide)

theorem abortEnv_of_not_dead (p : Params) {x : Slot} (h : x.phase.tva ≠ .dead) :
    abortEnv p x = entered p x .tva .release 0#8 p.abortCode := if_neg h

theorem largeTarget_zero : largeTarget 0#8 = 0 := Nat.zero_mul _

/-- Settles O36: the release's ramp has k + 7 steps left. -/
theorem releaseAlwaysEndsSevenStepsAfterItsTarget : Obligations.ReleaseAlwaysEndsSevenStepsAfterItsTarget := by
  intro p x c hcur hrelease hdead y q k
  obtain ⟨tgt, code, hcode, e⟩ := startRelease_eq p x c
  have hy : y = entered p x c .release tgt code := by
    rcases decayEnv_cases p x c with ⟨h, -⟩ | ⟨-, -, h⟩
    · exact absurd h (not_or.mpr ⟨hrelease, hdead⟩)
    · exact h.trans e
  have hend := entered_release_endsIn p tgt hcur hcode
  rw [← hy] at hend
  exact ⟨hend.1, hend.2.iterate_phase p⟩

/-! ### An envelope of no level -/

/-- The ramp rests at the target 0. -/
structure Ramp.AtZero (r : Ramp) : Prop where
  cur : r.cur = 0#26
  tgt : r.tgt = 0#8

/-- Rule R135: a step of a ramp at its target 0 does not move it, in either direction. -/
theorem Ramp.AtZero.after_rampStep {r : Ramp} (h : r.AtZero) : (rampStep r).AtZero := by
  refine ⟨?_, (rampStep_tgt r).trans h.tgt⟩
  cases hr : r.rstate with
  | idle => rw [rampStep_idle hr, h.cur]
  | done => rw [rampStep_done hr, h.cur]
  | counting =>
    simp only [rampStep, hr, countRamp]
    split <;> exact h.cur
  | moving =>
    have hreach : moveRamp r = reachTarget r := by
      simp [moveRamp, h.cur, h.tgt, largeTarget_zero]
    simp only [rampStep, hr, hreach]
    apply BitVec.eq_of_toNat_eq
    rw [reachTarget_cur, h.tgt, largeTarget_zero]
    rfl

/-- An ending envelope starts no new ramp. -/
theorem Slot.EndsIn.envStep_ramp {x : Slot} {c : Ctl} {n : Nat} (h : x.EndsIn c n) (p : Params) :
    (envStep p x c).ramp.get c = rampStep (x.ramp.get c) ∨
    (envStep p x c).ramp.get c = clearIrq (rampStep (x.ramp.get c)) := by
  cases hirq : (rampStep (x.ramp.get c)).irq
  · rw [envStep_of_not_raised p hirq, modRamp_ramp_same]
    exact .inl rfl
  · right
    cases h with
    | dead phase => rw [envStep_of_raised_dead p hirq phase, modRamp_ramp_same, modRamp_ramp_same]
    | releasing phase _ _ =>
      rw [envStep_of_raised_release p hirq phase, setPhase_ramp, modRamp_ramp_same, modRamp_ramp_same]

theorem Slot.EndsIn.envStep_atZero {x : Slot} {c : Ctl} {n : Nat} (h : x.EndsIn c n) (p : Params)
    (hzero : (x.ramp.get c).AtZero) : ((envStep p x c).ramp.get c).AtZero := by
  have hstep := hzero.after_rampStep
  rcases h.envStep_ramp p with e | e <;> rw [e]
  · exact hstep
  · exact ⟨hstep.cur, hstep.tgt⟩

theorem Slot.EndsIn.iterate_atZero {x : Slot} {c : Ctl} {n : Nat} (h : x.EndsIn c n) (p : Params)
    (hzero : (x.ramp.get c).AtZero) (m : Nat) :
    (((fun z => envStep p z c)^[m] x).ramp.get c).AtZero := by
  induction m with
  | zero => exact hzero
  | succ m ih =>
    rw [Function.iterate_succ_apply']
    exact (h.iterate_envStep p m).envStep_atZero p ih

theorem Ramp.AtZero.stepsLeft {r : Ramp} (h : r.AtZero) : r.stepsLeft = 1 := by
  rw [Ramp.stepsLeft, h.cur, h.tgt, largeTarget_zero, stepsToTarget]
  split <;> rfl

/-- Rule R227: TVA releases toward 0. -/
theorem startRelease_tva_eq (p : Params) (x : Slot) :
    ∃ code, code ≠ 0#8 ∧ startRelease p x .tva = entered p x .tva .release 0#8 code := by
  obtain ⟨tgt, code, hcode, e⟩ := startRelease_eq p x .tva
  have htgt : 0#8 = tgt := by
    have htarget : ((startRelease p x .tva).ramp.get .tva).tgt = 0#8 := rfl
    rwa [e, entered_ramp, startRamp_tgt, eq_comm] at htarget
  exact ⟨code, hcode, htgt ▸ e⟩

/-- Rule R228: a TVA without a level starts with its release, toward 0. -/
theorem startEnv_of_levels_zero (p : Params) {x : Slot} (h0 : (latched x.regs.env.tva).ll0 = 0#8)
    (h1 : (latched x.regs.env.tva).ll1 = 0#8) (h2 : (latched x.regs.env.tva).ll2 = 0#8)
    (h3 : (latched x.regs.env.tva).ll3 = 0#8) :
    ∃ code, code ≠ 0#8 ∧ startEnv p x .tva = entered p (latchParams p x .tva) .tva .release 0#8 code := by
  have hzero : levelsZero (latch (x.regs.env.get .tva)) = true := by
    rw [levelsZero_iff, ← latched_eq]
    exact ⟨h0, h1, h2, h3⟩
  obtain ⟨code, hcode, e⟩ := startRelease_tva_eq p (latchParams p x .tva)
  exact ⟨code, hcode, (startEnv_tva p x).trans ((if_pos hzero).trans e)⟩

/-- Settles O37: the release starts at its target, so its ramp has 8 steps left and none that moves it. -/
theorem allLevelsZeroEndsInEightSteps : Obligations.AllLevelsZeroEndsInEightSteps := by
  intro p x hcur h0 h1 h2 h3 n
  obtain ⟨code, hcode, e⟩ := startEnv_of_levels_zero p h0 h1 h2 h3
  have hlatch : ((latchParams p x .tva).ramp.get .tva).cur = 0#26 := hcur
  have hzero : ((startEnv p x .tva).ramp.get .tva).AtZero := by
    rw [e, entered_ramp]
    exact ⟨hlatch, rfl⟩
  have hend := (entered_release_endsIn p (x := latchParams p x .tva) (c := .tva) 0#8
    (by rw [hlatch]; exact Nat.zero_le _) hcode).2
  rw [← e, hzero.stepsLeft] at hend
  exact ⟨hend.iterate_phase p n, (hend.iterate_atZero p hzero n).cur⟩

/-- Settles O38: an abort starts a release toward 0 with ABORT_CODE, which is descending. -/
theorem abortEndsSevenStepsAfterReachingZero : Obligations.AbortEndsSevenStepsAfterReachingZero := by
  intro p x hcur hdead y k
  have hframe : EnvFrame .tva x y := abortEnv_frame p x
  have hy : y = entered p x .tva .release 0#8 p.abortCode := abortEnv_of_not_dead p hdead
  have hend := entered_release_endsIn p (x := x) (c := .tva) 0#8 hcur (abortCode_ne_zero p)
  have hk : ((entered p x .tva .release 0#8 p.abortCode).ramp.get .tva).stepsLeft = k := by
    rw [entered_ramp, Ramp.stepsLeft, startRamp_cur, startRamp_tgt, largeTarget_zero, startRamp_inc, ← increment_eq,
      startRamp_desc, p.abortCode_desc]
    rfl
  rw [hk, ← hy] at hend
  exact ⟨hframe.phase .tvp (by decide), hframe.phase .tvf (by decide), hframe.ramp .tvp (by decide),
    hframe.ramp .tvf (by decide), hend.1, hend.2.iterate_phase p⟩

end Sys2Proof.Machine
end

section
/-! Rules R242, R244, R282, R292: a slot whose amplitude envelope ends in n samples is deactivated by n + 1 TICKs. -/

namespace Sys2Proof.Machine

open Sys2Proof.Stated

/-- One sample of the slot is one step of its amplitude envelope (rule R287): the steps of pitch and filter and
the wave generator leave it alone. -/
theorem Slot.EndsIn.after_envSample {x : Slot} {n : Nat} (h : x.EndsIn .tva n) (p : Params) :
    (envSample p x).EndsIn .tva (n - 1) := by
  have hpitch := envStep_frame p x .tvp
  have hfilter := envStep_frame p (envStep p x .tvp) .tvf
  have hbefore : (envStep p (envStep p x .tvp) .tvf).EndsIn .tva n :=
    h.congr ((hfilter.phase .tva (by decide)).trans (hpitch.phase .tva (by decide)))
      ((hfilter.ramp .tva (by decide)).trans (hpitch.ramp .tva (by decide)))
  exact (hbefore.after_envStep p).congr rfl rfl

/-- Rules R242, R282: a TICK deactivates a slot whose amplitude envelope is DEAD, and takes any other active slot
that it does not deactivate one step nearer to it. -/
theorem Ticked.endsIn {p : Params} {s t : State} {i : SlotIx} {n : Nat} (h : Ticked p s t i)
    (hn : (s.slot i).EndsIn .tva n) :
    (t.slot i).active = false ∨ 0 < n ∧ (t.slot i).EndsIn .tva (n - 1) := by
  cases ht : (t.slot i).active
  · exact .inl rfl
  · obtain ⟨halive, -⟩ := h.survivor ht
    have hpos : 0 < n := by
      have hphase : (s.slot i).phase.tva ≠ .dead := (alive_iff.mp halive).1
      cases hn with
      | dead phase => exact absurd phase hphase
      | releasing => exact Nat.succ_pos _
    refine .inr ⟨hpos, ?_⟩
    have hsample := hn.after_envSample p
    cases hatt : attachedSlave s i
    · rw [h.output ht hatt]
      exact hsample.congr rfl rfl
    · rw [h.slave ht hatt]
      exact hsample.congr rfl rfl

theorem Ticked.stays_inactive {p : Params} {s t : State} {i : SlotIx} (h : Ticked p s t i)
    (hs : (s.slot i).active = false) : (t.slot i).active = false := by
  rw [h.inactive hs, hs]

/-- Settles O49: after n TICKs the slot is inactive, or its amplitude envelope still has k + 7 - n steps to make. -/
theorem releasedSlotIsDeactivatedByTicks : Obligations.ReleasedSlotIsDeactivatedByTicks := by
  intro s i f hs _ hphase hmoving h0 htick r n hn
  have hnext : ∀ m, tick hw (f m) = f (m + 1) := fun m => Host.Outcome.next.inj (htick m)
  have hsafe : ∀ m, (f m).InvWith hw := by
    intro m
    induction m with
    | zero => exact h0 ▸ hs
    | succ m ih => exact hnext m ▸ ih.tick
  have hticked : ∀ m, Ticked hw (f m) (f (m + 1)) i := fun m => by
    rw [← hnext m]
    exact (tick_spec hw (hsafe m).roles).1 i
  have hstart : (s.slot i).EndsIn .tva (r.stepsLeft + 7) :=
    .of_moving hphase ((hs.slots i).ramps .tva) hmoving
  have hends : ∀ m, ((f m).slot i).active = false ∨
      m ≤ r.stepsLeft + 7 ∧ ((f m).slot i).EndsIn .tva (r.stepsLeft + 7 - m) := by
    intro m
    induction m with
    | zero => exact .inr ⟨Nat.zero_le _, h0 ▸ hstart⟩
    | succ m ih =>
      rcases ih with hina | ⟨-, hend⟩
      · exact .inl ((hticked m).stays_inactive hina)
      · exact ((hticked m).endsIn hend).imp_right fun ⟨hpos, hend⟩ => ⟨by omega, hend⟩
  rcases hends n with hina | ⟨hle, -⟩
  · exact hina
  · have hk : r.stepsLeft + 8 ≤ n := hn
    omega

end Sys2Proof.Machine
end

section
/-! Rule R234: the order in which the commands move a controller's phase. -/

namespace Sys2Proof.Machine

open Sys2Proof.Stated

/-! ### Phases in order -/

/-- A controller's phase moved forward from ph to q, or back once from VIB4 to VIB3 (rules R230, R234). -/
def PhaseForward (c : Ctl) (ph q : Phase) : Prop :=
  phaseNo ph ≤ phaseNo q ∨ c = .tvp ∧ ph = .p4 ∧ q = .p3

theorem PhaseForward.refl (c : Ctl) (ph : Phase) : PhaseForward c ph ph := .inl (Nat.le_refl _)

/-- Between VIB4 and VIB3 there is no phase, so two moves are a move. -/
theorem PhaseForward.trans {c : Ctl} {a b d : Phase} (h : PhaseForward c a b) (k : PhaseForward c b d) :
    PhaseForward c a d := by
  rcases h with h | ⟨hc, rfl, rfl⟩ <;> rcases k with k | ⟨hc, hb, rfl⟩
  · exact .inl (h.trans k)
  · subst hb
    cases a with
    | p4 => exact .inr ⟨hc, rfl, rfl⟩
    | p0 | p1 | p2 | p3 => exact .inl (by decide)
    | release | dead => exact absurd h (by decide)
  · cases d with
    | p3 => exact .inr ⟨hc, rfl, rfl⟩
    | p4 | release | dead => exact .inl (by decide)
    | p0 | p1 | p2 => exact absurd k (by decide)
  · exact nomatch hb

/-- Rules R229, R230: the one interrupt that leads back is VIB4's. -/
theorem PhaseForward.of_nextPhase {c : Ctl} {ph q : Phase} (h : nextPhase c ph q) : PhaseForward c ph q := by
  cases c
  case tvp =>
    cases ph with
    | p4 => exact .inr ⟨rfl, rfl, h⟩
    | release | dead => exact h.elim
    | p0 | p1 | p2 | p3 => subst h; exact .inl (by decide)
  all_goals
    cases ph with
    | p3 => rcases h with rfl | rfl <;> exact .inl (by decide)
    | p4 | release | dead => exact h.elim
    | p0 | p1 | p2 => subst h; exact .inl (by decide)

/-- Every phase but DEAD comes before RELEASE, or is it. -/
theorem PhaseForward.to_release (c : Ctl) {ph : Phase} (h : ph ≠ .dead) : PhaseForward c ph .release := by
  cases ph with
  | dead => exact absurd rfl h
  | _ => exact .inl (by decide)

theorem PhaseForward.to_dead (c : Ctl) (ph : Phase) : PhaseForward c ph .dead := .inl (by cases ph <;> decide)

/-! ### Slots -/

/-- Every controller's phase moved forward from the slot x to y. -/
def PhasesForward (x y : Slot) : Prop := ∀ c, PhaseForward c (x.phase.get c) (y.phase.get c)

theorem PhasesForward.of_eq {x y : Slot} (h : y.phase = x.phase) : PhasesForward x y := fun c => h ▸ .refl c _

theorem PhasesForward.trans {x y z : Slot} (h : PhasesForward x y) (k : PhasesForward y z) : PhasesForward x z :=
  fun c => (h c).trans (k c)

/-- An operation of controller c moves its phase only. -/
theorem EnvFrame.phasesForward {c : Ctl} {x y : Slot} (h : EnvFrame c x y)
    (hc : PhaseForward c (x.phase.get c) (y.phase.get c)) : PhasesForward x y := fun d => by
  by_cases hd : d = c
  · exact hd ▸ hc
  · rw [h.phase d hd]
    exact .refl d _

section
variable (p : Params) (x : Slot) (c : Ctl)

theorem modRamp_phasesForward (f : Ramp → Ramp) : PhasesForward x (x.modRamp c f) := .of_eq rfl

theorem initWave_phasesForward : PhasesForward x (initWave p x) := .of_eq rfl

theorem generate_phasesForward : PhasesForward x (generate p x) := .of_eq rfl

theorem deactivateWave_phasesForward : PhasesForward x (deactivateWave x) := .of_eq rfl

theorem withPairOut_phasesForward (v : BitVec 16) : PhasesForward x { x with pairOut := v } := .of_eq rfl

theorem handleInterrupt_phasesForward : PhasesForward x (handleInterrupt p x c) := by
  refine (handleInterrupt_frame p x c).phasesForward ?_
  rcases handleInterrupt_cases p x c with ⟨-, e⟩ | ⟨-, e⟩ | ⟨ph, tgt, code, hnext, -, e⟩ <;> rw [e]
  · exact .refl c _
  · rw [setPhase_phase_same]
    exact .to_dead c _
  · rw [entered_phase]
    exact .of_nextPhase hnext

theorem envStep_phasesForward : PhasesForward x (envStep p x c) := by
  cases hirq : (rampStep (x.ramp.get c)).irq
  · rw [envStep_of_not_raised p hirq]
    exact .of_eq rfl
  · rw [envStep_of_raised p hirq]
    exact handleInterrupt_phasesForward p ((x.modRamp c rampStep).modRamp c clearIrq) c

theorem envSample_phasesForward : PhasesForward x (envSample p x) := by
  have hpitch := envStep_phasesForward p x .tvp
  have hfilter := envStep_phasesForward p (envStep p x .tvp) .tvf
  have hamp := envStep_phasesForward p (envStep p (envStep p x .tvp) .tvf) .tva
  exact ((hpitch.trans hfilter).trans hamp).trans (generate_phasesForward p _)

theorem decayEnv_phasesForward : PhasesForward x (decayEnv p x c) := by
  refine (decayEnv_frame p x c).phasesForward ?_
  rcases decayEnv_cases p x c with ⟨-, e⟩ | ⟨-, hdead, e⟩ <;> rw [e]
  · exact .refl c _
  · obtain ⟨tgt, code, -, e'⟩ := startRelease_eq p x c
    rw [e', entered_phase]
    exact .to_release c hdead

theorem decaySlot_phasesForward : PhasesForward x (decaySlot p x) := by
  unfold decaySlot
  split
  · exact (decayEnv_phasesForward p x .tva).trans
      ((decayEnv_phasesForward p _ .tvp).trans (decayEnv_phasesForward p _ .tvf))
  · exact .of_eq rfl

theorem abortEnv_phasesForward : PhasesForward x (abortEnv p x) := by
  by_cases hdead : x.phase.tva = .dead
  · rw [abortEnv, if_pos hdead]
    exact .of_eq rfl
  · refine (abortEnv_frame p x).phasesForward ?_
    rw [abortEnv_of_not_dead p hdead, entered_phase]
    exact .to_release .tva hdead

theorem abortSlot_phasesForward : PhasesForward x (abortSlot p x) := by
  unfold abortSlot
  split
  · exact abortEnv_phasesForward p x
  · exact .of_eq rfl

end

/-! ### States -/

section
variable (s : State)

theorem modSlot_phasesForward {i : SlotIx} {f : Slot → Slot} (hf : PhasesForward (s.slot i) (f (s.slot i)))
    (k : SlotIx) : PhasesForward (s.slot k) ((s.modSlot i f).slot k) :=
  modSlot_slots (P := fun k x => PhasesForward (s.slot k) x) (fun _ => .of_eq rfl) hf k

/-- The same, for a command that returns a value in RESULT. -/
theorem modSlot_result_phasesForward {i : SlotIx} {f : Slot → Slot} (v : Word)
    (hf : PhasesForward (s.slot i) (f (s.slot i))) (k : SlotIx) :
    PhasesForward (s.slot k) (State.slot { s.modSlot i f with result := v } k) :=
  modSlot_phasesForward s hf k

theorem deactivate_phasesForward (i k : SlotIx) : PhasesForward (s.slot k) ((deactivate s i).slot k) := by
  rcases deactivate_slot s i k with e | ⟨-, e⟩ <;> rw [e] <;> exact .of_eq rfl

theorem tick_phasesForward (p : Params) (k : SlotIx) : PhasesForward (s.slot k) ((tick p s).slot k) :=
  tick_slots p (fun k x => PhasesForward (s.slot k) x)
    (fun _ x h _ _ => h.trans (envSample_phasesForward p x)) (fun _ _ _ h => h) (fun _ _ h _ => h) s
    (fun _ => .of_eq rfl) k

theorem withUnit_phasesForward {u : BitVec 2} {f : Ctl → State} {k : SlotIx}
    (hf : ∀ c, PhasesForward (s.slot k) ((f c).slot k)) : PhasesForward (s.slot k) ((withUnit u s f).slot k) := by
  rcases withUnit_cases u s f with ⟨c, -, e⟩ | ⟨-, e⟩ <;> rw [e]
  · exact hf c
  · exact .of_eq rfl

end

theorem unitNames_of_ctlOfUnit {u : BitVec 2} {c : Ctl} (h : ctlOfUnit u = some c) : unitNames u c := by
  unfold unitNames
  revert u
  cases c <;> decide

/-! ### Commands -/

/-- What rule R234 says of controller c of slot k over the command i from the state s to t. -/
def PhaseMoves (i : Instr) (s t : State) (k : SlotIx) (c : Ctl) : Prop :=
  PhaseForward c ((s.slot k).phase.get c) ((t.slot k).phase.get c) ∨
    (∃ u, unitNames u c ∧ i = .estart k u) ∨ i = .pstart k

/-- ESTART starts the one controller that its unit names, from any phase. -/
theorem estart_phaseMoves (p : Params) (s : State) (j : SlotIx) (u : BitVec 2) (k : SlotIx) (c : Ctl) :
    PhaseMoves (.estart j u) s (withUnit u s fun d => s.modSlot j fun x => startEnv p x d) k c := by
  rcases withUnit_cases u s fun d => s.modSlot j fun x => startEnv p x d with ⟨d, hu, e⟩ | ⟨-, e⟩
  · unfold PhaseMoves
    rw [e]
    by_cases hk : k = j
    · subst hk
      by_cases hc : c = d
      · exact .inr (.inl ⟨u, unitNames_of_ctlOfUnit (hc ▸ hu), rfl⟩)
      · obtain ⟨-, -, -, -, -, -, -, hphase⟩ := startEnv_frame p (s.slot k) d
        rw [slot_modSlot_same, hphase c hc]
        exact .inl (.refl c _)
    · rw [slot_modSlot_ne s _ hk]
      exact .inl (.refl c _)
  · unfold PhaseMoves
    rw [e]
    exact .inl (.refl c _)

/-- PSTART starts its own slot; of the others it can only deactivate one. -/
theorem pstart_phaseMoves (p : Params) (s : State) (j k : SlotIx) (c : Ctl) :
    PhaseMoves (.pstart j) s (doPstart p j s) k c := by
  by_cases hk : j = k
  · exact .inr (.inr (hk ▸ rfl))
  · refine .inl ?_
    cases hrange : pcmRefused p (s.slot j)
    · obtain ⟨u, e, hu⟩ := pstart_shape hrange
      rw [e, slot_modSlot_ne u _ (Ne.symm hk)]
      rcases hu with ⟨-, rfl⟩ | ⟨-, rfl⟩
      · exact .refl c _
      · exact deactivate_phasesForward (s.record .staleState) j k c
    · rw [doPstart, if_pos hrange]
      exact .refl c _

/-- Every command answers a state to which the phases move as rule R234 says. -/
theorem exec_phaseMoves (i : Instr) (s : State) (k : SlotIx) (c : Ctl) :
    ∃ t, exec i s = .next t ∧ PhaseMoves i s t k c := by
  have hslot : ∀ {j : SlotIx} {f : Slot → Slot}, (∀ x, PhasesForward x (f x)) →
      PhasesForward (s.slot k) ((s.modSlot j f).slot k) := fun hf => modSlot_phasesForward s (hf _) k
  cases i with
  | nop => exact ⟨_, rfl, .inl (.refl c _)⟩
  | rstart j u a b =>
    exact ⟨_, rfl, .inl (withUnit_phasesForward s (fun d => hslot fun x => modRamp_phasesForward x d _) c)⟩
  | rnext j u =>
    refine ⟨_, rfl, .inl (withUnit_phasesForward s (fun d => ?_) c)⟩
    exact modSlot_result_phasesForward s _ (modRamp_phasesForward _ d _) k
  | rchki j u =>
    refine ⟨_, rfl, .inl (withUnit_phasesForward s (fun d => ?_) c)⟩
    exact modSlot_result_phasesForward s _ (modRamp_phasesForward _ d _) k
  | rreset j u =>
    exact ⟨_, rfl, .inl (withUnit_phasesForward s (fun d => hslot fun x => modRamp_phasesForward x d _) c)⟩
  | winit j =>
    refine ⟨_, rfl, .inl ?_⟩
    unfold doWinit
    split
    · exact .refl c _
    · exact hslot (initWave_phasesForward _) c
  | wgen j => exact ⟨_, rfl, .inl (hslot (generate_phasesForward _) c)⟩
  | wdeact j => exact ⟨_, rfl, .inl (hslot deactivateWave_phasesForward c)⟩
  | pairout j => exact ⟨_, rfl, .inl (modSlot_result_phasesForward s _ (withPairOut_phasesForward _ _) k c)⟩
  | estart j u => exact ⟨_, rfl, estart_phaseMoves Config.hardware s j u k c⟩
  | edecay j u =>
    exact ⟨_, rfl, .inl (withUnit_phasesForward s (fun d => hslot fun x => decayEnv_phasesForward _ x d) c)⟩
  | eabort j => exact ⟨_, rfl, .inl (hslot (abortEnv_phasesForward _) c)⟩
  | eintr j u =>
    refine ⟨_, rfl, .inl (withUnit_phasesForward s (fun d => ?_) c)⟩
    exact hslot fun x => handleInterrupt_phasesForward _ x d
  | pstart j => exact ⟨_, rfl, pstart_phaseMoves Config.hardware s j k c⟩
  | pstop j => exact ⟨_, rfl, .inl (deactivate_phasesForward s j k c)⟩
  | pdecay j => exact ⟨_, rfl, .inl (hslot (decaySlot_phasesForward _) c)⟩
  | pabort j => exact ⟨_, rfl, .inl (hslot (abortSlot_phasesForward _) c)⟩
  | tick => exact ⟨_, rfl, .inl (tick_phasesForward s Config.hardware k c)⟩

/-- Settles O39, command by command. -/
theorem phasesOnlyMoveForward : Obligations.PhasesOnlyMoveForward := by
  intro i s t ht k c
  obtain ⟨t', ht', hmoves⟩ := exec_phaseMoves i s k c
  obtain rfl : t' = t := Host.Outcome.next.inj (ht'.symm.trans ht)
  exact or_assoc.mp hmoves

end Sys2Proof.Machine
end

section
/-! Deactivation and the partial commands of rules R270-R281, the TICK of a block with no active slot, and what
can make a slot active: the model against the spec's pseudocode. -/

namespace Sys2Proof.Machine

open Sys2Proof.Stated

/-! ### The partner that a deactivation takes with it -/

theorem coupledSlot_of_independent {s : State} {i : SlotIx} (h : (s.slot i).role = .independent) :
    coupledSlot s i = none := by
  simp only [coupledSlot, h]

theorem coupledSlot_of_ringMaster {s : State} {i : SlotIx} (h : (s.slot i).role = .ringMaster) :
    coupledSlot s i = if (s.slot (i + 1#5)).active = true ∧ (s.slot (i + 1#5)).role = .ringSlave then
      some (i + 1#5) else none := by
  simp only [coupledSlot, h, Bool.and_eq_true, beq_iff_eq]

theorem coupledSlot_of_ringSlave {s : State} {i : SlotIx} (h : (s.slot i).role = .ringSlave) :
    coupledSlot s i = if (s.slot i).mix = .ringOnly ∧ (s.slot (i - 1#5)).active = true ∧
      (s.slot (i - 1#5)).role = .ringMaster then some (i - 1#5) else none := by
  simp only [coupledSlot, h, Bool.and_eq_true, beq_iff_eq, and_assoc]

/-- Rule R281: what is done with the partner, or without one. -/
theorem coupledSlot_elim {α : Type} (s : State) (i : SlotIx) (a : α) (f : SlotIx → α) :
    (coupledSlot s i).elim a f =
      if (s.slot i).role = .ringMaster ∧ (s.slot (i + 1#5)).active = true ∧
        (s.slot (i + 1#5)).role = .ringSlave then f (i + 1#5)
      else if (s.slot i).role = .ringSlave ∧ (s.slot i).mix = .ringOnly ∧ (s.slot (i - 1#5)).active = true ∧
        (s.slot (i - 1#5)).role = .ringMaster then f (i - 1#5)
      else a := by
  cases hrole : (s.slot i).role with
  | independent => simp [coupledSlot_of_independent hrole]
  | ringMaster => simp [coupledSlot_of_ringMaster hrole, apply_ite (Option.elim · a f)]
  | ringSlave => simp [coupledSlot_of_ringSlave hrole, apply_ite (Option.elim · a f)]

section
variable (x : Slot)
@[simp] theorem silenced_active : (silenced x).active = false := rfl
@[simp] theorem silenced_role : (silenced x).role = x.role := rfl
@[simp] theorem silenced_mix : (silenced x).mix = x.mix := rfl
end

/-- The coupling reads only what a slot's own deactivation leaves alone. -/
theorem coupledSlot_clearActive_self (s : State) (i : SlotIx) :
    coupledSlot (clearActive s i) i = coupledSlot s i := by
  simp only [coupledSlot, clearActive_slot_same, silenced_role, silenced_mix, clearActive_slot_ne s (slot_succ_ne i),
    clearActive_slot_ne s (slot_pred_ne i)]

/-- Rule R280, where the recursion ends: the partner's one possible partner is the slot itself, inactive by
then. -/
theorem coupledSlot_clearActive_partner {s : State} {i t : SlotIx} (h : coupledSlot s i = some t) :
    coupledSlot (clearActive s i) t = none := by
  have hpartner : (clearActive s i).slot t = s.slot t := clearActive_slot_ne s (coupledSlot_ne h)
  cases hrole : (s.slot i).role with
  | independent =>
    rw [coupledSlot_of_independent hrole] at h
    cases h
  | ringMaster =>
    rw [coupledSlot_of_ringMaster hrole, Option.ite_none_right_eq_some] at h
    obtain ⟨⟨-, hslave⟩, ht⟩ := h
    obtain rfl := Option.some.inj ht
    rw [coupledSlot_of_ringSlave (hpartner ▸ hslave), slot_succ_pred, clearActive_slot_same, silenced_active]
    simp only [Bool.false_eq_true, false_and, and_false, if_false]
  | ringSlave =>
    rw [coupledSlot_of_ringSlave hrole, Option.ite_none_right_eq_some] at h
    obtain ⟨⟨-, -, hmaster⟩, ht⟩ := h
    obtain rfl := Option.some.inj ht
    rw [coupledSlot_of_ringMaster (hpartner ▸ hmaster), slot_pred_succ, clearActive_slot_same, silenced_active]
    simp only [Bool.false_eq_true, false_and, if_false]

/-! ### Deactivate and PSTOP -/

theorem deactivate_of_inactive {s : State} {i : SlotIx} (h : (s.slot i).active = false) : deactivate s i = s := by
  rw [deactivate, h]
  rfl

/-- Deactivating an active slot, by the partner it has before it. -/
theorem deactivate_eq_elim {s : State} {i : SlotIx} (h : (s.slot i).active = true) :
    deactivate s i = (coupledSlot s i).elim (clearActive s i) (clearActive (clearActive s i)) := by
  rw [deactivate_of_active h, coupledSlot_clearActive_self]
  cases coupledSlot s i <;> rfl

/-- Rule R280: Deactivate with its recursive call on the partner, whose own call goes no further. -/
theorem deactivate_eq_elim_deactivate {s : State} {i : SlotIx} (h : (s.slot i).active = true) :
    deactivate s i = (coupledSlot s i).elim (clearActive s i) (deactivate (clearActive s i)) := by
  rw [deactivate_eq_elim h]
  cases hc : coupledSlot s i with
  | none => rfl
  | some t =>
    have hactive : ((clearActive s i).slot t).active = true := by
      rw [clearActive_slot_ne s (coupledSlot_ne hc)]
      exact coupledSlot_active hc
    rw [Option.elim_some, Option.elim_some, deactivate_eq_elim hactive, coupledSlot_clearActive_partner hc,
      Option.elim_none]

/-- Rule R280: the three writes. -/
theorem ended_eq (s : State) (i : SlotIx) : ended s i = clearActive s i := by
  have hbit : BitVec.ofNat 32 (2 ^ i.toNat) = 1#32 <<< i.toNat := by revert i; decide
  rw [ended, hbit]
  rfl

/-- Settles O42: `coupledSlot_elim` is rule R281's choice of the partner. -/
theorem pstopDeactivatesTheSlotAndItsCoupledPartner :
    Obligations.PstopDeactivatesTheSlotAndItsCoupledPartner := by
  intro s i
  simp only [exec_pstop, ended_eq]
  cases hactive : (s.slot i).active with
  | false => rw [deactivate_of_inactive hactive, if_pos rfl]
  | true =>
    rw [deactivate_eq_elim hactive, coupledSlot_elim]
    rfl

/-- Settles O43: the pseudocode reads after the three writes what it would read before them, and a master is no
slave. -/
theorem deactivateMeetsItsRecursion : Obligations.DeactivateMeetsItsRecursion := by
  intro s i
  simp only [ended_eq, clearActive_slot_same, silenced_role, silenced_mix, clearActive_slot_ne s (slot_succ_ne i),
    clearActive_slot_ne s (slot_pred_ne i)]
  cases hactive : (s.slot i).active with
  | false => rw [deactivate_of_inactive hactive, if_pos rfl]
  | true =>
    rw [deactivate_eq_elim_deactivate hactive, coupledSlot_elim]
    cases (s.slot i).role <;> simp [ite_and]

/-! ### TICK with no active slot -/

theorem passSlots_of_none_active (p : Params) {s : State} (h : ∀ i, (s.slot i).active = false) :
    passSlots p s = s := by
  unfold passSlots
  exact List.foldl_fixed' (fun i => tickSlot_skip p (.inl (h i))) allSlots

/-- Settles O46: every pass of the loop skips its slot. -/
theorem tickWithNoActiveSlotOnlyCounts : Obligations.TickWithNoActiveSlotOnlyCounts := by
  intro s h
  rw [exec_tick, tick, passSlots_of_none_active hw (s := clearFrame s) h]
  rfl

/-! ### What makes a slot active -/

/-- Rules R271, R280: of the other slots, a PSTART can only deactivate one. -/
theorem active_of_active_doPstart {p : Params} {j k : SlotIx} {s : State} (h : pcmRefused p (s.slot j) = false)
    (hk : k ≠ j) (hact : ((doPstart p j s).slot k).active = true) : (s.slot k).active = true := by
  obtain ⟨u, e, hu⟩ := pstart_shape h
  rw [e, slot_modSlot_ne u _ hk] at hact
  rcases hu with ⟨-, rfl⟩ | ⟨-, rfl⟩
  · exact hact
  · exact (deactivate_told (s.record .staleState) j).2 k hact

/-- Settles O53, by the shape of the command's effect: `NoneStarted` in every shape but PSTART. -/
theorem onlyPstartActivatesASlot : Obligations.OnlyPstartActivatesASlot := by
  intro i s t ht k hbefore hafter
  by_contra hi
  suffices (s.slot k).active = true by rw [hbefore] at this; cases this
  cases execShape_of_next ht with
  | error e _ => exact hafter
  | oneSlot j f w _ hactive _ _ => exact (modSlot_active hactive k).symm.trans hafter
  | start j hj hrange => exact active_of_active_doPstart hrange (fun hk => hi (hk ▸ hj)) hafter
  | stop j _ => exact (deactivate_told s j).2 k hafter
  | tick _ => exact (tick_told Config.hardware s).2 k hafter

/-! ### NOP, PSTART, PDECAY and PABORT -/

/-- Settles O40, by NOP's arm of `exec`. -/
theorem nopChangesNothing : Obligations.NopChangesNothing := exec_nop

/-- Rule R271: the even slot of the pair. -/
theorem evenSlot_eq (i : SlotIx) : BitVec.ofNat 5 (i.toNat / 2 * 2) = evenSlot i := by revert i; decide

/-- Rules R35, R271. -/
theorem pairMix_eq (s : State) (i : SlotIx) : pairMix s i = mixTypeField (s.slot (evenSlot i)).regs := by
  have hcode (w : Word) : (w.extractLsb' 0 2).toNat = w.toNat % 4 := BitVec.extractLsb'_toNat 0 2 w
  rw [pairMix, evenSlot_eq, ← hcode]
  rfl

/-- Rule R271: the role that a structure gives a slot. -/
theorem roleFor_eq (mix : MixType) (i : SlotIx) :
    (if mix = .ringAndMix ∨ mix = .ringOnly then (if i.toNat % 2 = 0 then .ringMaster else .ringSlave)
      else .independent) = roleFor mix i := by
  have heven : i.toNat % 2 = 0 ↔ slotEven i = true := by revert i; decide
  cases mix <;> simp [roleFor, heven]

/-- Rule R271. -/
theorem partialStarted_eq (p : Params) (mix : MixType) (i : SlotIx) (x : Slot) :
    partialStarted p mix i x = startSlot p mix i x := by
  simp only [partialStarted, waveStarted_eq, roleFor_eq, envStarted_eq]
  rfl

/-- Settles O41, by the outcomes of `pstart_shape`: a deactivation leaves the even slot's PAIR_CFG alone. -/
theorem pstartStartsTheSlot : Obligations.PstartStartsTheSlot := by
  intro s i
  rw [exec_pstart, pairMix_eq, funext (partialStarted_eq hw _ i), ← pcmRefused_iff, Bool.not_eq_true]
  refine ⟨fun hout => ?_, fun hin ha => ?_, fun hin ha => ?_⟩
  · rw [doPstart, if_pos hout, logError_eq_errored]
    rfl
  · obtain ⟨u, e, ⟨-, rfl⟩ | ⟨ha', -⟩⟩ := pstart_shape hin
    · exact congrArg _ e
    · rw [ha] at ha'; cases ha'
  · obtain ⟨u, e, ⟨ha', -⟩ | ⟨-, rfl⟩⟩ := pstart_shape hin
    · rw [ha] at ha'; cases ha'
    · rw [e, deactivate_regs]
      rfl

/-- Settles O44: `decayEnv` is rule R240's EDECAY. -/
theorem pdecayReleasesEveryEnvelopeOfAnActiveSlot : Obligations.PdecayReleasesEveryEnvelopeOfAnActiveSlot := by
  intro s i
  simp only [exec_pdecay, envDecayed_eq]
  rfl

/-- Settles O45: `abortEnv` is rule R243's EABORT. -/
theorem pabortAbortsAnActiveSlot : Obligations.PabortAbortsAnActiveSlot := by
  intro s i
  simp only [exec_pabort, envAborted_eq]
  rfl

end Sys2Proof.Machine
end

section
/-! Rules R341, R343: what the state after reset holds, the latches that no register shows included. -/

namespace Sys2Proof.Machine

theorem trio_get_const {α : Type} (v : α) (c : Ctl) : (Trio.mk v v v).get c = v := by
  cases c <;> rfl

/-- Every field of the words RAMP_STAT, ENV_STAT, SLOT_STAT and WG_OUT has the code 0 (rules R40-R43). -/
theorem readState_reset (p : Params) (r : StateReg) : readState (Slot.reset p) r = 0#32 := by
  have hramp (c : Ctl) : (Slot.reset p).ramp.get c = Ramp.reset := trio_get_const _ c
  cases r with
  | rampCur c | rampTgt c | rampInc c =>
    simp only [readState, hramp]
    rfl
  | rampStat c =>
    rw [readState, hramp]
    exact BitVec.eq_of_toNat_eq (rampStat_toNat Ramp.reset)
  | wgOut1 | wgOut2 => exact BitVec.eq_of_toNat_eq (logSampleWord_toNat ⟨0, false⟩)
  | envStat => exact BitVec.eq_of_toNat_eq (envStat_toNat (Slot.reset p))
  | slotStat => exact BitVec.eq_of_toNat_eq (slotStat_toNat (Slot.reset p))
  | pairOut | pitchOut | wgPos => rfl

theorem errWord_clear {s : State} (herr : s.err = false) (hcode : s.errCode = 0#8) : errWord s = 0#32 := by
  rw [errWord, herr, hcode]
  rfl

/-- ACTIVE_MASK is the one global register that shows the slots. -/
theorem activeMask_reset (p : Params) : activeMask (State.resetWith p) = 0#32 := by
  refine BitVec.eq_of_getLsbD_eq fun k hk => ?_
  have hbit := activeMask_bit (State.resetWith p) (BitVec.ofNat 5 k)
  rw [reset_slot, BitVec.toNat_ofNat, Nat.mod_eq_of_lt hk] at hbit
  rw [hbit, BitVec.getLsbD_zero]
  rfl

theorem readGlobal_reset (p : Params) {r : GlobalReg} (h : r ≠ .id) : readGlobal (State.resetWith p) r = 0#32 := by
  cases r with
  | err => exact errWord_clear rfl rfl
  | activeMask => exact activeMask_reset p
  | id => exact absurd rfl h
  | _ => rfl

/-- ID has one address (rules R45, R48). -/
theorem regName_eq_id_iff {a : HostAddr} : regName a = .global .id ↔ a = 0x809#12 :=
  ⟨regName_global, fun h => h ▸ rfl⟩

/-- Rule R341, for any parameters: every register but ID reads 0 after reset. -/
theorem readReg_reset (p : Params) {a : HostAddr} (h : a ≠ 0x809#12) : readReg (State.resetWith p) a = 0#32 := by
  unfold readReg
  cases hn : regName a with
  | param i n => exact (congrArg (fun x => readParam x.regs n) (reset_slot p i)).trans (readParam_reset n)
  | state i r => exact (congrArg (readState · r) (reset_slot p i)).trans (readState_reset p r)
  | global r => exact readGlobal_reset p fun e => h (regName_eq_id_iff.mp (by rw [hn, e]))
  | reserved => rfl

/-- Settles O16: an address is ID's or `readReg_reset` gives its 0, and every slot is `Slot.reset`. -/
theorem resetLeavesEveryRegisterZeroButId : Obligations.ResetLeavesEveryRegisterZeroButId := by
  refine ⟨fun a => ?_, fun i => ?_, rfl⟩
  · split
    next h => subst h; rfl
    next h => exact readReg_reset _ h
  · rw [State.reset, reset_slot]
    exact ⟨rfl, rfl, rfl, rfl, rfl, rfl, rfl, rfl, fun c => trio_get_const LatchedParams.reset c⟩

end Sys2Proof.Machine
end
